-- ==== Sys2Proof/Word.lean ====
section
/-! DEFINITION. The word types of the CORE (spec 00_scope.md R4, R7, R8). -/

namespace Sys2Proof

/-- A 32-bit pattern: a register, an address, an instruction word (R4, R8). -/
abbrev Word := BitVec 32

/-- The addressable unit of memory (R50). -/
abbrev Byte := BitVec 8

/-- A register index field: 5 bits, so every index it can name exists (R21). -/
abbrev RegIdx := BitVec 5

end Sys2Proof
end

