-- ==== Sys2Proof/Config.lean ====
section
/-! DEFINITION. The launch configuration (spec 00_scope.md R5): inputs of the machine, constant
for a whole run. Every range of R5 is carried by the field's type. This hardware has no free
value (spec 93_implementation_defined.md: nothing is modelled as `any value`), so no opaque
constant stands here. -/

namespace Sys2Proof

/-- What an out-of-bounds access does (R5, R55, R56; spec decision D5). -/
inductive BoundsPolicy where
  /-- R55, the spec's default: the access returns 0 or writes nothing and the step goes on. -/
  | warnNoop
  /-- R56: the access raises ExecuteError(MemoryBounds). -/
  | escalate
deriving DecidableEq, Repr

/-- The four parameters of R5. -/
structure Config where
  /-- MEM_CAPACITY in bytes, 0 .. 2^32 (D24). -/
  memCapacity : Fin (2 ^ 32 + 1)
  /-- INSTRUCTION_COUNT, 0 .. 2^30 - 1 (D11). -/
  instructionCount : Fin (2 ^ 30)
  /-- STEP_CEILING, read by the run loop only (R135; D12). -/
  stepCeiling : Nat
  /-- BOUNDS_POLICY (D5). -/
  boundsPolicy : BoundsPolicy
deriving DecidableEq, Repr

end Sys2Proof
end

