-- ==== Sys2Proof/Machine/State.lean ====
section
/-! DEFINITION. The machine's state as plain data (spec 10_state.md), its outputs, and the state
right after reset. -/

namespace Sys2Proof.Machine

/-- Result code of a step (R133). The numbers are `StepStatus.code` in Machine/Flags.lean. -/
inductive StepStatus where
  /-- ST_OK: an instruction was fetched, decoded, executed and counted. -/
  | ok
  /-- ST_HALT: the step set `halted`, or `halted` was already set. -/
  | halt
  /-- ST_DECODE_FAIL: phase 4 found an illegal word. -/
  | decodeFail
  /-- ST_EXECUTE_FAIL: phase 3 or 5 raised ExecuteError, only under `escalate`. -/
  | executeFail
  /-- ST_REFUSED: the step was requested with `error` already set. -/
  | refused
deriving DecidableEq, Repr

/-- Which of `mem_re` and `mem_we` a transaction asserts (R35). -/
inductive AccessDir where
  | read
  | write
deriving DecidableEq, Repr

/-- One transaction of the 32-bit memory port (R35, R57): `mem_addr`, `mem_re` or `mem_we`,
`mem_rdata` or `mem_wdata`, `mem_oob`. -/
structure MemAccess where
  dir : AccessDir
  addr : Word
  data : Word
  oob : Bool
deriving DecidableEq, Repr

/-- The outputs of the last step (R35). No instruction and no phase of a step reads them.
DESIGN CHOICE (assumption 5): the spec has them as outputs; State holds them because the
interface's step answers a state alone. -/
structure Outputs where
  /-- `step_status` (R133). -/
  stepStatus : StepStatus
  /-- `bounds_warn`: some access of the step was out of bounds (R213). -/
  boundsWarn : Bool
  /-- `x0_write_dropped`: a writeback to x0 was discarded (R22). DESIGN CHOICE (assumption 6): the
  optional output is driven. -/
  x0WriteDropped : Bool
  /-- The memory port's transactions in this step, oldest first (R57, R129). -/
  memPort : List MemAccess
deriving DecidableEq, Repr

/-- Memory as (address, byte) pairs: addresses strictly rising, no byte equal to 0, an unlisted
address reading 0 (R50, R68). -/
abbrev Memory := List Host.Cell

/-- All that the spec gives the machine (R20, R27, R29, R32), with its configuration (R5). -/
structure State where
  /-- The launch configuration. It is an input of the machine, never changed by a step (R5, R34).
  DESIGN CHOICE (assumption 1): State carries it. -/
  cfg : Config
  /-- x[0] to x[31] (R21). Only `State.readReg` and `State.writeReg` touch it (R22, R23). -/
  regs : Vector Word 32
  /-- The program counter (R25). -/
  pc : Word
  /-- Normal termination (R27). -/
  halted : Bool
  /-- Decode or execute failure (R27). -/
  error : Bool
  /-- `instructions_executed` (R29). -/
  instret : Nat
  /-- The byte array (R32, R50). -/
  mem : Memory
  /-- The outputs of the last step (R35). -/
  out : Outputs
deriving DecidableEq, Repr

/-- Reasons for a step to stop with a fault. There is none: the spec's `Step` is total (R120), a
failure sets `error` and is a next state (R132, R211, R212). Nothing raises a value of this type,
so no claim can hold because of one (safe). -/
inductive Fault where
deriving DecidableEq, Repr

/-- Reasons for refusing an instruction. -/
inductive Refusal where
  /-- An arm of `exec` for an instruction that has no meaning yet. Every instruction has one, so no
  arm raises it. It would be safe: a refused step has no next state to make a claim about. -/
  | notModelled (mnemonic : String)
deriving DecidableEq, Repr

/-- The outputs before any step. DESIGN CHOICE (assumption 5): the spec states no reset value. -/
def Outputs.idle : Outputs :=
  { stepStatus := .ok, boundsWarn := false, x0WriteDropped := false, memPort := [] }

/-- The configuration `State.reset` carries. STEP_CEILING and BOUNDS_POLICY are the spec's defaults
(D12, D5; assumption 4). MEM_CAPACITY has none: DESIGN CHOICE 2^32, the largest R5 allows
(assumption 2). INSTRUCTION_COUNT is 0: no program is loaded, DESIGN CHOICE (assumption 3). -/
def unloadedConfig : Config :=
  { memCapacity := ⟨2 ^ 32, by decide⟩
    instructionCount := ⟨0, by decide⟩
    stepCeiling := 1000
    boundsPolicy := .warnNoop }

/-- The machine right after reset (R36, R240): all registers 0, pc 0, Running, count 0; memory as
allocated, zero-filled, nothing loaded (R68). -/
def State.reset : State :=
  { cfg := unloadedConfig
    regs := Vector.replicate 32 0#32
    pc := 0#32
    halted := false
    error := false
    instret := 0
    mem := []
    out := Outputs.idle }

end Sys2Proof.Machine
end

