-- ==== Sys2Proof/Machine/Flags.lean ====
section
/-! DEFINITION. The two flags of the state machine, the halt test, the status codes and the branch
comparisons. There are no condition codes: no instruction writes or reads a flag (spec 10_state.md
R30, R37). -/

namespace Sys2Proof.Machine

/-- The three states of the state machine (R27). -/
inductive CtrlState where
  | running | halted | errored
deriving DecidableEq, Repr

/-- The state the two flags hold; none for the fourth combination, which no run reaches (R27, R28). -/
def State.ctrl (s : State) : Option CtrlState :=
  match s.halted, s.error with
  | false, false => some .running
  | true, false => some .halted
  | false, true => some .errored
  | true, true => none

/-- Running: `halted = 0` and `error = 0` (R27). -/
def State.running (s : State) : Bool := !s.halted && !s.error

/-- The codes of `step_status` (R133). -/
def StepStatus.code : StepStatus → BitVec 3
  | .ok => 0#3
  | .halt => 1#3
  | .decodeFail => 2#3
  | .executeFail => 3#3
  | .refused => 4#3

/-- DATA_OFFSET as a number of bytes, `4 * INSTRUCTION_COUNT` (R6). -/
def State.dataOffset (s : State) : Nat := 4 * s.cfg.instructionCount.val

/-- The halt test: `pc >= DATA_OFFSET` or `pc >= MEM_CAPACITY`, unsigned (R122). -/
def State.haltTest (s : State) : Bool :=
  decide (s.dataOffset ≤ s.pc.toNat) || decide (s.cfg.memCapacity.val ≤ s.pc.toNat)

/-- The comparisons of the four branches (R99). -/
inductive Cond where
  | eq | ne | lt | ge
deriving DecidableEq, Repr

/-- Whether a comparison of two register values holds; `lt` and `ge` compare the two's-complement
values exactly (R191 to R194). -/
def Cond.holds (c : Cond) (a b : Word) : Bool :=
  match c with
  | .eq => decide (a = b)
  | .ne => decide (a ≠ b)
  | .lt => decide (a.toInt < b.toInt)
  | .ge => decide (b.toInt ≤ a.toInt)

end Sys2Proof.Machine
end

