-- ==== Sys2Proof/WellFormed.lean ====
section
/-! DEFINITION. Which terms of `Instr` an instruction word can express. Register fields and the
I, S and U immediates admit every value (spec 30_encoding.md R97, R100); a B or J offset is even,
because its bit 0 is architecturally 0 (R92, R93). -/

namespace Sys2Proof

/-- Bit 0 of a branch or jump offset is 0 (R92, R93). -/
def evenOffset {n : Nat} (off : BitVec n) : Bool := !off.getLsbD 0

/-- The instruction has an encoding: its offset, if it is a B or J format, is even. -/
def Instr.wf : Instr → Bool
  | .add _ _ _ => true
  | .sub _ _ _ => true
  | .sll _ _ _ => true
  | .xor _ _ _ => true
  | .srl _ _ _ => true
  | .sra _ _ _ => true
  | .or _ _ _ => true
  | .and _ _ _ => true
  | .addi _ _ _ => true
  | .lw _ _ _ => true
  | .sw _ _ _ => true
  | .lui _ _ => true
  | .auipc _ _ => true
  | .beq _ _ off => evenOffset off
  | .bne _ _ off => evenOffset off
  | .blt _ _ off => evenOffset off
  | .bge _ _ off => evenOffset off
  | .jal _ off => evenOffset off
  | .jalr _ _ _ => true

end Sys2Proof
end

