-- ==== Sys2Proof/Decode.lean ====
section
/-! DEFINITION. The instruction codec (spec 30_encoding.md): field accessors, the decoder, the
builders, the encoder, and the opcode table of R95. -/

namespace Sys2Proof

/-! ### Byte order (R51) -/

/-- The four bytes of a word as memory holds them, lowest address first (R51). -/
def bytesOfWord (w : Word) : List Byte :=
  [w.extractLsb' 0 8, w.extractLsb' 8 8, w.extractLsb' 16 8, w.extractLsb' 24 8]

/-- The word whose byte at the lowest address is `b0` (R51, R53). -/
def wordOfBytes (b0 b1 b2 b3 : Byte) : Word := b3 ++ b2 ++ b1 ++ b0

/-! ### Fields (R82 to R88) -/

def opcodeOf (w : Word) : BitVec 7 := w.extractLsb' 0 7
def rdOf (w : Word) : RegIdx := w.extractLsb' 7 5
def funct3Of (w : Word) : BitVec 3 := w.extractLsb' 12 3
def rs1Of (w : Word) : RegIdx := w.extractLsb' 15 5
def rs2Of (w : Word) : RegIdx := w.extractLsb' 20 5
def funct7Of (w : Word) : BitVec 7 := w.extractLsb' 25 7

/-- The 12 immediate bits of the I format (R84). -/
def immIBits (w : Word) : BitVec 12 := w.extractLsb' 20 12

/-- The 12 immediate bits of the S format, `{w[31:25], w[11:7]}` (R85, R90). -/
def immSBits (w : Word) : BitVec 12 := w.extractLsb' 25 7 ++ w.extractLsb' 7 5

/-- The 20-bit field of the U format (R86, R91). -/
def imm20Of (w : Word) : BitVec 20 := w.extractLsb' 12 20

/-- The 13 offset bits of the B format, `{w[31], w[7], w[30:25], w[11:8], 1'b0}` (R87, R92). -/
def immBBits (w : Word) : BitVec 13 :=
  w.extractLsb' 31 1 ++ w.extractLsb' 7 1 ++ w.extractLsb' 25 6 ++ w.extractLsb' 8 4 ++ 0#1

/-- The 21 offset bits of the J format, `{w[31], w[19:12], w[20], w[30:21], 1'b0}` (R88, R93). -/
def immJBits (w : Word) : BitVec 21 :=
  w.extractLsb' 31 1 ++ w.extractLsb' 12 8 ++ w.extractLsb' 20 1 ++ w.extractLsb' 21 10 ++ 0#1

/-! ### Assembled immediates (R9, R89 to R93) -/

/-- An I or S immediate as a 32-bit pattern: sign-extended from bit 11 (R9, R89, R90). -/
def extend12 (f : BitVec 12) : Word := f.signExtend 32

/-- A U immediate as a 32-bit pattern: the field above twelve 0 bits (R91). -/
def shiftUpper (f : BitVec 20) : Word := f ++ 0#12

/-- A B offset as a 32-bit pattern: sign-extended from bit 12 (R92). -/
def extend13 (f : BitVec 13) : Word := f.signExtend 32

/-- A J offset as a 32-bit pattern: sign-extended from bit 20 (R93). -/
def extend21 (f : BitVec 21) : Word := f.signExtend 32

def immI (w : Word) : Word := extend12 (immIBits w)
def immS (w : Word) : Word := extend12 (immSBits w)
def immU (w : Word) : Word := shiftUpper (imm20Of w)
def immB (w : Word) : Word := extend13 (immBBits w)
def immJ (w : Word) : Word := extend21 (immJBits w)

/-! ### Formats and operations -/

/-- The six formats (R81; C11). -/
inductive Format where
  | r | i | s | u | b | j
deriving DecidableEq, Repr

/-- The format of a word, from its low seven bits alone; none for the 119 opcodes outside the
table (R81). -/
def decodeFormat (w : Word) : Option Format :=
  if opcodeOf w = 0x33#7 then some .r
  else if opcodeOf w = 0x03#7 then some .i
  else if opcodeOf w = 0x13#7 then some .i
  else if opcodeOf w = 0x67#7 then some .i
  else if opcodeOf w = 0x23#7 then some .s
  else if opcodeOf w = 0x37#7 then some .u
  else if opcodeOf w = 0x17#7 then some .u
  else if opcodeOf w = 0x63#7 then some .b
  else if opcodeOf w = 0x6F#7 then some .j
  else none

/-- The nineteen operations of the decoder (R94, R95). -/
inductive Op where
  | add | sub | sll | xor | srl | sra | or | and
  | addi | lw | sw | lui | auipc | beq | bne | blt | bge | jal | jalr
deriving DecidableEq, Repr

/-- The operation of an instruction. -/
def Instr.op : Instr → Op
  | .add _ _ _ => .add
  | .sub _ _ _ => .sub
  | .sll _ _ _ => .sll
  | .xor _ _ _ => .xor
  | .srl _ _ _ => .srl
  | .sra _ _ _ => .sra
  | .or _ _ _ => .or
  | .and _ _ _ => .and
  | .addi _ _ _ => .addi
  | .lw _ _ _ => .lw
  | .sw _ _ _ => .sw
  | .lui _ _ => .lui
  | .auipc _ _ => .auipc
  | .beq _ _ _ => .beq
  | .bne _ _ _ => .bne
  | .blt _ _ _ => .blt
  | .bge _ _ _ => .bge
  | .jal _ _ => .jal
  | .jalr _ _ _ => .jalr

/-- The format column of R95. -/
def Op.format : Op → Format
  | .add | .sub | .sll | .xor | .srl | .sra | .or | .and => .r
  | .addi | .lw | .jalr => .i
  | .sw => .s
  | .lui | .auipc => .u
  | .beq | .bne | .blt | .bge => .b
  | .jal => .j

/-- One row of the table of R95. -/
structure OpRow where
  op : Op
  mask : Word
  bits : Word
  canonical : Word
deriving DecidableEq, Repr

/-- R95: the (mask, match) pair and the canonical word with all operand fields 0. -/
def Op.row : Op → OpRow
  | .add => ⟨.add, 0xFE00707F, 0x00000033, 0x00000033⟩
  | .sub => ⟨.sub, 0xFE00707F, 0x40000033, 0x40000033⟩
  | .sll => ⟨.sll, 0x0000707F, 0x00001033, 0x00001033⟩
  | .xor => ⟨.xor, 0x0000707F, 0x00004033, 0x00004033⟩
  | .srl => ⟨.srl, 0xFE00707F, 0x00005033, 0x00005033⟩
  | .sra => ⟨.sra, 0xFE00707F, 0x40005033, 0x40005033⟩
  | .or => ⟨.or, 0x0000707F, 0x00006033, 0x00006033⟩
  | .and => ⟨.and, 0x0000707F, 0x00007033, 0x00007033⟩
  | .addi => ⟨.addi, 0x0000707F, 0x00000013, 0x00000013⟩
  | .lw => ⟨.lw, 0x0000707F, 0x00002003, 0x00002003⟩
  | .sw => ⟨.sw, 0x0000007F, 0x00000023, 0x00002023⟩
  | .lui => ⟨.lui, 0x0000007F, 0x00000037, 0x00000037⟩
  | .auipc => ⟨.auipc, 0x0000007F, 0x00000017, 0x00000017⟩
  | .beq => ⟨.beq, 0x0000707F, 0x00000063, 0x00000063⟩
  | .bne => ⟨.bne, 0x0000707F, 0x00001063, 0x00001063⟩
  | .blt => ⟨.blt, 0x0000707F, 0x00004063, 0x00004063⟩
  | .bge => ⟨.bge, 0x0000707F, 0x00005063, 0x00005063⟩
  | .jal => ⟨.jal, 0x0000007F, 0x0000006F, 0x0000006F⟩
  | .jalr => ⟨.jalr, 0x0000707F, 0x00000067, 0x00000067⟩

/-- The bits the decoder ignores and that belong to no field: funct7 of SLL, XOR, OR and AND
(R96), funct3 of SW (R98). -/
def Op.dontCare : Op → Word
  | .sll | .xor | .or | .and => 0xFE000000
  | .sw => 0x00007000
  | .add | .sub | .srl | .sra | .addi | .lw | .lui | .auipc | .beq | .bne | .blt | .bge | .jal
  | .jalr => 0x00000000

/-- The word with its don't-care bits replaced by those of the canonical column (R95). -/
def Op.canonicalize (o : Op) (w : Word) : Word :=
  (w &&& ~~~o.dontCare) ||| (o.row.canonical &&& o.dontCare)

/-- The nineteen operations in the order of the table. -/
def allOps : List Op :=
  [.add, .sub, .sll, .xor, .srl, .sra, .or, .and, .addi, .lw, .sw, .lui, .auipc, .beq, .bne,
    .blt, .bge, .jal, .jalr]

/-! ### The decoder (R94 to R101) -/

/-- Why a word is no instruction: the seven items of R101, by name. Executing such a word raises
DecodeError (R211). `truncated` is not an item of R101: it names a byte sequence shorter than an
instruction, which no fetch delivers (R80). -/
inductive Illegal where
  /-- R101 item 1: `w[6:0]` is none of the nine opcodes. -/
  | opcode
  /-- R101 item 2: opcode 0x33 with funct3 0x2 or 0x3. -/
  | aluFunct3
  /-- R101 item 3: opcode 0x33, funct3 0x0 or 0x5, funct7 neither 0x00 nor 0x20. -/
  | aluFunct7
  /-- R101 item 4: opcode 0x03 with funct3 other than 0x2. -/
  | loadFunct3
  /-- R101 item 5: opcode 0x13 with funct3 other than 0x0. -/
  | aluImmFunct3
  /-- R101 item 6: opcode 0x67 with funct3 other than 0x0. -/
  | jalrFunct3
  /-- R101 item 7: opcode 0x63 with funct3 0x2, 0x3, 0x6 or 0x7. -/
  | branchFunct3
  /-- Fewer than four bytes were given to the byte-level decoder. -/
  | truncated
deriving DecidableEq, Repr

/-- The decoder's verdict on a word: one of the nineteen operations with its operands, or Illegal
(R94). -/
inductive Verdict where
  | instr (i : Instr)
  | illegal (why : Illegal)
deriving DecidableEq, Repr

/-- Opcode 0x33 (R96). -/
def decodeAlu (w : Word) : Verdict :=
  if funct3Of w = 0x0#3 then
    if funct7Of w = 0x00#7 then .instr (.add (rdOf w) (rs1Of w) (rs2Of w))
    else if funct7Of w = 0x20#7 then .instr (.sub (rdOf w) (rs1Of w) (rs2Of w))
    else .illegal .aluFunct7
  else if funct3Of w = 0x1#3 then .instr (.sll (rdOf w) (rs1Of w) (rs2Of w))
  else if funct3Of w = 0x4#3 then .instr (.xor (rdOf w) (rs1Of w) (rs2Of w))
  else if funct3Of w = 0x5#3 then
    if funct7Of w = 0x00#7 then .instr (.srl (rdOf w) (rs1Of w) (rs2Of w))
    else if funct7Of w = 0x20#7 then .instr (.sra (rdOf w) (rs1Of w) (rs2Of w))
    else .illegal .aluFunct7
  else if funct3Of w = 0x6#3 then .instr (.or (rdOf w) (rs1Of w) (rs2Of w))
  else if funct3Of w = 0x7#3 then .instr (.and (rdOf w) (rs1Of w) (rs2Of w))
  else .illegal .aluFunct3

/-- Opcode 0x63 (R99). -/
def decodeBranch (w : Word) : Verdict :=
  if funct3Of w = 0x0#3 then .instr (.beq (rs1Of w) (rs2Of w) (immBBits w))
  else if funct3Of w = 0x1#3 then .instr (.bne (rs1Of w) (rs2Of w) (immBBits w))
  else if funct3Of w = 0x4#3 then .instr (.blt (rs1Of w) (rs2Of w) (immBBits w))
  else if funct3Of w = 0x5#3 then .instr (.bge (rs1Of w) (rs2Of w) (immBBits w))
  else .illegal .branchFunct3

/-- Opcode 0x03 (R97). -/
def decodeLoad (w : Word) : Verdict :=
  if funct3Of w = 0x2#3 then .instr (.lw (rdOf w) (rs1Of w) (immIBits w))
  else .illegal .loadFunct3

/-- Opcode 0x13 (R97). -/
def decodeAluImm (w : Word) : Verdict :=
  if funct3Of w = 0x0#3 then .instr (.addi (rdOf w) (rs1Of w) (immIBits w))
  else .illegal .aluImmFunct3

/-- Opcode 0x67 (R97). -/
def decodeJalr (w : Word) : Verdict :=
  if funct3Of w = 0x0#3 then .instr (.jalr (rdOf w) (rs1Of w) (immIBits w))
  else .illegal .jalrFunct3

/-- `Decode(w)` (R94): first by opcode, then by funct3, then by funct7; total. Under opcode 0x23
funct3 is not looked at (R98); opcodes 0x37, 0x17 and 0x6F have no sub-dispatch (R100). -/
def decode (w : Word) : Verdict :=
  if opcodeOf w = 0x33#7 then decodeAlu w
  else if opcodeOf w = 0x03#7 then decodeLoad w
  else if opcodeOf w = 0x13#7 then decodeAluImm w
  else if opcodeOf w = 0x67#7 then decodeJalr w
  else if opcodeOf w = 0x23#7 then .instr (.sw (rs1Of w) (rs2Of w) (immSBits w))
  else if opcodeOf w = 0x37#7 then .instr (.lui (rdOf w) (imm20Of w))
  else if opcodeOf w = 0x17#7 then .instr (.auipc (rdOf w) (imm20Of w))
  else if opcodeOf w = 0x63#7 then decodeBranch w
  else if opcodeOf w = 0x6F#7 then .instr (.jal (rdOf w) (immJBits w))
  else .illegal .opcode

/-- The decoder on a byte sequence: every instruction is four bytes, the first at the lowest
address (R80, R51). Answers the verdict and the bytes after the instruction. -/
def decodeBytes : List Byte → Verdict × List Byte
  | b0 :: b1 :: b2 :: b3 :: rest => (decode (wordOfBytes b0 b1 b2 b3), rest)
  | bs => (.illegal .truncated, bs)

/-- The instruction of a verdict, if it is one. -/
def Verdict.instr? : Verdict → Option Instr
  | .instr i => some i
  | .illegal _ => none

/-- The word that the table's numbering gives an instruction of `nbits` bits `w`, every bit above
`nbits` being 0. -/
def tableWord (nbits w : Nat) : Word := BitVec.ofNat 32 (w % 2 ^ nbits)

/-- The instruction the decoder reads from a word numbered as spec/opcode_table.json numbers it:
the word is laid out in memory order (R51) and given to the byte-level decoder. -/
def decodeTableWord (nbits w : Nat) : Option Instr :=
  (decodeBytes (bytesOfWord (tableWord nbits w))).1.instr?

/-! ### Builders (R103 to R108): every sub-field is masked to its width, never rejected -/

def packR (funct7 rs2 rs1 funct3 rd opcode : Word) : Word :=
  ((funct7 &&& 0x7F) <<< 25) ||| ((rs2 &&& 0x1F) <<< 20) ||| ((rs1 &&& 0x1F) <<< 15)
    ||| ((funct3 &&& 0x7) <<< 12) ||| ((rd &&& 0x1F) <<< 7) ||| (opcode &&& 0x7F)

def packI (imm rs1 funct3 rd opcode : Word) : Word :=
  ((imm &&& 0xFFF) <<< 20) ||| ((rs1 &&& 0x1F) <<< 15) ||| ((funct3 &&& 0x7) <<< 12)
    ||| ((rd &&& 0x1F) <<< 7) ||| (opcode &&& 0x7F)

def packS (imm rs2 rs1 funct3 opcode : Word) : Word :=
  (((imm >>> 5) &&& 0x7F) <<< 25) ||| ((rs2 &&& 0x1F) <<< 20) ||| ((rs1 &&& 0x1F) <<< 15)
    ||| ((funct3 &&& 0x7) <<< 12) ||| ((imm &&& 0x1F) <<< 7) ||| (opcode &&& 0x7F)

def packU (imm20 rd opcode : Word) : Word :=
  ((imm20 &&& 0xFFFFF) <<< 12) ||| ((rd &&& 0x1F) <<< 7) ||| (opcode &&& 0x7F)

def packB (imm rs2 rs1 funct3 opcode : Word) : Word :=
  (((imm >>> 12) &&& 0x1) <<< 31) ||| (((imm >>> 5) &&& 0x3F) <<< 25)
    ||| ((rs2 &&& 0x1F) <<< 20) ||| ((rs1 &&& 0x1F) <<< 15) ||| ((funct3 &&& 0x7) <<< 12)
    ||| (((imm >>> 1) &&& 0xF) <<< 8) ||| (((imm >>> 11) &&& 0x1) <<< 7) ||| (opcode &&& 0x7F)

def packJ (imm rd opcode : Word) : Word :=
  (((imm >>> 20) &&& 0x1) <<< 31) ||| (((imm >>> 1) &&& 0x3FF) <<< 21)
    ||| (((imm >>> 11) &&& 0x1) <<< 20) ||| (((imm >>> 12) &&& 0xFF) <<< 12)
    ||| ((rd &&& 0x1F) <<< 7) ||| (opcode &&& 0x7F)

/-! ### The encoder: the canonical word of an instruction (R95, R110, R111) -/

/-- The zero-extended value of a field (R9), as the builders take their arguments. -/
def arg {n : Nat} (f : BitVec n) : Word := f.setWidth 32

/-- The canonical word: don't-care bits as the canonical column of R95 has them, so funct7 = 0x00
for SLL, XOR, OR and AND (R96) and funct3 = 0x2 for SW (R98). -/
def encode : Instr → Word
  | .add rd rs1 rs2 => packR 0x00 (arg rs2) (arg rs1) 0x0 (arg rd) 0x33
  | .sub rd rs1 rs2 => packR 0x20 (arg rs2) (arg rs1) 0x0 (arg rd) 0x33
  | .sll rd rs1 rs2 => packR 0x00 (arg rs2) (arg rs1) 0x1 (arg rd) 0x33
  | .xor rd rs1 rs2 => packR 0x00 (arg rs2) (arg rs1) 0x4 (arg rd) 0x33
  | .srl rd rs1 rs2 => packR 0x00 (arg rs2) (arg rs1) 0x5 (arg rd) 0x33
  | .sra rd rs1 rs2 => packR 0x20 (arg rs2) (arg rs1) 0x5 (arg rd) 0x33
  | .or rd rs1 rs2 => packR 0x00 (arg rs2) (arg rs1) 0x6 (arg rd) 0x33
  | .and rd rs1 rs2 => packR 0x00 (arg rs2) (arg rs1) 0x7 (arg rd) 0x33
  | .addi rd rs1 imm => packI (arg imm) (arg rs1) 0x0 (arg rd) 0x13
  | .lw rd rs1 imm => packI (arg imm) (arg rs1) 0x2 (arg rd) 0x03
  | .sw rs1 rs2 imm => packS (arg imm) (arg rs2) (arg rs1) 0x2 0x23
  | .lui rd imm20 => packU (arg imm20) (arg rd) 0x37
  | .auipc rd imm20 => packU (arg imm20) (arg rd) 0x17
  | .beq rs1 rs2 off => packB (arg off) (arg rs2) (arg rs1) 0x0 0x63
  | .bne rs1 rs2 off => packB (arg off) (arg rs2) (arg rs1) 0x1 0x63
  | .blt rs1 rs2 off => packB (arg off) (arg rs2) (arg rs1) 0x4 0x63
  | .bge rs1 rs2 off => packB (arg off) (arg rs2) (arg rs1) 0x5 0x63
  | .jal rd off => packJ (arg off) (arg rd) 0x6F
  | .jalr rd rs1 imm => packI (arg imm) (arg rs1) 0x0 (arg rd) 0x67

end Sys2Proof
end

