-- ==== Sys2Proof/Machine/Memory.lean ====
section
/-! DEFINITION. The byte array and its two operations (spec 20_memory.md R50 to R54). -/

namespace Sys2Proof.Machine

/-- What an address that is not listed reads as: memory is zero-filled at allocation (R68). -/
def Memory.unlisted : Byte := 0#8

/-- The byte at an address (R50). -/
def Memory.get : Memory → Nat → Byte
  | [], _ => Memory.unlisted
  | (k, b) :: rest, a => if k = a then b else Memory.get rest a

/-- Put a listed byte in front of a memory, unless it is what an unlisted address reads as. -/
def Memory.cons (a : Nat) (v : Byte) (m : Memory) : Memory :=
  if v = Memory.unlisted then m else (a, v) :: m

/-- `M[a] <- v`, keeping the canonical form. -/
def Memory.set : Memory → Nat → Byte → Memory
  | [], a, v => Memory.cons a v []
  | (k, b) :: rest, a, v =>
    if a < k then Memory.cons a v ((k, b) :: rest)
    else if a = k then Memory.cons a v rest
    else (k, b) :: Memory.set rest a v

/-- Every listed address is at least `lo`, the addresses rise strictly, and no listed byte is what
an unlisted address reads as. -/
def Memory.wfFrom : Nat → Memory → Bool
  | _, [] => true
  | lo, (k, b) :: rest => decide (lo ≤ k) && decide (b ≠ Memory.unlisted) && Memory.wfFrom (k + 1) rest

/-- The canonical form: equal memories are equal lists. -/
def Memory.wf (m : Memory) : Bool := Memory.wfFrom 0 m

/-- Every listed address lies in the byte array of `cap` bytes (R50). -/
def Memory.within (cap : Nat) (m : Memory) : Bool := m.all fun c => decide (c.1 < cap)

/-- `InBounds(addr)`: `addr + 4 <= MEM_CAPACITY`, the sum not wrapping (R52). -/
def inBounds (cap addr : Nat) : Bool := decide (addr + 4 ≤ cap)

/-- The word at four consecutive bytes, little-endian (R51). -/
def Memory.word (m : Memory) (addr : Nat) : Word :=
  wordOfBytes (m.get addr) (m.get (addr + 1)) (m.get (addr + 2)) (m.get (addr + 3))

/-- `MemRead(addr, 4)`: the word and `oob = 0`, or 0 and `oob = 1` (R53). -/
def Memory.read32 (m : Memory) (cap addr : Nat) : Word × Bool :=
  if inBounds cap addr then (m.word addr, false) else (0#32, true)

/-- Store consecutive bytes, the first at the lowest address. -/
def Memory.setBytes : Memory → Nat → List Byte → Memory
  | m, _, [] => m
  | m, a, b :: bs => Memory.setBytes (m.set a b) (a + 1) bs

/-- `MemWrite(addr, 4, v)`: four bytes little-endian and `oob = 0`, or no byte at all and
`oob = 1` (R54). -/
def Memory.write32 (m : Memory) (cap addr : Nat) (v : Word) : Memory × Bool :=
  if inBounds cap addr then (m.setBytes addr (bytesOfWord v), false) else (m, true)

end Sys2Proof.Machine
end

