-- ==== Sys2Proof/Machine/Ops.lean ====
section
/-! DEFINITION. The named operations over the state that every meaning and every phase of a step is
made of: registers, program counter, the memory port, the one operation that takes an error, and
the reset event. -/

namespace Sys2Proof.Machine

/-! ### Registers (R10, R22, R23) -/

/-- `x[i]`: index 0 reads 0 (R23). -/
def State.readReg (s : State) (i : RegIdx) : Word :=
  if i = 0#5 then 0#32 else s.regs[i.toNat]'(i.isLt)

/-- `x[i] <- v`: the write port with its zero-suppression (R22, R128). A discarded write pulses
`x0_write_dropped` (assumption 6). -/
def State.writeReg (s : State) (i : RegIdx) (v : Word) : State :=
  if i = 0#5 then { s with out := { s.out with x0WriteDropped := true } }
  else { s with regs := s.regs.set i.toNat v i.isLt }

/-! ### Program counter (R10, R25, R123) -/

/-- `pc <- t`. -/
def State.setPc (s : State) (t : Word) : State := { s with pc := t }

/-- The address of the instruction being executed. During execution `pc = pc_before + 4` (R25), so
it is `pc - 4`. DEDUCED (assumption 11): the temporary `pc_before` is not state (R33). -/
def State.pcBefore (s : State) : Word := s.pc - 4#32

/-! ### Memory port (R53, R54, R57) -/

/-- The capacity as a number of bytes. -/
def State.capacity (s : State) : Nat := s.cfg.memCapacity.val

/-- `MemRead(addr, 4)` at the present memory: value and out-of-bounds bit (R53). -/
def State.loadWord (s : State) (addr : Word) : Word × Bool :=
  s.mem.read32 s.capacity addr.toNat

/-- Put a transaction on the memory port; an out-of-bounds one also warns, `warn BoundsWarning`
(R12, R213). -/
def State.recordAccess (s : State) (a : MemAccess) : State :=
  { s with out := { s.out with memPort := s.out.memPort ++ [a], boundsWarn := s.out.boundsWarn || a.oob } }

/-- The state after the port has performed `MemRead(addr, 4)`: memory is unchanged (R53). -/
def State.portRead (s : State) (addr : Word) : State :=
  s.recordAccess
    { dir := .read, addr := addr, data := (s.loadWord addr).1, oob := (s.loadWord addr).2 }

/-- The state after the port has performed `MemWrite(addr, 4, v)` (R54). -/
def State.portWrite (s : State) (addr v : Word) : State :=
  { s with mem := (s.mem.write32 s.capacity addr.toNat v).1 }.recordAccess
    { dir := .write, addr := addr, data := v, oob := (s.mem.write32 s.capacity addr.toNat v).2 }

/-- Whether an access with this out-of-bounds bit raises ExecuteError(MemoryBounds): only under
`escalate` (R55, R56). -/
def State.escalates (s : State) (oob : Bool) : Bool :=
  oob && decide (s.cfg.boundsPolicy = .escalate)

/-! ### Errors (R12, R211, R212, R220) -/

/-- Set the status output (R133). -/
def State.withStatus (s : State) (st : StepStatus) : State :=
  { s with out := { s.out with stepStatus := st } }

/-- Taking an error, the one operation for DecodeError and ExecuteError (R12, R132): `error <- 1`
and the status code. There is no handler, no saved register and no mode change (R220); the step
ends here. There is no return from it (R222): only `State.resetEvent` clears the flag. -/
def State.raiseError (s : State) (st : StepStatus) : State :=
  { s with error := true }.withStatus st

/-- `raise DecodeError(w)` (R211). -/
def State.raiseDecodeError (s : State) : State := s.raiseError .decodeFail

/-- `raise ExecuteError(MemoryBounds)` (R212). -/
def State.raiseExecuteError (s : State) : State := s.raiseError .executeFail

/-! ### Phases of a step that need no instruction (R120) -/

/-- The pulses of an earlier step end and the port is quiet (R213: the warning is not sticky). -/
def State.clearPulses (s : State) : State :=
  { s with out := { s.out with boundsWarn := false, x0WriteDropped := false, memPort := [] } }

/-- The effect of a true halt test: `halted <- 1` (R122). -/
def State.setHalted (s : State) : State := { s with halted := true }

/-- Phase 3: `MemRead(pc, 4)`, then `pc <- pc + 4` (R123). -/
def State.afterFetch (s : State) : State := (s.portRead s.pc).setPc (s.pc + 4#32)

/-- Phase 6: an instruction that raised nothing is counted (R127). -/
def State.complete (s : State) : State :=
  if s.error then s else { s with instret := s.instret + 1 }.withStatus .ok

/-! ### Reset event (R36, R240, R242) -/

/-- The `rst` event: every piece of core state takes its reset value; memory and the configuration
are not touched (R240, R242). The outputs return to their values before any step, the status to ST_OK:
DESIGN CHOICE (assumption 5), since R35 gives `step_status`, the pulses and the port no value at reset.
-/
def State.resetEvent (s : State) : State :=
  { State.reset with cfg := s.cfg, mem := s.mem }

end Sys2Proof.Machine
end

