-- ==== Sys2Proof/Machine/Operands.lean ====
section
/-! DEFINITION. Operand forms: the values an instruction's fields stand for, and the decoder's
control signals (spec 30_encoding.md section 7). -/

namespace Sys2Proof.Machine

/-- DATA_OFFSET as an address; it fits in 32 bits (R6). -/
def State.dataBase (s : State) : Word := BitVec.ofNat 32 s.dataOffset

/-- `EA(base, imm) = (DATA_OFFSET + base + imm) mod 2^32` with `base = x[rs1]`, the one addressing
mode of LW and SW (R175). -/
def State.effAddr (s : State) (rs1 : RegIdx) (imm : BitVec 12) : Word :=
  s.dataBase + s.readReg rs1 + extend12 imm

/-- The return address `pc_before + 4` of JAL and JALR (R200, R201, R202). -/
def State.linkValue (s : State) : Word := s.pcBefore + 4#32

/-- The target `pc_before + imm_B` of a taken branch (R190). -/
def State.branchTarget (s : State) (off : BitVec 13) : Word := s.pcBefore + extend13 off

/-- The target `pc_before + imm_J` of JAL (R200). -/
def State.jalTarget (s : State) (off : BitVec 21) : Word := s.pcBefore + extend21 off

/-- The target of JALR: `x[rs1] + imm_I`, then bit 0 cleared (R201). -/
def State.jalrTarget (s : State) (rs1 : RegIdx) (imm : BitVec 12) : Word :=
  (s.readReg rs1 + extend12 imm) &&& 0xFFFFFFFE#32

/-- Where a writeback comes from (section 7, column "writeback source"). -/
inductive WbSource where
  | none | aluResult | sum | loaded | upper | link
deriving DecidableEq, Repr

/-- What the operation asks of memory after its fetch (section 7, column "memory"). -/
inductive MemUse where
  | none | read | write
deriving DecidableEq, Repr

/-- Which row of R26 an operation can select (section 7, column "pc source"). -/
inductive PcSource where
  | sequential | branch | jal | jalr
deriving DecidableEq, Repr

/-- The decoder's outputs for one operation (section 7). -/
structure Control where
  readsRs1 : Bool
  readsRs2 : Bool
  writeback : WbSource
  memory : MemUse
  pcSource : PcSource
deriving DecidableEq, Repr

/-- The table of section 7; it restates the instruction rules and no meaning reads it. -/
def control : Op → Control
  | .add | .sub | .sll | .xor | .srl | .sra | .or | .and => ⟨true, true, .aluResult, .none, .sequential⟩
  | .addi => ⟨true, false, .sum, .none, .sequential⟩
  | .lw => ⟨true, false, .loaded, .read, .sequential⟩
  | .sw => ⟨true, true, .none, .write, .sequential⟩
  | .lui => ⟨false, false, .upper, .none, .sequential⟩
  | .auipc => ⟨false, false, .sum, .none, .sequential⟩
  | .beq | .bne | .blt | .bge => ⟨true, true, .none, .none, .branch⟩
  | .jal => ⟨false, false, .link, .none, .jal⟩
  | .jalr => ⟨true, false, .link, .none, .jalr⟩

/-- The register an instruction writes back to: its rd field, if its format has one (R82, R128). -/
def dest? : Instr → Option RegIdx
  | .add rd _ _ => some rd
  | .sub rd _ _ => some rd
  | .sll rd _ _ => some rd
  | .xor rd _ _ => some rd
  | .srl rd _ _ => some rd
  | .sra rd _ _ => some rd
  | .or rd _ _ => some rd
  | .and rd _ _ => some rd
  | .addi rd _ _ => some rd
  | .lw rd _ _ => some rd
  | .sw _ _ _ => none
  | .lui rd _ => some rd
  | .auipc rd _ => some rd
  | .beq _ _ _ => none
  | .bne _ _ _ => none
  | .blt _ _ _ => none
  | .bge _ _ _ => none
  | .jal rd _ => some rd
  | .jalr rd _ _ => some rd

/-- The registers an instruction reads: its rs1 and rs2 fields, where section 7 says it reads them
(R21, R23). -/
def sources : Instr → List RegIdx
  | .add _ rs1 rs2 => [rs1, rs2]
  | .sub _ rs1 rs2 => [rs1, rs2]
  | .sll _ rs1 rs2 => [rs1, rs2]
  | .xor _ rs1 rs2 => [rs1, rs2]
  | .srl _ rs1 rs2 => [rs1, rs2]
  | .sra _ rs1 rs2 => [rs1, rs2]
  | .or _ rs1 rs2 => [rs1, rs2]
  | .and _ rs1 rs2 => [rs1, rs2]
  | .addi _ rs1 _ => [rs1]
  | .lw _ rs1 _ => [rs1]
  | .sw rs1 rs2 _ => [rs1, rs2]
  | .lui _ _ => []
  | .auipc _ _ => []
  | .beq rs1 rs2 _ => [rs1, rs2]
  | .bne rs1 rs2 _ => [rs1, rs2]
  | .blt rs1 rs2 _ => [rs1, rs2]
  | .bge rs1 rs2 _ => [rs1, rs2]
  | .jal _ _ => []
  | .jalr _ rs1 _ => [rs1]

/-- The address an instruction reads or writes a word of data at, in the state it executes in: LW
and SW alone do (R57, R175). -/
def dataAddr? (s : State) : Instr → Option Word
  | .add _ _ _ => none
  | .sub _ _ _ => none
  | .sll _ _ _ => none
  | .xor _ _ _ => none
  | .srl _ _ _ => none
  | .sra _ _ _ => none
  | .or _ _ _ => none
  | .and _ _ _ => none
  | .addi _ _ _ => none
  | .lw _ rs1 imm => some (s.effAddr rs1 imm)
  | .sw rs1 _ imm => some (s.effAddr rs1 imm)
  | .lui _ _ => none
  | .auipc _ _ => none
  | .beq _ _ _ => none
  | .bne _ _ _ => none
  | .blt _ _ _ => none
  | .bge _ _ _ => none
  | .jal _ _ => none
  | .jalr _ _ _ => none

/-- The address an instruction stores four bytes at, in the state it executes in: SW alone stores
(R57, R177). -/
def storeAddr? (s : State) : Instr → Option Word
  | .add _ _ _ => none
  | .sub _ _ _ => none
  | .sll _ _ _ => none
  | .xor _ _ _ => none
  | .srl _ _ _ => none
  | .sra _ _ _ => none
  | .or _ _ _ => none
  | .and _ _ _ => none
  | .addi _ _ _ => none
  | .lw _ _ _ => none
  | .sw rs1 _ imm => some (s.effAddr rs1 imm)
  | .lui _ _ => none
  | .auipc _ _ => none
  | .beq _ _ _ => none
  | .bne _ _ _ => none
  | .blt _ _ _ => none
  | .bge _ _ _ => none
  | .jal _ _ => none
  | .jalr _ _ _ => none

end Sys2Proof.Machine
end

