-- ==== Sys2Proof/Machine/Branch.lean ====
section
/-! DEFINITION. The conditional branches (spec 45_branch.md R190 to R194). -/

namespace Sys2Proof.Machine

/-- `if cond(x[rs1], x[rs2]): pc <- pc_before + imm_B`; otherwise `pc` keeps `pc_before + 4`
(R190). -/
def execBranch (c : Cond) (rs1 rs2 : RegIdx) (off : BitVec 13) (s : State) :
    Host.Outcome State Fault Refusal :=
  .next (if c.holds (s.readReg rs1) (s.readReg rs2) then s.setPc (s.branchTarget off) else s)

/-- R191. -/
def execBeq (rs1 rs2 : RegIdx) (off : BitVec 13) (s : State) : Host.Outcome State Fault Refusal :=
  execBranch .eq rs1 rs2 off s

/-- R192. -/
def execBne (rs1 rs2 : RegIdx) (off : BitVec 13) (s : State) : Host.Outcome State Fault Refusal :=
  execBranch .ne rs1 rs2 off s

/-- R193. -/
def execBlt (rs1 rs2 : RegIdx) (off : BitVec 13) (s : State) : Host.Outcome State Fault Refusal :=
  execBranch .lt rs1 rs2 off s

/-- R194. -/
def execBge (rs1 rs2 : RegIdx) (off : BitVec 13) (s : State) : Host.Outcome State Fault Refusal :=
  execBranch .ge rs1 rs2 off s

end Sys2Proof.Machine
end

