-- ==== Sys2Proof/Machine/Alu.lean ====
section
/-! DEFINITION. The ALU block (spec 41_alu_rtype.md R150 to R153): combinational, no state, no
flags. -/

namespace Sys2Proof.Machine

/-- The eight operations of R150. -/
inductive AluOp where
  | add | sub | and | or | xor | sll | srl | sra
deriving DecidableEq, Repr

/-- The shift amount: the low five bits of the second operand (R152). -/
def shiftAmount (b : Word) : Nat := (b.extractLsb' 0 5).toNat

/-- `execute(op, a, b) -> result` (R150); sums and differences wrap modulo 2^32 (R163). -/
def alu (op : AluOp) (a b : Word) : Word :=
  match op with
  | .add => a + b
  | .sub => a - b
  | .and => a &&& b
  | .or => a ||| b
  | .xor => a ^^^ b
  | .sll => a <<< shiftAmount b
  | .srl => a >>> shiftAmount b
  | .sra => a.sshiftRight (shiftAmount b)

/-- The four-bit select `alu_op` that the decoder drives for an operation (R151; D18). -/
def AluOp.code : AluOp → BitVec 4
  | .add => 0b0000#4
  | .sub => 0b1000#4
  | .sll => 0b0001#4
  | .xor => 0b0100#4
  | .srl => 0b0101#4
  | .sra => 0b1101#4
  | .or => 0b0110#4
  | .and => 0b0111#4

/-- The operation a select names, none for the eight unrecognised codes (R151, R153). -/
def aluSelect (code : BitVec 4) : Option AluOp :=
  if code = 0b0000#4 then some .add
  else if code = 0b1000#4 then some .sub
  else if code = 0b0001#4 then some .sll
  else if code = 0b0100#4 then some .xor
  else if code = 0b0101#4 then some .srl
  else if code = 0b1101#4 then some .sra
  else if code = 0b0110#4 then some .or
  else if code = 0b0111#4 then some .and
  else none

/-- The ALU as a block with its error output: an unrecognised select yields 0 and raises it
(R153). No instruction word leads to an unrecognised select and nothing reads the error output
(U2; assumption 26). -/
def aluBlock (code : BitVec 4) (a b : Word) : Word × Bool :=
  match aluSelect code with
  | some op => (alu op a b, false)
  | none => (0, true)

end Sys2Proof.Machine
end

