-- ==== Sys2Proof/Machine/Immediate.lean ====
section
/-! DEFINITION. ADDI (spec 42_addi.md R170, R171) and the upper-immediate instructions (spec
44_upper_imm.md R185, R186). -/

namespace Sys2Proof.Machine

/-- R170: `x[rd] <- x[rs1] + imm_I` mod 2^32; with rs1 = 0 the load-immediate idiom (R171). -/
def execAddi (rd rs1 : RegIdx) (imm : BitVec 12) (s : State) : Host.Outcome State Fault Refusal :=
  .next (s.writeReg rd (alu .add (s.readReg rs1) (extend12 imm)))

/-- R185: `x[rd] <- {imm20, 12'b0}`. -/
def execLui (rd : RegIdx) (imm20 : BitVec 20) (s : State) : Host.Outcome State Fault Refusal :=
  .next (s.writeReg rd (shiftUpper imm20))

/-- R186: `x[rd] <- pc_before + {imm20, 12'b0}` mod 2^32. -/
def execAuipc (rd : RegIdx) (imm20 : BitVec 20) (s : State) : Host.Outcome State Fault Refusal :=
  .next (s.writeReg rd (s.pcBefore + shiftUpper imm20))

end Sys2Proof.Machine
end

