-- ==== Sys2Proof/Machine/Jump.lean ====
section
/-! DEFINITION. The jumps (spec 46_jump.md R200 to R202). -/

namespace Sys2Proof.Machine

/-- R200: `x[rd] <- pc_before + 4`, `pc <- pc_before + imm_J`. -/
def execJal (rd : RegIdx) (off : BitVec 21) (s : State) : Host.Outcome State Fault Refusal :=
  .next ((s.writeReg rd s.linkValue).setPc (s.jalTarget off))

/-- R201: the target is taken from x[rs1] before the link is written (R130). -/
def execJalr (rd rs1 : RegIdx) (imm : BitVec 12) (s : State) : Host.Outcome State Fault Refusal :=
  .next ((s.writeReg rd s.linkValue).setPc (s.jalrTarget rs1 imm))

end Sys2Proof.Machine
end

