-- ==== Sys2Proof/Machine/LoadStore.lean ====
section
/-! DEFINITION. The word load and the word store (spec 43_load_store.md R175 to R177). -/

namespace Sys2Proof.Machine

/-- R176: read the word at the effective address; when the access escalates, ExecuteError and no
writeback; otherwise `x[rd] <- v`, 0 when out of bounds. -/
def execLw (rd rs1 : RegIdx) (imm : BitVec 12) (s : State) : Host.Outcome State Fault Refusal :=
  let addr := s.effAddr rs1 imm
  let r := s.loadWord addr
  let s1 := s.portRead addr
  if s.escalates r.2 then .next s1.raiseExecuteError else .next (s1.writeReg rd r.1)

/-- R177: write x[rs2] at the effective address; an out-of-bounds store changes no byte, and when it
escalates it is an ExecuteError. -/
def execSw (rs1 rs2 : RegIdx) (imm : BitVec 12) (s : State) : Host.Outcome State Fault Refusal :=
  let addr := s.effAddr rs1 imm
  let v := s.readReg rs2
  let s1 := s.portWrite addr v
  if s.escalates (s.mem.write32 s.capacity addr.toNat v).2 then .next s1.raiseExecuteError
  else .next s1

end Sys2Proof.Machine
end

