-- ==== Sys2Proof/Machine/RType.lean ====
section
/-! DEFINITION. The register-register instructions (spec 41_alu_rtype.md R154 to R162). A meaning is
phase 5 of a step: when it runs, `pc` already holds `pc_before + 4`. -/

namespace Sys2Proof.Machine

/-- `x[rd] <- ALU(op, x[rs1], x[rs2])`, both reads before the write (R154, R130). -/
def execAlu (op : AluOp) (rd rs1 rs2 : RegIdx) (s : State) : Host.Outcome State Fault Refusal :=
  .next (s.writeReg rd (alu op (s.readReg rs1) (s.readReg rs2)))

/-- R155. -/
def execAdd (rd rs1 rs2 : RegIdx) (s : State) : Host.Outcome State Fault Refusal :=
  execAlu .add rd rs1 rs2 s

/-- R156. -/
def execSub (rd rs1 rs2 : RegIdx) (s : State) : Host.Outcome State Fault Refusal :=
  execAlu .sub rd rs1 rs2 s

/-- R157. -/
def execSll (rd rs1 rs2 : RegIdx) (s : State) : Host.Outcome State Fault Refusal :=
  execAlu .sll rd rs1 rs2 s

/-- R158. -/
def execXor (rd rs1 rs2 : RegIdx) (s : State) : Host.Outcome State Fault Refusal :=
  execAlu .xor rd rs1 rs2 s

/-- R159. -/
def execSrl (rd rs1 rs2 : RegIdx) (s : State) : Host.Outcome State Fault Refusal :=
  execAlu .srl rd rs1 rs2 s

/-- R160. -/
def execSra (rd rs1 rs2 : RegIdx) (s : State) : Host.Outcome State Fault Refusal :=
  execAlu .sra rd rs1 rs2 s

/-- R161. -/
def execOr (rd rs1 rs2 : RegIdx) (s : State) : Host.Outcome State Fault Refusal :=
  execAlu .or rd rs1 rs2 s

/-- R162. -/
def execAnd (rd rs1 rs2 : RegIdx) (s : State) : Host.Outcome State Fault Refusal :=
  execAlu .and rd rs1 rs2 s

end Sys2Proof.Machine
end

