-- ==== Sys2Proof/Machine/Cycle.lean ====
section
/-! DEFINITION. The six phases of a step in their order (spec 40_step_cycle.md R120), and placing an
instruction where the next fetch finds it. -/

namespace Sys2Proof.Machine

/-- Phase 6 after phase 5 (R120, R127). -/
def finish (r : Host.Outcome State Fault Refusal) : Host.Outcome State Fault Refusal :=
  match r with
  | .next t => .next t.complete
  | .fault f => .fault f
  | .refused w => .refused w

/-- Phases 4 to 6 on a fetched word, in the state after the fetch (R125 to R127). -/
def decodeAndRun (w : Word) (s : State) : Host.Outcome State Fault Refusal :=
  match decode w with
  | .illegal _ => .next s.raiseDecodeError
  | .instr i => finish (exec i s)

/-- Phases 3 to 6, in a Running state whose halt test is false (R123, R124). -/
def fetchAndRun (s : State) : Host.Outcome State Fault Refusal :=
  let r := s.loadWord s.pc
  let s1 := s.afterFetch
  if s.escalates r.2 then .next s1.raiseExecuteError else decodeAndRun r.1 s1

/-- `Step` (R120): guard, halt test, fetch and increment, decode, execute, count. The order is that
of R219. An Errored machine holds its state and reports ST_REFUSED (R121; assumption 7). -/
def cycle (s : State) : Host.Outcome State Fault Refusal :=
  let s0 := s.clearPulses
  if s.error then .next (s0.withStatus .refused)
  else if s.halted then .next (s0.withStatus .halt)
  else if s.haltTest then .next (s0.setHalted.withStatus .halt)
  else fetchAndRun s0

/-- The configuration with its memory and its program long enough for a fetch at `pc`, where the
ranges of R5 allow one. -/
def coverFetch (c : Config) (pc : Nat) : Config :=
  if h : pc / 4 + 1 < 2 ^ 30 then
    { c with
      memCapacity := ⟨max c.memCapacity.val (pc + 4), by have := c.memCapacity.isLt; omega⟩
      instructionCount := ⟨max c.instructionCount.val (pc / 4 + 1), by
        have := c.instructionCount.isLt; omega⟩ }
  else c

/-- The address the next fetch is given: `pc`, or 0 where no program R5 allows reaches `pc`. -/
def fetchSlot (pc : Word) : Word := if pc.toNat / 4 + 1 < 2 ^ 30 then pc else 0#32

/-- The state whose very next step fetches and runs `w`: Running, the four bytes at `pc` holding
`w`, the program and the memory long enough to contain them (assumption 27). -/
def State.placeWord (s : State) (w : Word) : State :=
  let pc := fetchSlot s.pc
  { s with
    cfg := coverFetch s.cfg pc.toNat
    pc := pc
    halted := false
    error := false
    mem := s.mem.setBytes pc.toNat (bytesOfWord w) }

end Sys2Proof.Machine
end

