-- ==== Sys2Proof/Machine/Step.lean ====
section
/-! DEFINITION. One step of the machine (spec 40_step_cycle.md R120), and the state whose next step
runs a given instruction. -/

namespace Sys2Proof.Machine

/-- One step, R120. -/
def step (s : State) : Host.Outcome State Fault Refusal := cycle s

/-- `s` with the instruction whose bits are `w`, numbered as spec/opcode_table.json numbers them,
stored where `step` fetches next. It stands for the loader's work (R243; assumptions 3 and 27). -/
def State.withFetchWord (s : State) (nbits w : Nat) : State := s.placeWord (tableWord nbits w)

end Sys2Proof.Machine
end

