-- ==== Sys2Proof/Machine/Assembler.lean ====
section
/-! DEFINITION. The textual encoder: one parsed record to a word or a failure (spec
30_encoding.md R110 to R113, 10_state.md R24). Parsing the source text into records, and what the
loader does after a failure, are out of the spec's scope (00_scope.md R3 (a), R110). -/

namespace Sys2Proof.Machine

/-- One instruction record (R110). -/
structure Record where
  mnemonic : String
  operands : List String
  sourceLine : Int
  label : Option String
deriving DecidableEq, Repr

/-- The resolved label to address table (R110). Every address is a 32-bit pattern (R8). -/
abbrev SymbolTable := List (String × Word)

/-- Why the encoder fails (R112). -/
inductive EncodeError where
  /-- The mnemonic is unrecognized. -/
  | mnemonic
  /-- The operand count is wrong (R112, R229; assumption 18). -/
  | operandCount
  /-- A register name does not resolve. -/
  | register
  /-- An immediate exceeds its range. -/
  | range
  /-- An operand is no number, no memory operand, or neither a number nor a known label. DESIGN
  CHOICE (assumption 32): R112 and R229 list no such failure. -/
  | operand
deriving DecidableEq, Repr

/-! ### Numbers (R111; the prefix rules are PRESUMED, assumption 17) -/

/-- The value of a digit in a base up to 16. -/
def digit? (base : Nat) (c : Char) : Option Nat :=
  let n :=
    if '0' ≤ c ∧ c ≤ '9' then c.toNat - '0'.toNat
    else if 'a' ≤ c ∧ c ≤ 'f' then c.toNat - 'a'.toNat + 10
    else if 'A' ≤ c ∧ c ≤ 'F' then c.toNat - 'A'.toNat + 10
    else 16
  if n < base then some n else none

/-- The digits read so far have the value `acc`. -/
def digitsFrom (base acc : Nat) : List Char → Option Nat
  | [] => some acc
  | c :: cs =>
    match digit? base c with
    | some d => digitsFrom base (acc * base + d) cs
    | none => none

/-- A number is at least one digit. -/
def digits? (base : Nat) : List Char → Option Nat
  | [] => none
  | c :: cs => digitsFrom base 0 (c :: cs)

/-- `0x` or `0X` hexadecimal, a leading `0` octal, otherwise decimal (R111). -/
def magnitude? : List Char → Option Nat
  | '0' :: 'x' :: cs => digits? 16 cs
  | '0' :: 'X' :: cs => digits? 16 cs
  | '0' :: cs => digitsFrom 8 0 cs
  | cs => digits? 10 cs

/-- An optional leading sign (R111). -/
def signed? : List Char → Option Int
  | '-' :: cs => (magnitude? cs).map fun n => -(n : Int)
  | '+' :: cs => (magnitude? cs).map fun n => (n : Int)
  | cs => (magnitude? cs).map fun n => (n : Int)

/-- A number, optionally `#`-prefixed (R111). -/
def number? : List Char → Option Int
  | '#' :: cs => signed? cs
  | cs => signed? cs

/-! ### Registers (R24, R111) -/

/-- The standard names of the registers. PRESUMED (assumption 20): R24 takes this assignment from
general knowledge. -/
def abiNames : List (String × RegIdx) :=
  [("zero", 0), ("ra", 1), ("sp", 2), ("gp", 3), ("tp", 4), ("t0", 5), ("t1", 6), ("t2", 7),
    ("s0", 8), ("fp", 8), ("s1", 9), ("a0", 10), ("a1", 11), ("a2", 12), ("a3", 13), ("a4", 14),
    ("a5", 15)]
  ++ [("a6", 16), ("a7", 17), ("s2", 18), ("s3", 19), ("s4", 20), ("s5", 21), ("s6", 22),
    ("s7", 23), ("s8", 24), ("s9", 25), ("s10", 26), ("s11", 27), ("t3", 28), ("t4", 29),
    ("t5", 30), ("t6", 31)]

/-- The number after the `x` or `X` of a numeric name, 0 to 31 without a leading zero
(assumption 19). -/
def regNumber? (cs : List Char) : Option RegIdx :=
  match cs with
  | '0' :: _ :: _ => none
  | _ =>
    match digits? 10 cs with
    | some n => if n < 32 then some (BitVec.ofNat 5 n) else none
    | none => none

/-- A standard name, in any case (R111). -/
def abiReg? (cs : List Char) : Option RegIdx :=
  (abiNames.find? fun e => decide (e.1.toList = cs.map Char.toLower)).map (·.2)

/-- A register operand: a numeric name with the prefix `x` or `X`, or a standard name (R111). -/
def reg? : List Char → Option RegIdx
  | 'x' :: cs => regNumber? cs
  | 'X' :: cs => regNumber? cs
  | cs => abiReg? cs

/-- A memory operand `offset(register)` as its two parts (R111). -/
def memOperand? (cs : List Char) : Option (List Char × List Char) :=
  match cs.span (· ≠ '(') with
  | (off, '(' :: inner) =>
    if inner.getLast? = some ')' then some (off, inner.dropLast) else none
  | _ => none

/-! ### Operands and ranges (R111, R112) -/

def reg (s : String) : Except EncodeError RegIdx :=
  match reg? s.toList with
  | some r => .ok r
  | none => .error .register

/-- A number operand; text that is no number fails, DESIGN CHOICE (assumption 32). -/
def number (cs : List Char) : Except EncodeError Int :=
  match number? cs with
  | some n => .ok n
  | none => .error .operand

/-- -2048 .. 2047 (R112). -/
def imm12 (v : Int) : Except EncodeError (BitVec 12) :=
  if -2048 ≤ v ∧ v ≤ 2047 then .ok (BitVec.ofInt 12 v) else .error .range

/-- -524288 .. 524287; a negative value is stored as its low 20 bits (R112; D21). -/
def upper20 (v : Int) : Except EncodeError (BitVec 20) :=
  if -524288 ≤ v ∧ v ≤ 524287 then .ok (BitVec.ofInt 20 v) else .error .range

/-- -4096 .. 4094, bit 0 dropped (R112; D17). -/
def offset13 (v : Int) : Except EncodeError (BitVec 13) :=
  if -4096 ≤ v ∧ v ≤ 4094 then .ok (BitVec.ofInt 13 v &&& 0x1FFE#13) else .error .range

/-- -1048576 .. 1048574, bit 0 dropped (R112; D17). -/
def offset21 (v : Int) : Except EncodeError (BitVec 21) :=
  if -1048576 ≤ v ∧ v ≤ 1048574 then .ok (BitVec.ofInt 21 v &&& 0x1FFFFE#21) else .error .range

/-- `offset(register)` (R111); text of another shape fails, DESIGN CHOICE (assumption 32). -/
def memOperand (s : String) : Except EncodeError (BitVec 12 × RegIdx) :=
  match memOperand? s.toList with
  | none => .error .operand
  | some (off, r) =>
    match reg? r with
    | none => .error .register
    | some b =>
      match number? off with
      | none => .error .operand
      | some n => (imm12 n).map fun i => (i, b)

/-- A target: a number is the byte offset itself, a label means its address minus the
instruction's own (R111; D17, assumption 21), modulo 2^32 as R8 has it for 32-bit patterns. Its
signed reading is the byte offset whose range R112 checks. DESIGN CHOICE (assumption 32): text that is neither a number nor a known label fails. -/
def target (tab : SymbolTable) (here : Word) (s : String) : Except EncodeError Int :=
  match number? s.toList with
  | some n => .ok n
  | none =>
    match tab.find? fun e => decide (e.1 = s) with
    | some e => .ok (e.2 - here).toInt
    | none => .error .operand

/-! ### Operand forms (R111) -/

def formR (make : RegIdx → RegIdx → RegIdx → Instr) : List String → Except EncodeError Instr
  | [rd, rs1, rs2] => do return make (← reg rd) (← reg rs1) (← reg rs2)
  | _ => .error .operandCount

/-- `rd, offset(rs1)`, or `rs2, offset(rs1)` for the store. -/
def formMem (make : RegIdx → RegIdx → BitVec 12 → Instr) : List String → Except EncodeError Instr
  | [r, mem] => do
    let x ← reg r
    let m ← memOperand mem
    return make x m.2 m.1
  | _ => .error .operandCount

def formU (make : RegIdx → BitVec 20 → Instr) : List String → Except EncodeError Instr
  | [rd, imm] => do
    let x ← reg rd
    return make x (← upper20 (← number imm.toList))
  | _ => .error .operandCount

def formB (tab : SymbolTable) (here : Word) (make : RegIdx → RegIdx → BitVec 13 → Instr) :
    List String → Except EncodeError Instr
  | [rs1, rs2, t] => do
    let x ← reg rs1
    let y ← reg rs2
    return make x y (← offset13 (← target tab here t))
  | _ => .error .operandCount

def formAddi : List String → Except EncodeError Instr
  | [rd, rs1, imm] => do
    let x ← reg rd
    let y ← reg rs1
    return .addi x y (← imm12 (← number imm.toList))
  | _ => .error .operandCount

/-- The load-immediate idiom: ADDI with rs1 = 0 (R113, R171). -/
def formLi : List String → Except EncodeError Instr
  | [rd, imm] => do
    let x ← reg rd
    return .addi x 0 (← imm12 (← number imm.toList))
  | _ => .error .operandCount

def formJal (tab : SymbolTable) (here : Word) : List String → Except EncodeError Instr
  | [rd, t] => do
    let x ← reg rd
    return .jal x (← offset21 (← target tab here t))
  | _ => .error .operandCount

/-- The instruction a record stands for, at the address `here` (R111). Mnemonics are lower case
(assumption 17). -/
def assemble (tab : SymbolTable) (here : Word) (r : Record) : Except EncodeError Instr :=
  if r.mnemonic = "add" then formR .add r.operands
  else if r.mnemonic = "sub" then formR .sub r.operands
  else if r.mnemonic = "sll" then formR .sll r.operands
  else if r.mnemonic = "xor" then formR .xor r.operands
  else if r.mnemonic = "srl" then formR .srl r.operands
  else if r.mnemonic = "sra" then formR .sra r.operands
  else if r.mnemonic = "or" then formR .or r.operands
  else if r.mnemonic = "and" then formR .and r.operands
  else if r.mnemonic = "addi" then formAddi r.operands
  else if r.mnemonic = "li" then formLi r.operands
  else if r.mnemonic = "lw" then formMem .lw r.operands
  else if r.mnemonic = "sw" then formMem (fun rs2 rs1 imm => .sw rs1 rs2 imm) r.operands
  else if r.mnemonic = "jalr" then formMem .jalr r.operands
  else if r.mnemonic = "lui" then formU .lui r.operands
  else if r.mnemonic = "auipc" then formU .auipc r.operands
  else if r.mnemonic = "beq" then formB tab here .beq r.operands
  else if r.mnemonic = "bne" then formB tab here .bne r.operands
  else if r.mnemonic = "blt" then formB tab here .blt r.operands
  else if r.mnemonic = "bge" then formB tab here .bge r.operands
  else if r.mnemonic = "jal" then formJal tab here r.operands
  else .error .mnemonic

/-- The encoder: a word, or 0 and an error signal (R110). -/
def encodeRecord (tab : SymbolTable) (here : Word) (r : Record) : Word × Bool :=
  match assemble tab here r with
  | .ok i => (encode i, false)
  | .error _ => (0, true)

/-- The encoder over a program, the record of index i standing at address 4*i (R61, R243). -/
def encodeProgram (tab : SymbolTable) (records : List Record) : List (Word × Bool) :=
  records.mapIdx fun i r => encodeRecord tab (BitVec.ofNat 32 (4 * i)) r

end Sys2Proof.Machine
end

