-- ==== Sys2Proof/Machine/Loader.lean ====
section
/-! DEFINITION. What the loader hands the core (spec 20_memory.md R61, R62, R68;
70_reset_and_hazards.md R243, R244): the memory image and the state a run starts from. -/

namespace Sys2Proof.Machine

/-- One static-data entry, `{ label?, word_value, byte_offset }` (R62). The core never sees the
label (R34). -/
structure StaticDatum where
  label : Option String
  value : Word
  offset : Word
deriving DecidableEq, Repr

/-- Program word i at address `a + 4*i`; a word that does not fit is not stored (R68). -/
def loadProgram (cap : Nat) : Memory → Nat → List Word → Memory
  | m, _, [] => m
  | m, a, w :: ws => loadProgram cap (m.write32 cap a w).1 (a + 4) ws

/-- Every entry at `base + byte_offset`, in load order; one that does not fit is not stored (R62,
R68, R244). DEDUCED (assumption 16): the sum does not wrap. -/
def loadData (cap base : Nat) : Memory → List StaticDatum → Memory
  | m, [] => m
  | m, d :: ds => loadData cap base (m.write32 cap (base + d.offset.toNat) d.value).1 ds

/-- The memory image: zero-filled, then the program, then the static data (R68, R243). -/
def loadImage (cfg : Config) (program : List Word) (data : List StaticDatum) : Memory :=
  loadData cfg.memCapacity.val (4 * cfg.instructionCount.val)
    (loadProgram cfg.memCapacity.val [] 0 program) data

/-- The state before the first step: configuration set, image loaded, core reset (R243). -/
def boot (cfg : Config) (program : List Word) (data : List StaticDatum) : State :=
  { State.reset with cfg := cfg, mem := loadImage cfg program data }.resetEvent

/-- The requirements of R244 on the image that concern its size: the program fits, every static
entry fits, and INSTRUCTION_COUNT is the number of program words. -/
def imageFits (cfg : Config) (program : List Word) (data : List StaticDatum) : Bool :=
  decide (4 * cfg.instructionCount.val ≤ cfg.memCapacity.val)
    && (data.all fun d => inBounds cfg.memCapacity.val (4 * cfg.instructionCount.val + d.offset.toNat))
    && decide (program.length = cfg.instructionCount.val)

end Sys2Proof.Machine
end

