-- ==== Sys2Proof/Machine/Run.lean ====
section
/-! DEFINITION. What stands around a step: the run loop (spec 40_step_cycle.md R135 to R137), the
reset and step inputs (10_state.md R35, 70_reset_and_hazards.md R240), and the read-only snapshot
(10_state.md R31, 60_exceptions.md R228). -/

namespace Sys2Proof.Machine

/-- How a run ends (R137). -/
inductive RunResult where
  /-- RUN_HALTED: normal termination. -/
  | halted
  /-- RUN_FAILED: a fatal run failure. -/
  | failed
  /-- RUN_CEILING: the instruction-count ceiling, a warning. -/
  | ceiling
deriving DecidableEq, Repr

/-- The codes of R137. -/
def RunResult.code : RunResult → Nat
  | .halted => 0
  | .failed => 1
  | .ceiling => 2

/-- The condition of the run loop: Running, and the counter below STEP_CEILING (R135). -/
def State.mayStep (s : State) : Bool := s.running && decide (s.instret < s.cfg.stepCeiling)

/-- The result of a run whose loop has ended (R135, R136). -/
def State.runResult (s : State) : RunResult :=
  if s.error then .failed else if s.halted then .halted else .ceiling

/-- Whether the last step reported a failure (R133, R135). -/
def State.stepFailed (s : State) : Bool :=
  decide (s.out.stepStatus = .decodeFail) || decide (s.out.stepStatus = .executeFail)

/-- The run loop with at most `fuel` iterations (R135). -/
def runFuel : Nat → State → Host.Outcome (State × RunResult) Fault Refusal
  | 0, s => .next (s, s.runResult)
  | fuel + 1, s =>
    if s.mayStep then
      match step s with
      | .next t => if t.stepFailed then .next (t, .failed) else runFuel fuel t
      | .fault f => .fault f
      | .refused r => .refused r
    else .next (s, s.runResult)

/-- Iterations the loop can need: each one counts an instruction or is the last (R127, R135). -/
def State.runBound (s : State) : Nat := s.cfg.stepCeiling - s.instret + 1

/-- `Run` (R135). -/
def run (s : State) : Host.Outcome (State × RunResult) Fault Refusal := runFuel s.runBound s

/-- One tick of the core's inputs (R35): `rst` resets it, else `step_en` steps it, else it keeps its
state and its pulses end (R218, R227, R240; assumption 23). -/
def tick (rst stepEn : Bool) (s : State) : Host.Outcome State Fault Refusal :=
  if rst then .next s.resetEvent else if stepEn then step s else .next s.clearPulses

/-- The read-only snapshot (R31). -/
structure Snapshot where
  regs : List Word
  pc : Word
  halted : Bool
  error : Bool
  instructionsExecuted : Nat
deriving DecidableEq, Repr

/-- The snapshot of a state; a pure read (R31, R228). -/
def State.snapshot (s : State) : Snapshot :=
  { regs := (List.range 32).map fun n => s.readReg (BitVec.ofNat 5 n)
    pc := s.pc
    halted := s.halted
    error := s.error
    instructionsExecuted := s.instret }

/-- `dbg_reg_data` for `dbg_reg_index` (R35). -/
def State.dbgReg (s : State) (index : RegIdx) : Word := s.readReg index

end Sys2Proof.Machine
end

