-- ==== Sys2Proof/Safety.lean ====
section
/-! DEFINITION. What claims call a good state and a run: the invariants of the machine (spec
10_state.md R22, R25, R28; 20_memory.md R50) and the states steps reach. -/

namespace Sys2Proof.Machine

/-- Bit 0 of `pc` is 0 (R25). -/
def State.pcEven (s : State) : Bool := !s.pc.getLsbD 0

/-- `halted` and `error` are not both set (R28). -/
def State.flagsExclusive (s : State) : Bool := !(s.halted && s.error)

/-- The storage behind x[0] holds 0, so that a look past the read port sees the hard-wired value
(R22, R36). -/
def State.zeroHeld (s : State) : Bool := decide (s.regs[0] = 0)

/-- Memory is in canonical form and lists no address outside the byte array (R50). -/
def State.memGood (s : State) : Bool := s.mem.wf && s.mem.within s.capacity

/-- The invariant of the machine: every step keeps it, and reset and every loaded image have it. -/
def State.inv (s : State) : Bool := s.pcEven && s.flagsExclusive && s.zeroHeld && s.memGood

/-- A good state: Running or normally Halted, never Errored (R27). -/
def State.safe (s : State) : Bool := !s.error

/-- The states that steps reach from `s`. -/
inductive Reaches (s : State) : State → Prop where
  | start : Reaches s s
  | step {t u : State} : Reaches s t → Sys2Proof.Machine.step t = .next u → Reaches s u

end Sys2Proof.Machine
end

