-- ==== Sys2Proof/Certificates/Slice0/Obligations.lean ====
section
/-! DEFINITION. The statements for the provers. A statement about one instruction says: which words
decode to it, the form the textual encoder accepts for it, that `exec` answers a next state, what that
state holds, and what it leaves unchanged. `exec` is phase 5: it starts with `pc = pc_before + 4`. -/

namespace Sys2Proof.Claims
open Sys2Proof.Machine

/-! ### What a step or an instruction leaves unchanged -/

/-- Every register reads as before. -/
def SameRegs (s t : State) : Prop := ∀ r : RegIdx, t.readReg r = s.readReg r

/-- `x[rd] <- v` and no other register: with rd = 0 no register changes (R22). -/
def Wrote (s t : State) (rd : RegIdx) (v : Word) : Prop :=
  ∀ r : RegIdx, t.readReg r = if r = rd ∧ rd ≠ 0#5 then v else s.readReg r

/-- The flags, the counter and the configuration are as before. -/
def SameFlags (s t : State) : Prop :=
  t.halted = s.halted ∧ t.error = s.error ∧ t.instret = s.instret ∧ t.cfg = s.cfg

/-- Every byte of memory reads as before. -/
def SameMem (s t : State) : Prop := ∀ a : Nat, t.mem.get a = s.mem.get a

/-- Every byte outside the four at `addr` reads as before. -/
def SameMemOutside (s t : State) (addr : Nat) : Prop :=
  ∀ a : Nat, a < addr ∨ addr + 4 ≤ a → t.mem.get a = s.mem.get a

/-- The memory port was not used, nothing was warned of, the status output stands. -/
def SameOutputs (s t : State) : Prop :=
  t.out.memPort = s.out.memPort ∧ t.out.boundsWarn = s.out.boundsWarn ∧
    t.out.stepStatus = s.out.stepStatus

/-- All that an instruction without a memory access leaves unchanged beside registers and `pc`. -/
def OnlyRegsAndPc (s t : State) : Prop := SameFlags s t ∧ SameMem s t ∧ SameOutputs s t

/-! ### Results, computed on numbers rather than by the model's ALU (R150, R152) -/

def sumOf (a b : Word) : Word := BitVec.ofNat 32 (a.toNat + b.toNat)
def differenceOf (a b : Word) : Word := BitVec.ofInt 32 (a.toInt - b.toInt)
def leftShiftOf (a b : Word) : Word := BitVec.ofNat 32 (a.toNat * 2 ^ (b.toNat % 32))
def rightShiftOf (a b : Word) : Word := BitVec.ofNat 32 (a.toNat / 2 ^ (b.toNat % 32))
def signedRightShiftOf (a b : Word) : Word := BitVec.ofInt 32 (a.toInt / 2 ^ (b.toNat % 32))
def conjunctionOf (a b : Word) : Word := BitVec.ofNat 32 (a.toNat &&& b.toNat)
def disjunctionOf (a b : Word) : Word := BitVec.ofNat 32 (a.toNat ||| b.toNat)
def exclusiveOrOf (a b : Word) : Word := BitVec.ofNat 32 (a.toNat ^^^ b.toNat)

/-- The word of four bytes, `b0` at the lowest address (R51), as a number. -/
def wordOf (b0 b1 b2 b3 : Byte) : Word :=
  BitVec.ofNat 32 (b0.toNat + 2 ^ 8 * b1.toNat + 2 ^ 16 * b2.toNat + 2 ^ 24 * b3.toNat)

/-- The word that memory holds at `a` (R51). -/
def wordAt (m : Memory) (a : Nat) : Word :=
  wordOf (m.get a) (m.get (a + 1)) (m.get (a + 2)) (m.get (a + 3))

/-- Memory holds the word `v` at `a`: byte k is bits 8k+7 to 8k of `v` (R51, R54). -/
def Holds (m : Memory) (a : Nat) (v : Word) : Prop :=
  ∀ k < 4, (m.get (a + k)).toNat = v.toNat / 2 ^ (8 * k) % 2 ^ 8

/-- The address of an access is in bounds, the sum not wrapping (R52). -/
def Fits (s : State) (addr : Word) : Prop := addr.toNat + 4 ≤ s.cfg.memCapacity.val

/-- The port transaction of a read of `addr` in the state `s` (R53). -/
def readAccess (s : State) (addr : Word) : MemAccess :=
  if s.cfg.memCapacity.val < addr.toNat + 4 then ⟨.read, addr, 0#32, true⟩
  else ⟨.read, addr, wordAt s.mem addr.toNat, false⟩

/-- The port transaction of a write of `v` at `addr` in the state `s` (R54). -/
def writeAccess (s : State) (addr v : Word) : MemAccess :=
  ⟨.write, addr, v, decide (s.cfg.memCapacity.val < addr.toNat + 4)⟩

/-! ### A step that fetches -/

/-- The state is Running and its halt test is false (R27, R122). -/
def Active (s : State) : Prop :=
  s.error = false ∧ s.halted = false ∧ s.pc.toNat < 4 * s.cfg.instructionCount.val ∧
    s.pc.toNat < s.cfg.memCapacity.val

/-- The word a step of `s` hands its decoder: 0 when the fetch is out of bounds (R53, R57). -/
def fetched (s : State) : Word :=
  if s.cfg.memCapacity.val < s.pc.toNat + 4 then 0#32 else wordAt s.mem s.pc.toNat

/-- A step of `s` fetches `w` from inside memory (R123). -/
def Fetches (s : State) (w : Word) : Prop := Active s ∧ Fits s s.pc ∧ w = wordAt s.mem s.pc.toNat

/-! ### The forms the textual encoder accepts (R111) -/

def TextR (name : String) (mk : RegIdx → RegIdx → RegIdx → Instr) : Prop :=
  ∀ (tab : SymbolTable) (here : Word) (a b c : String) (line : Int) (label : Option String)
    (rd rs1 rs2 : RegIdx),
    reg? a.toList = some rd → reg? b.toList = some rs1 → reg? c.toList = some rs2 →
    encodeRecord tab here ⟨name, [a, b, c], line, label⟩ = (encode (mk rd rs1 rs2), false)

def TextMem (name : String) (mk : RegIdx → RegIdx → BitVec 12 → Instr) : Prop :=
  ∀ (tab : SymbolTable) (here : Word) (a m : String) (line : Int) (label : Option String)
    (r base : RegIdx) (off breg : List Char) (v : Int),
    reg? a.toList = some r → memOperand? m.toList = some (off, breg) → number? off = some v →
    reg? breg = some base → -2048 ≤ v → v ≤ 2047 →
    encodeRecord tab here ⟨name, [a, m], line, label⟩
      = (encode (mk r base (BitVec.ofInt 12 v)), false)

def TextU (name : String) (mk : RegIdx → BitVec 20 → Instr) : Prop :=
  ∀ (tab : SymbolTable) (here : Word) (a n : String) (line : Int) (label : Option String)
    (rd : RegIdx) (v : Int),
    reg? a.toList = some rd → number? n.toList = some v → -524288 ≤ v → v ≤ 524287 →
    encodeRecord tab here ⟨name, [a, n], line, label⟩
      = (encode (mk rd (BitVec.ofInt 20 v)), false)

/-- A byte offset, as a number, or else as a label: its address minus the instruction's own, a difference
of 32-bit patterns (R8) read as signed (R111, R112; D17, assumption 21). -/
def TargetIs (tab : SymbolTable) (here : Word) (t : String) (v : Int) : Prop :=
  number? t.toList = some v ∨
    (number? t.toList = none ∧
      ∃ e, (tab.find? fun e => decide (e.1 = t)) = some e ∧ v = (e.2 - here).toInt)

def TextB (name : String) (mk : RegIdx → RegIdx → BitVec 13 → Instr) : Prop :=
  ∀ (tab : SymbolTable) (here : Word) (a b t : String) (line : Int) (label : Option String)
    (rs1 rs2 : RegIdx) (v : Int),
    reg? a.toList = some rs1 → reg? b.toList = some rs2 → TargetIs tab here t v → v % 2 = 0 →
    -4096 ≤ v → v ≤ 4094 →
    encodeRecord tab here ⟨name, [a, b, t], line, label⟩
      = (encode (mk rs1 rs2 (BitVec.ofInt 13 v)), false)

/-! ### Instruction claims -/

/-- What R154 and a rule of R155 to R162 say of one register-register instruction. -/
def AluClaim (mk : RegIdx → RegIdx → RegIdx → Instr) (name : String) (mask bits canonical : Word)
    (f : Word → Word → Word) : Prop :=
  (∀ w : Word, w &&& mask = bits → decode w = .instr (mk (rdOf w) (rs1Of w) (rs2Of w))) ∧
  (∀ rd rs1 rs2, encode (mk rd rs1 rs2) &&& 0xFE00707F#32 = canonical) ∧
  TextR name mk ∧
  (∀ (rd rs1 rs2 : RegIdx) (s : State), ∃ t, exec (mk rd rs1 rs2) s = .next t ∧
    Wrote s t rd (f (s.readReg rs1) (s.readReg rs2)) ∧ t.pc = s.pc ∧ OnlyRegsAndPc s t)

/-- What R190 and a rule of R191 to R194 say of one branch. -/
def BranchClaim (mk : RegIdx → RegIdx → BitVec 13 → Instr) (name : String) (bits : Word)
    (cond : Word → Word → Prop) : Prop :=
  (∀ w : Word, w &&& 0x0000707F#32 = bits → decode w = .instr (mk (rs1Of w) (rs2Of w) (immBBits w))) ∧
  TextB name mk ∧
  (∀ (rs1 rs2 : RegIdx) (off : BitVec 13) (pcBefore : Word) (s : State), s.pc = pcBefore + 4#32 →
    ∃ t, exec (mk rs1 rs2 off) s = .next t ∧
      (cond (s.readReg rs1) (s.readReg rs2) → t.pc = pcBefore + BitVec.ofInt 32 off.toInt) ∧
      (¬ cond (s.readReg rs1) (s.readReg rs2) → t.pc = pcBefore + 4#32) ∧
      SameRegs s t ∧ OnlyRegsAndPc s t)

/-- What a step that fails leaves (R132). -/
def FailedFrom (s t : State) : Prop :=
  t.error = true ∧ t.halted = false ∧ t.pc = s.pc + 4#32 ∧ SameRegs s t ∧ SameMem s t ∧
    t.instret = s.instret ∧ t.cfg = s.cfg

/-- An ExecuteError(MemoryBounds) of LW or SW in phase 5 (R212, R132): `pc` already stands at
`pc_before + 4`. -/
def RaisedFrom (s t : State) : Prop :=
  t.error = true ∧ t.halted = s.halted ∧ t.pc = s.pc ∧ SameRegs s t ∧ SameMem s t ∧
    t.instret = s.instret ∧ t.cfg = s.cfg ∧ t.out.stepStatus = .executeFail ∧
    t.out.boundsWarn = true

/-- The access of a decoded instruction that is out of bounds, if it makes one (R57). -/
def AccessFails (s : State) (i : Instr) : Prop := ∃ a, dataAddr? s i = some a ∧ ¬ Fits s a

/-- The data accesses of a step whose decoder answers a verdict: one read for LW, one write for SW,
none otherwise (R57, R129). -/
def dataAccesses (s : State) : Verdict → List MemAccess
  | .instr (.lw _ rs1 imm) => [readAccess s (s.effAddr rs1 imm)]
  | .instr (.sw rs1 rs2 imm) => [writeAccess s (s.effAddr rs1 imm) (s.readReg rs2)]
  | _ => []

/-- The status code of a step (R133), by the phase that ends it (R219). -/
def expectedStatus (s : State) (code : BitVec 3) : Prop :=
  (s.error = true ∧ code = 4#3) ∨
  (s.error = false ∧ s.halted = true ∧ code = 1#3) ∨
  (s.error = false ∧ s.halted = false ∧ ¬ Active s ∧ code = 1#3) ∨
  (Active s ∧ s.cfg.boundsPolicy = .escalate ∧ ¬ Fits s s.pc ∧ code = 3#3) ∨
  (Active s ∧ (s.cfg.boundsPolicy = .warnNoop ∨ Fits s s.pc) ∧
    (∃ why, decode (fetched s) = .illegal why) ∧ code = 2#3) ∨
  (Active s ∧ (s.cfg.boundsPolicy = .warnNoop ∨ Fits s s.pc) ∧
    ∃ i, decode (fetched s) = .instr i ∧
      ((s.cfg.boundsPolicy = .escalate ∧ AccessFails s i ∧ code = 3#3) ∨
        ((s.cfg.boundsPolicy = .warnNoop ∨ ¬ AccessFails s i) ∧ code = 0#3)))

/-- The value `pc` holds after an instruction, rows 5 to 8 of R26. -/
def pcAfter (s : State) : Instr → Word
  | .jal _ off => s.pc + BitVec.ofInt 32 off.toInt
  | .jalr _ rs1 imm =>
    let t := s.readReg rs1 + BitVec.ofInt 32 imm.toInt
    t - BitVec.ofNat 32 (t.toNat % 2)
  | .beq rs1 rs2 off =>
    if s.readReg rs1 = s.readReg rs2 then s.pc + BitVec.ofInt 32 off.toInt else s.pc + 4#32
  | .bne rs1 rs2 off =>
    if s.readReg rs1 ≠ s.readReg rs2 then s.pc + BitVec.ofInt 32 off.toInt else s.pc + 4#32
  | .blt rs1 rs2 off =>
    if (s.readReg rs1).toInt < (s.readReg rs2).toInt then s.pc + BitVec.ofInt 32 off.toInt
    else s.pc + 4#32
  | .bge rs1 rs2 off =>
    if (s.readReg rs2).toInt ≤ (s.readReg rs1).toInt then s.pc + BitVec.ofInt 32 off.toInt
    else s.pc + 4#32
  | .add _ _ _ | .sub _ _ _ | .sll _ _ _ | .xor _ _ _ | .srl _ _ _ | .sra _ _ _ | .or _ _ _
  | .and _ _ _ | .addi _ _ _ | .lw _ _ _ | .sw _ _ _ | .lui _ _ | .auipc _ _ => s.pc + 4#32

/-- The byte offset of a transfer relative to its own address (R202). -/
def relativeTarget? : Instr → Option Int
  | .beq _ _ off => some off.toInt
  | .bne _ _ off => some off.toInt
  | .blt _ _ off => some off.toInt
  | .bge _ _ off => some off.toInt
  | .jal _ off => some off.toInt
  | .add _ _ _ | .sub _ _ _ | .sll _ _ _ | .xor _ _ _ | .srl _ _ _ | .sra _ _ _ | .or _ _ _
  | .and _ _ _ | .addi _ _ _ | .lw _ _ _ | .sw _ _ _ | .lui _ _ | .auipc _ _ | .jalr _ _ _ => none

/-! ### The control signals of an instruction's word (30_encoding.md section 7) -/

/-- The registers the columns "reads rs1" and "reads rs2" name. -/
def readPorts (i : Instr) : List RegIdx :=
  (if (control i.op).readsRs1 then [rs1Of (encode i)] else []) ++
    (if (control i.op).readsRs2 then [rs2Of (encode i)] else [])

/-- The ALU's select for a word the encoder wrote: bit 30 and funct3 (R151; the spec's D18). -/
def selectOf (w : Word) : BitVec 4 := w.extractLsb' 30 1 ++ funct3Of w

/-- The value of the column "writeback source", from the fields of the instruction's word. -/
def writebackValue (s : State) (pcBefore : Word) (i : Instr) : Word :=
  let w := encode i
  match (control i.op).writeback with
  | .none => 0#32
  | .aluResult => (aluBlock (selectOf w) (s.readReg (rs1Of w)) (s.readReg (rs2Of w))).1
  | .sum => if (control i.op).readsRs1 then s.readReg (rs1Of w) + immI w else pcBefore + immU w
  | .loaded => (readAccess s (s.effAddr (rs1Of w) (immIBits w))).data
  | .upper => immU w
  | .link => pcBefore + 4#32

/-- The comparison of a branch with this funct3 (R191 to R194). -/
def branchHolds (f3 : BitVec 3) (a b : Word) : Bool :=
  if f3 = 0#3 then decide (a = b) else if f3 = 1#3 then decide (a ≠ b)
  else if f3 = 4#3 then decide (a.toInt < b.toInt) else decide (b.toInt ≤ a.toInt)

/-- The value of the column "pc source", rows 5 to 8 of R26. -/
def chosenPc (s : State) (pcBefore : Word) (i : Instr) : Word :=
  let w := encode i
  match (control i.op).pcSource with
  | .sequential => pcBefore + 4#32
  | .branch =>
    if branchHolds (funct3Of w) (s.readReg (rs1Of w)) (s.readReg (rs2Of w)) then pcBefore + immB w
    else pcBefore + 4#32
  | .jal => pcBefore + immJ w
  | .jalr => (s.readReg (rs1Of w) + immI w) &&& 0xFFFFFFFE#32

/-- Byte `a` is one of the four at `addr`, and a word fits there in `cap` bytes. -/
def Covers (cap addr a : Nat) : Prop := addr ≤ a ∧ a < addr + 4 ∧ addr + 4 ≤ cap

/-- The mnemonics of R111. -/
def mnemonics : List String :=
  ["add", "sub", "sll", "xor", "srl", "sra", "or", "and", "addi", "li"]
  ++ ["lw", "sw", "jalr", "lui", "auipc", "beq", "bne", "blt", "bge", "jal"]

/-- The operands each mnemonic needs (R111). -/
def operandsNeeded (m : String) : Nat :=
  if m ∈ ["li", "lw", "sw", "jalr", "lui", "auipc", "jal"] then 2 else 3

end Sys2Proof.Claims

open Sys2Proof Sys2Proof.Machine Sys2Proof.Claims

/-! ### The codec -/

/-- Words written out from the encodings of R95 (vectors V-ENC) decode to their instructions. -/
def Obligations.SpecWordsDecode : Prop :=
  decode 0x002081B3#32 = .instr (.add 3#5 1#5 2#5) ∧
  decode 0x407352B3#32 = .instr (.sra 5#5 6#5 7#5) ∧
  decode 0xFFF08093#32 = .instr (.addi 1#5 1#5 0xFFF#12) ∧
  decode 0xFFC12303#32 = .instr (.lw 6#5 2#5 0xFFC#12) ∧
  decode 0xFE112E23#32 = .instr (.sw 2#5 1#5 0xFFC#12) ∧
  decode 0x12345537#32 = .instr (.lui 10#5 0x12345#20) ∧
  decode 0xFE009CE3#32 = .instr (.bne 1#5 0#5 0x1FF8#13) ∧
  decode 0xFFDFF06F#32 = .instr (.jal 0#5 0x1FFFFC#21) ∧
  decode 0xFFE280E7#32 = .instr (.jalr 1#5 5#5 0xFFE#12)

/-- R94: a word matches an instruction of R95 when `(w & mask) = match`; the pairs are disjoint; a
word that matches none is Illegal, and fetching one sets the error flag and ends the step. -/
def Obligations.DecodeFollowsMaskAndMatch : Prop :=
  (∀ (w : Word) (o : Op),
    w &&& o.row.mask = o.row.bits ↔ ∃ i, decode w = .instr i ∧ i.op = o) ∧
  (∀ (w : Word) (o p : Op),
    w &&& o.row.mask = o.row.bits → w &&& p.row.mask = p.row.bits → o = p) ∧
  (∀ w : Word, (∀ o ∈ allOps, w &&& o.row.mask ≠ o.row.bits) ↔ ∃ why, decode w = .illegal why) ∧
  (∀ (s : State) (w : Word), Fetches s w → (∀ o ∈ allOps, w &&& o.row.mask ≠ o.row.bits) →
    ∃ t, step s = .next t ∧ FailedFrom s t)

/-- R95: don't-care bits are ignored by the decoder and written by the encoder as in the canonical
column; encoding what a word decodes to gives its canonical form. That SW ignores funct3 and that
SLL, XOR, OR and AND ignore funct7 are the spec's decisions D9 and D10 (assumptions 9 and 10). -/
def Obligations.EncoderWritesCanonicalWords : Prop :=
  (∀ i : Instr, encode i &&& i.op.row.mask = i.op.row.bits ∧ i.op.canonicalize (encode i) = encode i) ∧
  (∀ (w : Word) (o : Op), w &&& o.row.mask = o.row.bits → decode (o.canonicalize w) = decode w) ∧
  (∀ (w : Word) (i : Instr), decode w = .instr i → encode i = i.op.canonicalize w)

/-- R109: (a) decoding an encoded well-formed instruction gives it back, and an immediate inside its
range survives the builder; (b) the builder of a format applied to the fields its accessors extract
gives the word back; the spec marks (b) as its own derivation. -/
def Obligations.CodecRoundTrips : Prop :=
  (∀ i : Instr, i.wf = true → decode (encode i) = .instr i) ∧
  (∀ (v : Int) (a b c d : Word), -2048 ≤ v → v ≤ 2047 →
    (immI (packI (BitVec.ofInt 32 v) a b c d)).toInt = v ∧
    (immS (packS (BitVec.ofInt 32 v) a b c d)).toInt = v) ∧
  (∀ (v : Int) (a b c d : Word), -4096 ≤ v → v ≤ 4094 → v % 2 = 0 →
    (immB (packB (BitVec.ofInt 32 v) a b c d)).toInt = v) ∧
  (∀ (v : Int) (a b : Word), -1048576 ≤ v → v ≤ 1048574 → v % 2 = 0 →
    (immJ (packJ (BitVec.ofInt 32 v) a b)).toInt = v) ∧
  (∀ (v : Int) (a b : Word), imm20Of (packU (BitVec.ofInt 32 v) a b) = BitVec.ofInt 20 v) ∧
  (∀ w : Word,
    packR (arg (funct7Of w)) (arg (rs2Of w)) (arg (rs1Of w)) (arg (funct3Of w)) (arg (rdOf w))
      (arg (opcodeOf w)) = w ∧
    packI (immI w) (arg (rs1Of w)) (arg (funct3Of w)) (arg (rdOf w)) (arg (opcodeOf w)) = w ∧
    packS (immS w) (arg (rs2Of w)) (arg (rs1Of w)) (arg (funct3Of w)) (arg (opcodeOf w)) = w ∧
    packU (arg (imm20Of w)) (arg (rdOf w)) (arg (opcodeOf w)) = w ∧
    packB (immB w) (arg (rs2Of w)) (arg (rs1Of w)) (arg (funct3Of w)) (arg (opcodeOf w)) = w ∧
    packJ (immJ w) (arg (rdOf w)) (arg (opcodeOf w)) = w)

/-- R81: the format is a function of the low seven bits, by the table; no other opcode has one; a
decoded instruction has the format of its word. -/
def Obligations.FormatIsTheOpcodes : Prop :=
  (∀ w w' : Word, opcodeOf w = opcodeOf w' → decodeFormat w = decodeFormat w') ∧
  (∀ w : Word,
    (decodeFormat w = some .r ↔ opcodeOf w = 0x33#7) ∧
    (decodeFormat w = some .i ↔ opcodeOf w ∈ [0x03#7, 0x13#7, 0x67#7]) ∧
    (decodeFormat w = some .s ↔ opcodeOf w = 0x23#7) ∧
    (decodeFormat w = some .u ↔ opcodeOf w ∈ [0x37#7, 0x17#7]) ∧
    (decodeFormat w = some .b ↔ opcodeOf w = 0x63#7) ∧
    (decodeFormat w = some .j ↔ opcodeOf w = 0x6F#7) ∧
    (decodeFormat w = none ↔ decode w = .illegal .opcode)) ∧
  (∀ (w : Word) (i : Instr), decode w = .instr i → decodeFormat w = some i.op.format)

/-- R101: a word is illegal exactly for one of the seven listed reasons, and executing it raises
DecodeError. -/
def Obligations.IllegalWordsAreTheSevenKinds : Prop :=
  (∀ w : Word,
    (decode w = .illegal .opcode ↔
      opcodeOf w ∉ [0x03#7, 0x13#7, 0x17#7, 0x23#7, 0x33#7, 0x37#7, 0x63#7, 0x67#7, 0x6F#7]) ∧
    (decode w = .illegal .aluFunct3 ↔ opcodeOf w = 0x33#7 ∧ funct3Of w ∈ [2#3, 3#3]) ∧
    (decode w = .illegal .aluFunct7 ↔
      opcodeOf w = 0x33#7 ∧ funct3Of w ∈ [0#3, 5#3] ∧ funct7Of w ∉ [0x00#7, 0x20#7]) ∧
    (decode w = .illegal .loadFunct3 ↔ opcodeOf w = 0x03#7 ∧ funct3Of w ≠ 2#3) ∧
    (decode w = .illegal .aluImmFunct3 ↔ opcodeOf w = 0x13#7 ∧ funct3Of w ≠ 0#3) ∧
    (decode w = .illegal .jalrFunct3 ↔ opcodeOf w = 0x67#7 ∧ funct3Of w ≠ 0#3) ∧
    (decode w = .illegal .branchFunct3 ↔
      opcodeOf w = 0x63#7 ∧ funct3Of w ∈ [2#3, 3#3, 6#3, 7#3]) ∧
    decode w ≠ .illegal .truncated) ∧
  (∀ (s : State) (w : Word) (why : Illegal), Fetches s w → decode w = .illegal why →
    ∃ t, step s = .next t ∧ t.error = true ∧ t.out.stepStatus = .decodeFail)

/-- R89 to R93: each bit of each assembled immediate, and the ranges. -/
def Obligations.ImmediatesAreAssembled : Prop :=
  (∀ (w : Word) (k : Nat), k < 32 →
    (immI w).getLsbD k = (if k ≤ 10 then w.getLsbD (k + 20) else w.getLsbD 31) ∧
    (immS w).getLsbD k =
      (if k ≤ 4 then w.getLsbD (k + 7) else if k ≤ 10 then w.getLsbD (k + 20) else w.getLsbD 31) ∧
    (immU w).getLsbD k = (if k ≤ 11 then false else w.getLsbD k) ∧
    (immB w).getLsbD k =
      (if k = 0 then false else if k ≤ 4 then w.getLsbD (k + 7)
        else if k ≤ 10 then w.getLsbD (k + 20) else if k = 11 then w.getLsbD 7
        else w.getLsbD 31) ∧
    (immJ w).getLsbD k =
      (if k = 0 then false else if k ≤ 10 then w.getLsbD (k + 20)
        else if k = 11 then w.getLsbD 20 else if k ≤ 19 then w.getLsbD k else w.getLsbD 31)) ∧
  (∀ w : Word,
    (-2048 ≤ (immI w).toInt ∧ (immI w).toInt ≤ 2047) ∧
    (-2048 ≤ (immS w).toInt ∧ (immS w).toInt ≤ 2047) ∧
    (immU w = w &&& 0xFFFFF000#32 ∧ ((immU w).toInt < 0 ↔ w.getLsbD 31 = true)) ∧
    (-4096 ≤ (immB w).toInt ∧ (immB w).toInt ≤ 4094 ∧ (immB w).toInt % 2 = 0) ∧
    (-1048576 ≤ (immJ w).toInt ∧ (immJ w).toInt ≤ 1048574 ∧ (immJ w).toInt % 2 = 0)) ∧
  (∀ a b c d : Word,
    immI (packI (BitVec.ofInt 32 (-1)) a b c d) = 0xFFFFFFFF#32 ∧
    immI (packI (BitVec.ofInt 32 2047) a b c d) = 0x7FF#32)

/-- R103 to R108: every accessor of a built word gives the builder's argument masked to its width.
-/
def Obligations.BuildersPlaceEveryField : Prop :=
  (∀ f7 rs2 rs1 f3 rd op : Word,
    funct7Of (packR f7 rs2 rs1 f3 rd op) = f7.setWidth 7 ∧
    rs2Of (packR f7 rs2 rs1 f3 rd op) = rs2.setWidth 5 ∧
    rs1Of (packR f7 rs2 rs1 f3 rd op) = rs1.setWidth 5 ∧
    funct3Of (packR f7 rs2 rs1 f3 rd op) = f3.setWidth 3 ∧
    rdOf (packR f7 rs2 rs1 f3 rd op) = rd.setWidth 5 ∧
    opcodeOf (packR f7 rs2 rs1 f3 rd op) = op.setWidth 7) ∧
  (∀ imm rs1 f3 rd op : Word,
    immIBits (packI imm rs1 f3 rd op) = imm.setWidth 12 ∧
    rs1Of (packI imm rs1 f3 rd op) = rs1.setWidth 5 ∧
    funct3Of (packI imm rs1 f3 rd op) = f3.setWidth 3 ∧
    rdOf (packI imm rs1 f3 rd op) = rd.setWidth 5 ∧
    opcodeOf (packI imm rs1 f3 rd op) = op.setWidth 7) ∧
  (∀ imm rs2 rs1 f3 op : Word,
    immSBits (packS imm rs2 rs1 f3 op) = imm.setWidth 12 ∧
    rs2Of (packS imm rs2 rs1 f3 op) = rs2.setWidth 5 ∧
    rs1Of (packS imm rs2 rs1 f3 op) = rs1.setWidth 5 ∧
    funct3Of (packS imm rs2 rs1 f3 op) = f3.setWidth 3 ∧
    opcodeOf (packS imm rs2 rs1 f3 op) = op.setWidth 7) ∧
  (∀ imm20 rd op : Word,
    imm20Of (packU imm20 rd op) = imm20.setWidth 20 ∧
    rdOf (packU imm20 rd op) = rd.setWidth 5 ∧
    opcodeOf (packU imm20 rd op) = op.setWidth 7) ∧
  (∀ imm rs2 rs1 f3 op : Word,
    immBBits (packB imm rs2 rs1 f3 op) = imm.setWidth 13 &&& 0x1FFE#13 ∧
    rs2Of (packB imm rs2 rs1 f3 op) = rs2.setWidth 5 ∧
    rs1Of (packB imm rs2 rs1 f3 op) = rs1.setWidth 5 ∧
    funct3Of (packB imm rs2 rs1 f3 op) = f3.setWidth 3 ∧
    opcodeOf (packB imm rs2 rs1 f3 op) = op.setWidth 7) ∧
  (∀ imm rd op : Word,
    immJBits (packJ imm rd op) = imm.setWidth 21 &&& 0x1FFFFE#21 ∧
    rdOf (packJ imm rd op) = rd.setWidth 5 ∧
    opcodeOf (packJ imm rd op) = op.setWidth 7)

/-- The encoder's output (30_encoding.md section 8): it answers a word that decodes to a well-formed
instruction, or 0, which is illegal, and an error signal. -/
def Obligations.EncodedRecordsDecode : Prop :=
  ∀ (tab : SymbolTable) (here : Word) (r : Record) (w : Word) (failed : Bool),
    encodeRecord tab here r = (w, failed) →
    (failed = false → ∃ i, decode w = .instr i ∧ i.wf = true ∧ encode i = w) ∧
    (failed = true → w = 0#32 ∧ decode w = .illegal .opcode)

/-- What makes the encoder fail (30_encoding.md section 8): an unrecognized mnemonic, too few
operands, a register that does not resolve, an immediate outside its range. Choices it rests on:
which spellings are recognized, lower case alone, is PRESUMED (assumption 17); that a two-operand
mnemonic with three operands fails is DEDUCED (assumption 18); that a numeric register name with a
leading zero does not resolve is the model's DESIGN CHOICE (assumption 19), the alias table PRESUMED
(assumption 20); the ranges of JALR, the branches, JAL, LUI and AUIPC and the reading of a target,
number first, are the spec's decisions D17 and D21 (assumption 21). -/
def Obligations.EncoderFailuresAreThoseListed : Prop :=
  (∀ (tab : SymbolTable) (here : Word) (r : Record), r.mnemonic ∉ mnemonics →
    encodeRecord tab here r = (0#32, true)) ∧
  (∀ (tab : SymbolTable) (here : Word) (r : Record),
    r.operands.length < operandsNeeded r.mnemonic → encodeRecord tab here r = (0#32, true)) ∧
  (∀ (tab : SymbolTable) (here : Word) (m a : String) (rest : List String) (line : Int)
    (label : Option String), reg? a.toList = none →
    encodeRecord tab here ⟨m, a :: rest, line, label⟩ = (0#32, true)) ∧
  (∀ (tab : SymbolTable) (here : Word) (m a b c : String) (line : Int) (label : Option String),
    reg? b.toList = none →
    encodeRecord tab here ⟨m, [a, b, c], line, label⟩ = (0#32, true)) ∧
  (∀ (tab : SymbolTable) (here : Word) (m a b c : String) (line : Int) (label : Option String),
    m ∈ ["add", "sub", "sll", "xor", "srl", "sra", "or", "and"] → reg? c.toList = none →
    encodeRecord tab here ⟨m, [a, b, c], line, label⟩ = (0#32, true)) ∧
  (∀ (tab : SymbolTable) (here : Word) (m a b : String) (line : Int) (label : Option String)
    (off breg : List Char), m ∈ ["lw", "sw", "jalr"] → memOperand? b.toList = some (off, breg) →
    reg? breg = none → encodeRecord tab here ⟨m, [a, b], line, label⟩ = (0#32, true)) ∧
  (∀ (tab : SymbolTable) (here : Word) (a b c : String) (line : Int) (label : Option String)
    (rd rs1 : RegIdx) (v : Int), reg? a.toList = some rd → reg? b.toList = some rs1 →
    number? c.toList = some v →
    ((encodeRecord tab here ⟨"addi", [a, b, c], line, label⟩).2 = false ↔ -2048 ≤ v ∧ v ≤ 2047) ∧
    ((encodeRecord tab here ⟨"li", [a, c], line, label⟩).2 = false ↔ -2048 ≤ v ∧ v ≤ 2047) ∧
    (∀ m ∈ ["lui", "auipc"],
      ((encodeRecord tab here ⟨m, [a, c], line, label⟩).2 = false ↔ -524288 ≤ v ∧ v ≤ 524287))) ∧
  (∀ (tab : SymbolTable) (here : Word) (a m : String) (line : Int) (label : Option String)
    (r base : RegIdx) (off breg : List Char) (v : Int), reg? a.toList = some r →
    memOperand? m.toList = some (off, breg) → number? off = some v → reg? breg = some base →
    ∀ n ∈ ["lw", "sw", "jalr"],
      ((encodeRecord tab here ⟨n, [a, m], line, label⟩).2 = false ↔ -2048 ≤ v ∧ v ≤ 2047)) ∧
  (∀ (tab : SymbolTable) (here : Word) (a b t : String) (line : Int) (label : Option String)
    (r q : RegIdx) (v : Int), reg? a.toList = some r → reg? b.toList = some q →
    TargetIs tab here t v →
    (∀ n ∈ ["beq", "bne", "blt", "bge"],
      ((encodeRecord tab here ⟨n, [a, b, t], line, label⟩).2 = false ↔ -4096 ≤ v ∧ v ≤ 4094)) ∧
    ((encodeRecord tab here ⟨"jal", [a, t], line, label⟩).2 = false ↔
      -1048576 ≤ v ∧ v ≤ 1048574))

/-- The one pseudo-instruction (30_encoding.md section 8): `li rd, imm` is `addi rd, x0, imm`, word
for word and failure for failure; the other pseudo-instructions named there do not exist. The
spelling `li` is general knowledge (assumption 17). -/
def Obligations.LoadImmediateIsAddiFromZero : Prop :=
  (∀ (tab : SymbolTable) (here : Word) (a z n : String) (line : Int) (label : Option String),
    reg? z.toList = some 0#5 →
    encodeRecord tab here ⟨"li", [a, n], line, label⟩
      = encodeRecord tab here ⟨"addi", [a, z, n], line, label⟩) ∧
  (∀ (tab : SymbolTable) (here : Word) (ops : List String) (line : Int) (label : Option String),
    ∀ m ∈ ["nop", "mv", "j", "ret", "call"],
      encodeRecord tab here ⟨m, ops, line, label⟩ = (0#32, true))

/-! ### Registers, reset, invariants -/

/-- R36: what reset leaves, in the state before any load and after a reset event; memory is not
touched by the event. That the counter's reset value is 0 is the spec's decision D20: the source does
not state it. -/
def Obligations.ResetValues : Prop :=
  (∀ r : RegIdx, State.reset.readReg r = 0#32) ∧ State.reset.pc = 0#32 ∧
  State.reset.halted = false ∧ State.reset.error = false ∧ State.reset.instret = 0 ∧
  (∀ a : Nat, State.reset.mem.get a = 0#8) ∧
  (∀ s : State, (∀ r : RegIdx, s.resetEvent.readReg r = 0#32) ∧ s.resetEvent.pc = 0#32 ∧
    s.resetEvent.halted = false ∧ s.resetEvent.error = false ∧ s.resetEvent.instret = 0 ∧
    SameMem s s.resetEvent)

/-- Reset (70_reset_and_hazards.md section 1; the spec's decision D20): reset is the only event that
clears a flag or lowers the counter; it leaves memory and configuration alone; nothing changes the
configuration. That memory is as before also after a tick with both rst and step_en, because rst acts
first, is the model's DESIGN CHOICE (assumption 23). -/
def Obligations.OnlyResetClearsFlags : Prop :=
  ∀ (rst stepEn : Bool) (s t : State), tick rst stepEn s = .next t →
    t.cfg = s.cfg ∧
    (rst = true → SameRegs State.reset t ∧ t.pc = 0#32 ∧ t.halted = false ∧ t.error = false ∧
      t.instret = 0 ∧ SameMem s t) ∧
    (rst = false → (s.halted = true → t.halted = true) ∧ (s.error = true → t.error = true) ∧
      s.instret ≤ t.instret)

/-- R22: a register other than x0 holds what is written to it, x0 stays 0 whatever is written, and
an instruction with rd = 0 keeps its other effects. The optional pulse of R22 is not stated: the
model's driving of it is its own choice (assumption 6). -/
def Obligations.RegisterZeroIsHardWired : Prop :=
  (∀ (s : State) (r : RegIdx) (v : Word), r ≠ 0#5 →
    (s.writeReg r v).readReg r = v ∧ ∀ q, q ≠ r → (s.writeReg r v).readReg q = s.readReg q) ∧
  (∀ (s : State) (v : Word), SameRegs s (s.writeReg 0#5 v) ∧ (s.writeReg 0#5 v).readReg 0#5 = 0#32) ∧
  (∀ (i : Instr) (s t : State), exec i s = .next t → dest? i = some 0#5 → SameRegs s t) ∧
  (∀ (off : BitVec 21) (pcBefore : Word) (s : State), s.pc = pcBefore + 4#32 →
    ∃ t, exec (.jal 0#5 off) s = .next t ∧ t.pc = pcBefore + BitVec.ofInt 32 off.toInt) ∧
  (∀ (rs1 : RegIdx) (imm : BitVec 12) (s : State), ∃ t, exec (.jalr 0#5 rs1 imm) s = .next t ∧
    t.pc = (s.readReg rs1 + BitVec.ofInt 32 imm.toInt) &&& 0xFFFFFFFE#32) ∧
  (∀ (rs1 : RegIdx) (imm : BitVec 12) (s : State), ∃ t, exec (.lw 0#5 rs1 imm) s = .next t ∧
    t.out.memPort = s.out.memPort ++ [readAccess s (s.effAddr rs1 imm)] ∧
    (¬ Fits s (s.effAddr rs1 imm) → t.out.boundsWarn = true))

/-- The invariant: bit 0 of `pc` is 0 (R25), the flags exclude each other (R28), the storage of x0
holds 0 (R22), memory is canonical and inside the byte array (R50). Every step keeps it. -/
def Obligations.StepKeepsInvariant : Prop :=
  ∀ s t : State, s.inv = true → step s = .next t → t.inv = true

/-- `State.reset` has the invariant. -/
def Obligations.ResetHasInvariant : Prop := State.reset.inv = true

/-- Every state the loader and reset make has the invariant, for every configuration, program and
data, fitting or not. -/
def Obligations.BootHasInvariant : Prop :=
  ∀ (cfg : Config) (program : List Word) (data : List StaticDatum),
    (boot cfg program data).inv = true

/-- The spec's own derivation in 10_state.md section 4: both flags are never set; only the halt test
sets `halted`, and `error` is set only in a step whose halt test was false. -/
def Obligations.FlagsAreNeverBothSet : Prop :=
  (∀ (cfg : Config) (program : List Word) (data : List StaticDatum) (t : State),
    Reaches (boot cfg program data) t → ¬ (t.halted = true ∧ t.error = true)) ∧
  (∀ s t : State, step s = .next t → s.halted = false → t.halted = true →
    s.error = false ∧ t.error = false ∧ ¬ Active s) ∧
  (∀ s t : State, step s = .next t → s.error = false → t.error = true → Active s ∧ t.halted = false) ∧
  (∀ s t : State, step s = .next t → s.halted = true ∨ s.error = true →
    t = { s with out := t.out })

/-! ### Memory -/

/-- R51, R53, R54: a read in bounds gives the four bytes little-endian,
out of bounds 0; a write in bounds changes exactly the four bytes, out of bounds none. -/
def Obligations.MemoryReadsAndWrites : Prop :=
  (∀ (m : Memory) (cap addr : Nat),
    (addr + 4 ≤ cap → m.read32 cap addr = (wordAt m addr, false)) ∧
    (cap < addr + 4 → m.read32 cap addr = (0#32, true))) ∧
  (∀ (m : Memory) (cap addr : Nat) (v : Word), m.wf = true →
    (addr + 4 ≤ cap →
      (m.write32 cap addr v).2 = false ∧ Holds (m.write32 cap addr v).1 addr v ∧
      (∀ a, a < addr ∨ addr + 4 ≤ a → (m.write32 cap addr v).1.get a = m.get a) ∧
      (m.write32 cap addr v).1.read32 cap addr = (v, false)) ∧
    (cap < addr + 4 → m.write32 cap addr v = (m, true)))

/-- R248: after a store, every word of memory, read by a load or by a fetch, has the stored bytes
where it overlaps the stored word and its old bytes elsewhere. -/
def Obligations.ReadsAfterAStoreSeeIt : Prop :=
  ∀ (rs1 rs2 : RegIdx) (imm : BitVec 12) (s t : State), s.mem.wf = true →
    Fits s (s.effAddr rs1 imm) → exec (.sw rs1 rs2 imm) s = .next t →
    ∀ addr : Word, Fits s addr →
      ∃ v : Word, t.loadWord addr = (v, false) ∧
        ∀ k < 4,
          v.toNat / 2 ^ (8 * k) % 2 ^ 8 =
            if (s.effAddr rs1 imm).toNat ≤ addr.toNat + k ∧
                addr.toNat + k < (s.effAddr rs1 imm).toNat + 4 then
              (s.readReg rs2).toNat / 2 ^ (8 * (addr.toNat + k - (s.effAddr rs1 imm).toNat)) % 2 ^ 8
            else (s.mem.get (addr.toNat + k)).toNat

/-- Fetch coherence, which the spec derives in 20_memory.md section 6: a store to the next
instruction's address is what the very next step decodes and runs. -/
def Obligations.NextFetchSeesAStoreToIt : Prop :=
  ∀ (s t : State) (w : Word) (rs1 rs2 : RegIdx) (imm : BitVec 12) (i : Instr),
    s.mem.wf = true → Fetches s w → decode w = .instr (.sw rs1 rs2 imm) →
    s.effAddr rs1 imm = s.pc + 4#32 → Fits s (s.pc + 4#32) →
    s.pc.toNat + 4 < 4 * s.cfg.instructionCount.val →
    decode (s.readReg rs2) = .instr i → step s = .next t →
    ∃ t1, SameRegs s t1 ∧ t1.pc = s.pc + 8#32 ∧ step t = finish (exec i t1)

/-! ### The step -/

/-- R120: a step answers a next state from every state: no fault and no refusal. -/
def Obligations.EveryStepAnswersANextState : Prop := ∀ s : State, ∃ t, step s = .next t

/-- A step runs the decoded instruction: phase 5 starts with `pc + 4`, the same registers, flags,
counter, memory and configuration, and the fetch alone on the port; an instruction that raised
nothing is counted and reports ST_OK, one that raised is not. -/
def Obligations.StepRunsTheDecodedInstruction : Prop :=
  ∀ (s : State) (w : Word) (i : Instr), Fetches s w → decode w = .instr i →
    i.wf = true ∧
    ∃ s1 u, SameRegs s s1 ∧ s1.pc = s.pc + 4#32 ∧ SameFlags s s1 ∧ SameMem s s1 ∧
      s1.out.memPort = [⟨.read, s.pc, w, false⟩] ∧ s1.out.boundsWarn = false ∧
      exec i s1 = .next u ∧
      step s = .next (if u.error then u
        else { u with instret := u.instret + 1, out := { u.out with stepStatus := .ok } })

/-- The guard (40_step_cycle.md section 1): a step of a Halted machine changes nothing and reports
ST_HALT; of an Errored one, the hardware holds all state and reports ST_REFUSED, the spec's decision
D6 (assumption 7). -/
def Obligations.GuardHoldsEverything : Prop :=
  ∀ s : State, s.error = true ∨ s.halted = true →
    ∃ t, step s = .next t ∧ t = { s with out := t.out } ∧ t.out.memPort = [] ∧
      t.out.boundsWarn = false ∧ t.out.stepStatus = if s.error then .refused else .halt

/-- R122: a Running machine whose `pc` is at or past the program's end or memory's end halts,
fetches nothing and changes nothing else; no other step sets `halted`; with an empty program or an
empty memory the first step halts. -/
def Obligations.HaltTestHalts : Prop :=
  (∀ s : State, s.error = false → s.halted = false →
    4 * s.cfg.instructionCount.val ≤ s.pc.toNat ∨ s.cfg.memCapacity.val ≤ s.pc.toNat →
    ∃ t, step s = .next t ∧ t = { s with halted := true, out := t.out } ∧ t.out.memPort = []) ∧
  (∀ s t : State, s.halted = false → step s = .next t → t.halted = true →
    4 * s.cfg.instructionCount.val ≤ s.pc.toNat ∨ s.cfg.memCapacity.val ≤ s.pc.toNat) ∧
  (∀ s : State, s.error = false → s.halted = false →
    s.cfg.instructionCount.val = 0 ∨ s.cfg.memCapacity.val = 0 →
    ∃ t, step s = .next t ∧ t.halted = true)

/-- Fetch overrun, which the spec derives and decides in 40_step_cycle.md section 1 (D22): a fetch
that overruns memory ends Errored under both policies. -/
def Obligations.FetchOverrunErrs : Prop :=
  ∀ s : State, Active s → ¬ Fits s s.pc →
    ∃ t, step s = .next t ∧ FailedFrom s t ∧ t.out.boundsWarn = true ∧
      (s.cfg.boundsPolicy = .warnNoop → t.out.stepStatus = .decodeFail) ∧
      (s.cfg.boundsPolicy = .escalate → t.out.stepStatus = .executeFail)

/-- R125: on an illegal word the step sets `error` and ends; no register, no byte of memory and not
the counter changes; `pc` keeps the incremented value. -/
def Obligations.IllegalWordSetsErrorOnly : Prop :=
  ∀ (s : State) (w : Word) (why : Illegal), Fetches s w → decode w = .illegal why →
    ∃ t, step s = .next t ∧ t = { s with pc := s.pc + 4#32, error := true, out := t.out } ∧
      t.out.stepStatus = .decodeFail

/-- ExecuteError (60_exceptions.md section 1, with the spec's decision D14): it is raised only by a
fetch, LW or SW that is out of bounds under `escalate`, and then always. -/
def Obligations.ExecuteErrorIsAnEscalatedAccess : Prop :=
  ∀ s t : State, step s = .next t →
    (t.out.stepStatus = .executeFail ↔
      Active s ∧ s.cfg.boundsPolicy = .escalate ∧
        (¬ Fits s s.pc ∨ ∃ i, decode (fetched s) = .instr i ∧ AccessFails s i)) ∧
    (t.out.stepStatus = .executeFail → FailedFrom s t ∧ t.out.boundsWarn = true)

/-- The state after a failed step, which the spec derives in 40_step_cycle.md section 2. -/
def Obligations.FailedStepChangesOnlyPcAndError : Prop :=
  ∀ s t : State, step s = .next t →
    t.out.stepStatus = .decodeFail ∨ t.out.stepStatus = .executeFail → FailedFrom s t

/-- R127: a step counts by exactly 1 when nothing was raised, and not at all otherwise. -/
def Obligations.CountsExactlyTheUnraisedSteps : Prop :=
  (∀ s t : State, step s = .next t →
    (t.out.stepStatus = .ok → t.instret = s.instret + 1 ∧ t.error = false) ∧
    (t.out.stepStatus ≠ .ok → t.instret = s.instret)) ∧
  (∀ (s : State) (w : Word) (i : Instr), Fetches s w → decode w = .instr i →
    s.cfg.boundsPolicy = .warnNoop ∨ ¬ AccessFails s i →
    ∃ t, step s = .next t ∧ t.out.stepStatus = .ok)

/-- R26: the value of `pc` after a reset and after a step, row by row. -/
def Obligations.PcMultiplexer : Prop :=
  (∀ (stepEn : Bool) (s : State), ∃ t, tick true stepEn s = .next t ∧ t.pc = 0#32) ∧
  (∀ s t : State, step s = .next t →
    (¬ Active s → t.pc = s.pc) ∧
    (∀ why, Active s → decode (fetched s) = .illegal why → t.pc = s.pc + 4#32) ∧
    (Active s → t.error = true → t.pc = s.pc + 4#32) ∧
    (∀ i, Active s → decode (fetched s) = .instr i → t.error = false → t.pc = pcAfter s i))

/-- What the spec derives in 40_step_cycle.md section 2: one fetch, at most one data access, at most
one register, at most one word of memory, the counter by 0 or 1, at most one flag; a step that
does not fetch makes no access at all. The spec says it of a step that executes an instruction. That
the port also shows an access that escalates is the model's DEDUCED assumption 25, and that a step of
an Errored machine changes none of this is the spec's decision D6 (assumption 7). -/
def Obligations.StepChangesAtMostThis : Prop :=
  (∀ s t : State, Active s → step s = .next t →
    t.out.memPort = readAccess s s.pc :: dataAccesses s (decode (fetched s)) ∧
    (∃ rd v, Wrote s t rd v) ∧
    (SameMem s t ∨ ∃ rs1 rs2 imm, decode (fetched s) = .instr (.sw rs1 rs2 imm) ∧
      SameMemOutside s t (s.effAddr rs1 imm).toNat) ∧
    (t.instret = s.instret ∨ t.instret = s.instret + 1) ∧ t.halted = false ∧ t.cfg = s.cfg) ∧
  (∀ s t : State, ¬ Active s → step s = .next t →
    t.out.memPort = [] ∧ SameRegs s t ∧ SameMem s t ∧ t.instret = s.instret ∧ t.pc = s.pc ∧
      t.error = s.error ∧ t.cfg = s.cfg)

/-- The status code of every step, by the phase that ends it (40_step_cycle.md section 2; the
numbers are the spec's decision D13, ST_REFUSED its decision D6, assumption 7). -/
def Obligations.StatusCodeOfEveryStep : Prop :=
  ∀ s t : State, step s = .next t → expectedStatus s t.out.stepStatus.code

/-- R213: `bounds_warn` pulses exactly in a step with an out-of-bounds access; under `warn_noop` the
access sets neither flag (an out-of-bounds fetch errs as the illegal word 0); under `escalate` the
pulse accompanies ExecuteError; it is not sticky and no step reads it. -/
def Obligations.BoundsWarningOnlyWarns : Prop :=
  (∀ s t : State, step s = .next t →
    (t.out.boundsWarn = true ↔
      Active s ∧ (¬ Fits s s.pc ∨ ∃ i, decode (fetched s) = .instr i ∧ AccessFails s i)) ∧
    (s.cfg.boundsPolicy = .warnNoop → t.out.boundsWarn = true → t.halted = false ∧
      (t.error = true ↔ ∃ why, decode (fetched s) = .illegal why)) ∧
    (s.cfg.boundsPolicy = .escalate → t.out.boundsWarn = true → t.out.stepStatus = .executeFail)) ∧
  (∀ (s : State) (b : Bool), step { s with out := { s.out with boundsWarn := b } } = step s)

/-- No step depends on the outputs of the one before: they are not state (R31, R213). -/
def Obligations.OutputsAreNeverRead : Prop :=
  ∀ (s : State) (o : Outputs), step { s with out := o } = step s

/-- R226: nothing a step does depends on the counter; its value only rides along. -/
def Obligations.CounterIsNeverRead : Prop :=
  ∀ (s t : State) (n : Nat), step s = .next t →
    step { s with instret := n } = .next { t with instret := n + (t.instret - s.instret) }

/-- R202: the complete set of instructions that can set `pc` to anything but `pc_before + 4`;
relative targets use `pc_before`, link values are `pc_before + 4`, and a transfer checks nothing. -/
def Obligations.OnlyTransfersChangePc : Prop :=
  (∀ (i : Instr) (s t : State), exec i s = .next t → t.pc ≠ s.pc →
    i.op ∈ [Op.beq, Op.bne, Op.blt, Op.bge, Op.jal, Op.jalr]) ∧
  (∀ (i : Instr) (s : State), i.op ∈ [Op.beq, Op.bne, Op.blt, Op.bge, Op.jal, Op.jalr] →
    ∃ t, exec i s = .next t ∧ SameFlags s t ∧ SameMem s t) ∧
  (∀ (i : Instr) (rd : RegIdx) (pcBefore : Word) (s t : State), i.op ∈ [Op.jal, Op.jalr] →
    dest? i = some rd → rd ≠ 0#5 → s.pc = pcBefore + 4#32 → exec i s = .next t →
    t.readReg rd = pcBefore + 4#32) ∧
  (∀ (i : Instr) (v : Int) (pcBefore : Word) (s t : State), relativeTarget? i = some v →
    s.pc = pcBefore + 4#32 → exec i s = .next t →
    t.pc = s.pc ∨ t.pc = pcBefore + BitVec.ofInt 32 v)

/-- The table of control signals (30_encoding.md section 7, which the spec derives from its
instruction rules) is what phase 5 does, column by column: the registers read (that no other register
matters is UnreadRegistersDoNotMatter), the value written back, the memory access, the `pc` chosen;
and nothing else changes. That an access which escalates stands on the port is the model's DEDUCED
assumption 25; the ALU select is the spec's decision D18 (assumption 26). -/
def Obligations.ControlSignalsDescribeExecution : Prop :=
  ∀ (i : Instr) (pcBefore : Word) (s t : State), s.pc = pcBefore + 4#32 → exec i s = .next t →
    sources i = readPorts i ∧
    ((control i.op).writeback = .none ↔ dest? i = none) ∧
    ((control i.op).writeback = .none → SameRegs s t) ∧
    (∀ rd, dest? i = some rd → rd = rdOf (encode i) ∧
      (s.cfg.boundsPolicy = .warnNoop ∨ ¬ AccessFails s i →
        Wrote s t rd (writebackValue s pcBefore i)) ∧
      (s.cfg.boundsPolicy = .escalate → AccessFails s i → SameRegs s t)) ∧
    ((control i.op).memory = .none → SameMem s t ∧ SameOutputs s t ∧ t.error = s.error) ∧
    ((control i.op).memory = .read → SameMem s t ∧
      dataAddr? s i = some (s.effAddr (rs1Of (encode i)) (immIBits (encode i))) ∧
      ∀ a, dataAddr? s i = some a → t.out.memPort = s.out.memPort ++ [readAccess s a]) ∧
    ((control i.op).memory = .write →
      storeAddr? s i = some (s.effAddr (rs1Of (encode i)) (immSBits (encode i))) ∧
      ∀ a, storeAddr? s i = some a → SameMemOutside s t a.toNat ∧
        t.out.memPort =
          s.out.memPort ++ [writeAccess s a (s.readReg (rs2Of (encode i)))]) ∧
    (i.wf = true → t.pc = chosenPc s pcBefore i) ∧
    ((control i.op).pcSource = .sequential → t.pc = s.pc) ∧
    t.halted = s.halted ∧ t.instret = s.instret ∧ t.cfg = s.cfg

/-- An instruction's effect does not depend on a register it does not read: changing such a register
beforehand changes nothing afterwards but, where the instruction does not write it, itself. -/
def Obligations.UnreadRegistersDoNotMatter : Prop :=
  ∀ (i : Instr) (s : State) (r : RegIdx) (v : Word), r ∉ sources i →
    ∃ t u, exec i s = .next t ∧ exec i (s.writeReg r v) = .next u ∧
      u.pc = t.pc ∧ SameMem t u ∧ SameFlags t u ∧ u.out.memPort = t.out.memPort ∧
      (∀ q, q ≠ r → u.readReg q = t.readReg q) ∧
      (dest? i = some r → t.error = false → u.readReg r = t.readReg r)

/-- The state the model offers for running one instruction does run it, from every state
(assumption 27). -/
def Obligations.PlacedWordRunsNext : Prop :=
  ∀ (s : State) (w : Word) (i : Instr), s.mem.wf = true → decode w = .instr i →
    ∃ s1, step (s.withFetchWord 32 w.toNat) = finish (exec i s1) ∧ SameRegs s s1 ∧
      s1.instret = s.instret ∧ s1.cfg.boundsPolicy = s.cfg.boundsPolicy ∧
      (s.pc.toNat < 2 ^ 32 - 4 → s1.pc = s.pc + 4#32)

/-! ### The ALU -/

/-- R150, R152: the result of every operation on numbers; the shift amount is the low five bits. -/
def Obligations.AluResults : Prop :=
  ∀ a b : Word,
    alu .add a b = sumOf a b ∧ alu .sub a b = differenceOf a b ∧
    alu .and a b = conjunctionOf a b ∧ alu .or a b = disjunctionOf a b ∧
    alu .xor a b = exclusiveOrOf a b ∧ alu .sll a b = leftShiftOf a b ∧
    alu .srl a b = rightShiftOf a b ∧ alu .sra a b = signedRightShiftOf a b

/-- The ALU's select (41_alu_rtype.md section 1): the code of each operation, by the table; each code
selects its operation and every other code yields 0 with an error. The codes are the spec's decision
D18 (assumption 26). -/
def Obligations.AluSelectCodes : Prop :=
  (AluOp.add.code = 0b0000#4 ∧ AluOp.sub.code = 0b1000#4 ∧ AluOp.sll.code = 0b0001#4 ∧
    AluOp.xor.code = 0b0100#4 ∧ AluOp.srl.code = 0b0101#4 ∧ AluOp.sra.code = 0b1101#4 ∧
    AluOp.or.code = 0b0110#4 ∧ AluOp.and.code = 0b0111#4) ∧
  (∀ (op : AluOp) (a b : Word), aluBlock op.code a b = (alu op a b, false)) ∧
  (∀ (code : BitVec 4) (a b : Word),
    code ∈ [0b0010#4, 0b0011#4, 0b1001#4, 0b1010#4, 0b1011#4, 0b1100#4, 0b1110#4, 0b1111#4] →
    aluBlock code a b = (0#32, true))

/-! ### The instructions -/

/-- R155, R156. -/
def Obligations.AddAndSub : Prop :=
  AluClaim .add "add" 0xFE00707F#32 0x00000033#32 0x00000033#32 sumOf ∧
  AluClaim .sub "sub" 0xFE00707F#32 0x40000033#32 0x40000033#32 differenceOf

/-- R158, R161, R162. The lower-case spellings `xor`, `or`, `and` are general knowledge (G3, D15;
PRESUMED, assumption 17), that funct7 is ignored is the spec's decision D10 (assumption 10), and the 0
the encoder writes there is general knowledge too (G4). -/
def Obligations.XorOrAnd : Prop :=
  AluClaim .xor "xor" 0x0000707F#32 0x00004033#32 0x00004033#32 exclusiveOrOf ∧
  AluClaim .or "or" 0x0000707F#32 0x00006033#32 0x00006033#32 disjunctionOf ∧
  AluClaim .and "and" 0x0000707F#32 0x00007033#32 0x00007033#32 conjunctionOf

/-- R157, R159, R160. The lower-case spellings `sll`, `srl`, `sra` are general knowledge (G3, D15;
PRESUMED, assumption 17); that SLL ignores funct7 is the spec's decision D10 (assumption 10), and the 0
the encoder writes there is general knowledge too (G4). -/
def Obligations.ShiftsSllSrlSra : Prop :=
  AluClaim .sll "sll" 0x0000707F#32 0x00001033#32 0x00001033#32 leftShiftOf ∧
  AluClaim .srl "srl" 0xFE00707F#32 0x00005033#32 0x00005033#32 rightShiftOf ∧
  AluClaim .sra "sra" 0xFE00707F#32 0x40005033#32 0x40005033#32 signedRightShiftOf

/-- R170. -/
def Obligations.AddiAddsASignedImmediate : Prop :=
  (∀ w : Word, w &&& 0x0000707F#32 = 0x00000013#32 →
    decode w = .instr (.addi (rdOf w) (rs1Of w) (immIBits w))) ∧
  (∀ (tab : SymbolTable) (here : Word) (a b c : String) (line : Int) (label : Option String)
    (rd rs1 : RegIdx) (v : Int), reg? a.toList = some rd → reg? b.toList = some rs1 →
    number? c.toList = some v → -2048 ≤ v → v ≤ 2047 →
    encodeRecord tab here ⟨"addi", [a, b, c], line, label⟩
      = (encode (.addi rd rs1 (BitVec.ofInt 12 v)), false)) ∧
  (∀ (rd rs1 : RegIdx) (imm : BitVec 12) (s : State), ∃ t, exec (.addi rd rs1 imm) s = .next t ∧
    Wrote s t rd (BitVec.ofInt 32 ((s.readReg rs1).toInt + imm.toInt)) ∧ t.pc = s.pc ∧
    OnlyRegsAndPc s t)

/-- The effective address of LW and SW (43_load_store.md section 1): DATA_OFFSET + base + imm, for
every base and displacement. That the sum wraps is the spec's decision D4 (assumption 12). -/
def Obligations.EffectiveAddressIsDataRelative : Prop :=
  ∀ (rs1 : RegIdx) (imm : BitVec 12) (s : State),
    s.effAddr rs1 imm =
      BitVec.ofInt 32 (4 * s.cfg.instructionCount.val + (s.readReg rs1).toInt + imm.toInt) ∧
    ∀ r : RegIdx, dataAddr? s (.lw r rs1 imm) = some (s.effAddr rs1 imm) ∧
      storeAddr? s (.sw rs1 r imm) = some (s.effAddr rs1 imm)

/-- R176: LW loads the word at its effective address; out of bounds it loads 0 under `warn_noop` and
raises ExecuteError under `escalate`, without a writeback. -/
def Obligations.LoadWordFromTheDataRegion : Prop :=
  (∀ w : Word, w &&& 0x0000707F#32 = 0x00002003#32 →
    decode w = .instr (.lw (rdOf w) (rs1Of w) (immIBits w))) ∧
  TextMem "lw" .lw ∧
  (∀ (rd rs1 : RegIdx) (imm : BitVec 12) (s : State),
    Fits s (s.effAddr rs1 imm) ∨ s.cfg.boundsPolicy = .warnNoop →
    ∃ t, exec (.lw rd rs1 imm) s = .next t ∧
      Wrote s t rd (readAccess s (s.effAddr rs1 imm)).data ∧
      t.pc = s.pc ∧ SameFlags s t ∧ SameMem s t ∧
      t.out.memPort = s.out.memPort ++ [readAccess s (s.effAddr rs1 imm)] ∧
      t.out.boundsWarn = (s.out.boundsWarn || (readAccess s (s.effAddr rs1 imm)).oob) ∧
      t.out.stepStatus = s.out.stepStatus) ∧
  (∀ (rd rs1 : RegIdx) (imm : BitVec 12) (s : State), ¬ Fits s (s.effAddr rs1 imm) →
    s.cfg.boundsPolicy = .escalate →
    ∃ t, exec (.lw rd rs1 imm) s = .next t ∧ RaisedFrom s t)

/-- R177: SW stores all four bytes of x[rs2] at its effective address and changes no other byte; out
of bounds it changes none, and raises ExecuteError under `escalate`. (Its assembler form, general
knowledge in the rule, stands in GeneralKnowledgeForms.) -/
def Obligations.StoreWordToTheDataRegion : Prop :=
  (∀ w : Word, w &&& 0x0000007F#32 = 0x00000023#32 →
    decode w = .instr (.sw (rs1Of w) (rs2Of w) (immSBits w))) ∧
  (∀ (rs1 rs2 : RegIdx) (imm : BitVec 12), encode (.sw rs1 rs2 imm) &&& 0x0000707F#32 = 0x00002023#32) ∧
  (∀ (rs1 rs2 : RegIdx) (imm : BitVec 12) (s : State),
    Fits s (s.effAddr rs1 imm) ∨ s.cfg.boundsPolicy = .warnNoop →
    ∃ t, exec (.sw rs1 rs2 imm) s = .next t ∧ SameRegs s t ∧ t.pc = s.pc ∧ SameFlags s t ∧
      (∀ a, storeAddr? s (.sw rs1 rs2 imm) = some a → SameMemOutside s t a.toNat) ∧
      (s.mem.wf = true → Fits s (s.effAddr rs1 imm) →
        Holds t.mem (s.effAddr rs1 imm).toNat (s.readReg rs2)) ∧
      (¬ Fits s (s.effAddr rs1 imm) → SameMem s t) ∧
      t.out.memPort = s.out.memPort ++ [writeAccess s (s.effAddr rs1 imm) (s.readReg rs2)] ∧
      t.out.boundsWarn =
        (s.out.boundsWarn || (writeAccess s (s.effAddr rs1 imm) (s.readReg rs2)).oob) ∧
      t.out.stepStatus = s.out.stepStatus) ∧
  (∀ (rs1 rs2 : RegIdx) (imm : BitVec 12) (s : State), ¬ Fits s (s.effAddr rs1 imm) →
    s.cfg.boundsPolicy = .escalate →
    ∃ t, exec (.sw rs1 rs2 imm) s = .next t ∧ RaisedFrom s t)

/-- R185, with the assembler's range -524288 .. 524287 and the low 20 bits of a negative number, which
are the spec's decision D21 (assumption 21). -/
def Obligations.LuiLoadsTheUpperImmediate : Prop :=
  (∀ w : Word, w &&& 0x0000007F#32 = 0x00000037#32 → decode w = .instr (.lui (rdOf w) (imm20Of w))) ∧
  TextU "lui" .lui ∧
  (∀ (rd : RegIdx) (imm20 : BitVec 20) (s : State), ∃ t, exec (.lui rd imm20) s = .next t ∧
    Wrote s t rd (BitVec.ofNat 32 (imm20.toNat * 2 ^ 12)) ∧ t.pc = s.pc ∧ OnlyRegsAndPc s t)

/-- The constant LUI and ADDI build together, which the spec derives in 44_upper_imm.md: LUI with
`(K + 0x800) >> 12`, then ADDI with the low 12 bits of K. -/
def Obligations.LuiThenAddiBuildsAnyConstant : Prop :=
  ∀ (rd : RegIdx) (K : Word) (s : State), rd ≠ 0#5 →
    ∃ t u, exec (.lui rd (((K + 0x800#32) >>> 12).setWidth 20)) s = .next t ∧
      exec (.addi rd rd (K.setWidth 12)) t = .next u ∧ u.readReg rd = K ∧
      ∀ q, q ≠ rd → u.readReg q = s.readReg q

/-- R186. (Its assembler form, general knowledge in the rule, stands in GeneralKnowledgeForms.) -/
def Obligations.AuipcAddsToItsOwnAddress : Prop :=
  (∀ w : Word, w &&& 0x0000007F#32 = 0x00000017#32 →
    decode w = .instr (.auipc (rdOf w) (imm20Of w))) ∧
  (∀ (rd : RegIdx) (imm20 : BitVec 20) (pcBefore : Word) (s : State), s.pc = pcBefore + 4#32 →
    ∃ t, exec (.auipc rd imm20) s = .next t ∧
      Wrote s t rd (BitVec.ofNat 32 (pcBefore.toNat + imm20.toNat * 2 ^ 12)) ∧ t.pc = s.pc ∧
      OnlyRegsAndPc s t)

/-- R190, R191, R192. In the assembler clause the spelling `bne` is general knowledge (G3, D15;
PRESUMED, assumption 17), and the target, a number first and otherwise a label minus the branch's own
address, with its range, is the spec's decision D17 (assumption 21). -/
def Obligations.BeqAndBneCompareForEquality : Prop :=
  BranchClaim .beq "beq" 0x00000063#32 (fun a b => a = b) ∧
  BranchClaim .bne "bne" 0x00001063#32 (fun a b => a ≠ b)

/-- R190, R193, R194. In the assembler clause the spellings `blt` and `bge` are general knowledge (G3,
D15; PRESUMED, assumption 17), and the target, a number first and otherwise a label minus the branch's
own address, with its range, is the spec's decision D17 (assumption 21). -/
def Obligations.BltAndBgeCompareSigned : Prop :=
  BranchClaim .blt "blt" 0x00004063#32 (fun a b => a.toInt < b.toInt) ∧
  BranchClaim .bge "bge" 0x00005063#32 (fun a b => b.toInt ≤ a.toInt)

/-- R200. (Its assembler form, general knowledge in the rule, stands in GeneralKnowledgeForms.) -/
def Obligations.JalLinksAndJumps : Prop :=
  (∀ w : Word, w &&& 0x0000007F#32 = 0x0000006F#32 → decode w = .instr (.jal (rdOf w) (immJBits w))) ∧
  (∀ (rd : RegIdx) (off : BitVec 21) (pcBefore : Word) (s : State), s.pc = pcBefore + 4#32 →
    ∃ t, exec (.jal rd off) s = .next t ∧ Wrote s t rd (pcBefore + 4#32) ∧
      t.pc = pcBefore + BitVec.ofInt 32 off.toInt ∧ OnlyRegsAndPc s t)

/-- R201: only bit 0 of the target is cleared, and x[rs1] is read before the link is written. (Its
assembler form, general knowledge in the rule, stands in GeneralKnowledgeForms.) -/
def Obligations.JalrLinksAndJumpsThroughARegister : Prop :=
  (∀ w : Word, w &&& 0x0000707F#32 = 0x00000067#32 →
    decode w = .instr (.jalr (rdOf w) (rs1Of w) (immIBits w))) ∧
  (∀ (rd rs1 : RegIdx) (imm : BitVec 12) (pcBefore : Word) (s : State), s.pc = pcBefore + 4#32 →
    ∃ t, exec (.jalr rd rs1 imm) s = .next t ∧ Wrote s t rd (pcBefore + 4#32) ∧
      (∀ k : Nat, t.pc.getLsbD k =
        (decide (k ≠ 0) && (BitVec.ofInt 32 ((s.readReg rs1).toInt + imm.toInt)).getLsbD k)) ∧
      OnlyRegsAndPc s t)

/-- The assembler forms of SW, JALR, AUIPC and JAL, whose spelling and operand order the spec takes
from general knowledge (30_encoding.md section 8, G3; PRESUMED, assumption 17). The number-or-label
target of JAL and the ranges of JALR, JAL and AUIPC are the spec's decisions D17 and D21 (assumption
21). -/
def Obligations.GeneralKnowledgeForms : Prop :=
  TextMem "sw" (fun rs2 rs1 imm => .sw rs1 rs2 imm) ∧
  TextMem "jalr" .jalr ∧
  TextU "auipc" .auipc ∧
  (∀ (tab : SymbolTable) (here : Word) (a t : String) (line : Int) (label : Option String)
    (rd : RegIdx) (v : Int), reg? a.toList = some rd → TargetIs tab here t v → v % 2 = 0 →
    -1048576 ≤ v → v ≤ 1048574 →
    encodeRecord tab here ⟨"jal", [a, t], line, label⟩
      = (encode (.jal rd (BitVec.ofInt 21 v)), false))

/-! ### The run loop and the loader -/

/-- The run loop of 40_step_cycle.md section 3, unrolled once. That the ceiling is compared with the
counter is the spec's decision D12 (assumption 22). -/
def Obligations.RunIsTheLoop : Prop :=
  ∀ s : State, run s =
    if s.halted = false ∧ s.error = false ∧ s.instret < s.cfg.stepCeiling then
      match step s with
      | .next t =>
        if t.out.stepStatus = .decodeFail ∨ t.out.stepStatus = .executeFail then .next (t, .failed)
        else run t
      | .fault f => .fault f
      | .refused r => .refused r
    else .next (s, if s.error then .failed else if s.halted then .halted else .ceiling)

/-- What the spec derives and decides in 40_step_cycle.md section 3 (D12, D13): every run ends, in
one of three ways told apart by the final state; the ceiling is reported exactly when the machine is
still Running, with the counter at the ceiling. -/
def Obligations.RunEndsInOneOfThreeWays : Prop :=
  (∀ s : State, ∃ t r, run s = .next (t, r) ∧ Reaches s t ∧
    (r = .failed ↔ t.error = true) ∧
    (r = .halted ↔ t.error = false ∧ t.halted = true) ∧
    (r = .ceiling ↔ t.error = false ∧ t.halted = false) ∧
    (r = .ceiling → s.instret ≤ s.cfg.stepCeiling → t.instret = s.cfg.stepCeiling)) ∧
  (∀ s : State, s.error = false → s.halted = false → s.instret = s.cfg.stepCeiling →
    run s = .next (s, .ceiling)) ∧
  RunResult.halted.code = 0 ∧ RunResult.failed.code = 1 ∧ RunResult.ceiling.code = 2

/-- The loader's image (20_memory.md section 1): the image the core sees when it leaves reset: a
program word that fits is stored at 4*i, a static entry that fits at DATA_OFFSET + byte_offset,
where nothing loaded later overlaps it; every byte nothing covers is 0. That a word which does not
fit is not stored is the spec's own derivation, that the sum does not wrap the model's (assumption
16). -/
def Obligations.LoaderImageContents : Prop :=
  ∀ (cfg : Config) (program : List Word) (data : List StaticDatum),
    (∀ (i : Nat) (h : i < program.length), 4 * i + 4 ≤ cfg.memCapacity.val →
      (∀ d ∈ data, ∀ a, Covers cfg.memCapacity.val (4 * i) a →
        ¬ Covers cfg.memCapacity.val (4 * cfg.instructionCount.val + d.offset.toNat) a) →
      Holds (boot cfg program data).mem (4 * i) program[i]) ∧
    (∀ (pre post : List StaticDatum) (d : StaticDatum), data = pre ++ d :: post →
      4 * cfg.instructionCount.val + d.offset.toNat + 4 ≤ cfg.memCapacity.val →
      (∀ e ∈ post, ∀ a, Covers cfg.memCapacity.val (4 * cfg.instructionCount.val + d.offset.toNat) a →
        ¬ Covers cfg.memCapacity.val (4 * cfg.instructionCount.val + e.offset.toNat) a) →
      Holds (boot cfg program data).mem (4 * cfg.instructionCount.val + d.offset.toNat) d.value) ∧
    (∀ a : Nat, (∀ i < program.length, ¬ Covers cfg.memCapacity.val (4 * i) a) →
      (∀ d ∈ data, ¬ Covers cfg.memCapacity.val (4 * cfg.instructionCount.val + d.offset.toNat) a) →
      (boot cfg program data).mem.get a = 0#8)
end

