-- ==== Sys2Proof/Laws/Decode.lean ====
section
/-! SUPPORT. The codec: byte order, what the masks of R95 select, one inversion lemma for the
decoder, and the opcode of a built word. -/

namespace Sys2Proof

/-! ### Bytes of a word (R51) -/

/-- Laying a word out in memory order and reading it back gives the word (R51). -/
@[simp] theorem wordOfBytes_bytes (w : Word) :
    wordOfBytes (w.extractLsb' 0 8) (w.extractLsb' 8 8) (w.extractLsb' 16 8) (w.extractLsb' 24 8)
      = w := by
  unfold wordOfBytes
  apply BitVec.eq_of_getLsbD_eq
  intro i hi
  interval_cases i <;> simp only [BitVec.getLsbD_append, BitVec.getLsbD_extractLsb'] <;> simp

/-- The byte-level decoder on a word's bytes is the word decoder (R80). -/
@[simp] theorem decodeBytes_bytesOfWord (w : Word) : decodeBytes (bytesOfWord w) = (decode w, []) := by
  simp [bytesOfWord, decodeBytes]

theorem tableWord_of_lt {w : Nat} (h : w < 2 ^ 32) : tableWord 32 w = BitVec.ofNat 32 w := by
  rw [tableWord, Nat.mod_eq_of_lt h]

theorem decodeTableWord_eq (nbits w : Nat) :
    decodeTableWord nbits w = (decode (tableWord nbits w)).instr? := by
  simp [decodeTableWord]

/-! ### Offsets are even (R92, R93) -/

theorem evenOffset_immBBits (w : Word) : evenOffset (immBBits w) = true := by
  simp only [evenOffset, immBBits, BitVec.getLsbD_append]
  simp

theorem evenOffset_immJBits (w : Word) : evenOffset (immJBits w) = true := by
  simp only [evenOffset, immJBits, BitVec.getLsbD_append]
  simp

/-! ### The masks of R95 select fields -/

theorem append_inj {n m : Nat} (a c : BitVec n) (b d : BitVec m) :
    a ++ b = c ++ d ↔ a = c ∧ b = d := by
  constructor
  · intro h
    exact ⟨by simpa [BitVec.extractLsb'_append_eq_left] using
        congrArg (fun x => x.extractLsb' m n) h,
      by simpa [BitVec.setWidth_append_eq_right] using congrArg (fun x => x.setWidth m) h⟩
  · rintro ⟨rfl, rfl⟩
    rfl

/-- The low seven bits alone. -/
theorem and_opcodeMask (w : Word) : w &&& 0x0000007F#32 = (0#25 ++ opcodeOf w : BitVec 32) := by
  unfold opcodeOf
  apply BitVec.eq_of_getLsbD_eq
  intro i hi
  interval_cases i <;>
    simp only [BitVec.getLsbD_append, BitVec.getLsbD_extractLsb', BitVec.getLsbD_and] <;> simp

theorem and_funct3Mask (w : Word) :
    w &&& 0x0000707F#32 = (0#17 ++ funct3Of w ++ 0#5 ++ opcodeOf w : BitVec 32) := by
  unfold funct3Of opcodeOf
  apply BitVec.eq_of_getLsbD_eq
  intro i hi
  interval_cases i <;>
    simp only [BitVec.getLsbD_append, BitVec.getLsbD_extractLsb', BitVec.getLsbD_and] <;> simp

theorem and_funct7Mask (w : Word) :
    w &&& 0xFE00707F#32 =
      (funct7Of w ++ 0#10 ++ funct3Of w ++ 0#5 ++ opcodeOf w : BitVec 32) := by
  unfold funct3Of opcodeOf funct7Of
  apply BitVec.eq_of_getLsbD_eq
  intro i hi
  interval_cases i <;>
    simp only [BitVec.getLsbD_append, BitVec.getLsbD_extractLsb', BitVec.getLsbD_and] <;> simp

theorem opcodeMask_iff (w : Word) (op : BitVec 7) :
    w &&& 0x0000007F#32 = (0#25 ++ op : BitVec 32) ↔ opcodeOf w = op := by
  rw [and_opcodeMask]
  exact (append_inj _ _ _ _).trans (and_iff_right rfl)

theorem funct3Mask_iff (w : Word) (f3 : BitVec 3) (op : BitVec 7) :
    w &&& 0x0000707F#32 = (0#17 ++ f3 ++ 0#5 ++ op : BitVec 32) ↔
      funct3Of w = f3 ∧ opcodeOf w = op := by
  rw [and_funct3Mask]
  refine (append_inj _ _ _ _).trans (and_congr_left' ?_)
  refine (append_inj _ _ _ _).trans ((and_iff_left rfl).trans ?_)
  exact (append_inj _ _ _ _).trans (and_iff_right rfl)

theorem funct7Mask_iff (w : Word) (f7 : BitVec 7) (f3 : BitVec 3) (op : BitVec 7) :
    w &&& 0xFE00707F#32 = (f7 ++ 0#10 ++ f3 ++ 0#5 ++ op : BitVec 32) ↔
      funct7Of w = f7 ∧ funct3Of w = f3 ∧ opcodeOf w = op := by
  rw [and_funct7Mask, ← and_assoc]
  refine (append_inj _ _ _ _).trans (and_congr_left' ?_)
  refine (append_inj _ _ _ _).trans ((and_iff_left rfl).trans ?_)
  refine (append_inj _ _ _ _).trans (and_congr_left' ?_)
  exact (append_inj _ _ _ _).trans (and_iff_left rfl)

/-! ### What the decoder answers -/

/-- The fields that select an operation (R96 to R100). -/
def FieldsSelect (w : Word) : Op → Prop
  | .add => funct7Of w = 0x00#7 ∧ funct3Of w = 0x0#3 ∧ opcodeOf w = 0x33#7
  | .sub => funct7Of w = 0x20#7 ∧ funct3Of w = 0x0#3 ∧ opcodeOf w = 0x33#7
  | .sll => funct3Of w = 0x1#3 ∧ opcodeOf w = 0x33#7
  | .xor => funct3Of w = 0x4#3 ∧ opcodeOf w = 0x33#7
  | .srl => funct7Of w = 0x00#7 ∧ funct3Of w = 0x5#3 ∧ opcodeOf w = 0x33#7
  | .sra => funct7Of w = 0x20#7 ∧ funct3Of w = 0x5#3 ∧ opcodeOf w = 0x33#7
  | .or => funct3Of w = 0x6#3 ∧ opcodeOf w = 0x33#7
  | .and => funct3Of w = 0x7#3 ∧ opcodeOf w = 0x33#7
  | .addi => funct3Of w = 0x0#3 ∧ opcodeOf w = 0x13#7
  | .lw => funct3Of w = 0x2#3 ∧ opcodeOf w = 0x03#7
  | .sw => opcodeOf w = 0x23#7
  | .lui => opcodeOf w = 0x37#7
  | .auipc => opcodeOf w = 0x17#7
  | .beq => funct3Of w = 0x0#3 ∧ opcodeOf w = 0x63#7
  | .bne => funct3Of w = 0x1#3 ∧ opcodeOf w = 0x63#7
  | .blt => funct3Of w = 0x4#3 ∧ opcodeOf w = 0x63#7
  | .bge => funct3Of w = 0x5#3 ∧ opcodeOf w = 0x63#7
  | .jal => opcodeOf w = 0x6F#7
  | .jalr => funct3Of w = 0x0#3 ∧ opcodeOf w = 0x67#7

/-- The instruction of an operation with the operands of a word. -/
def operandsFrom (w : Word) : Op → Instr
  | .add => .add (rdOf w) (rs1Of w) (rs2Of w)
  | .sub => .sub (rdOf w) (rs1Of w) (rs2Of w)
  | .sll => .sll (rdOf w) (rs1Of w) (rs2Of w)
  | .xor => .xor (rdOf w) (rs1Of w) (rs2Of w)
  | .srl => .srl (rdOf w) (rs1Of w) (rs2Of w)
  | .sra => .sra (rdOf w) (rs1Of w) (rs2Of w)
  | .or => .or (rdOf w) (rs1Of w) (rs2Of w)
  | .and => .and (rdOf w) (rs1Of w) (rs2Of w)
  | .addi => .addi (rdOf w) (rs1Of w) (immIBits w)
  | .lw => .lw (rdOf w) (rs1Of w) (immIBits w)
  | .sw => .sw (rs1Of w) (rs2Of w) (immSBits w)
  | .lui => .lui (rdOf w) (imm20Of w)
  | .auipc => .auipc (rdOf w) (imm20Of w)
  | .beq => .beq (rs1Of w) (rs2Of w) (immBBits w)
  | .bne => .bne (rs1Of w) (rs2Of w) (immBBits w)
  | .blt => .blt (rs1Of w) (rs2Of w) (immBBits w)
  | .bge => .bge (rs1Of w) (rs2Of w) (immBBits w)
  | .jal => .jal (rdOf w) (immJBits w)
  | .jalr => .jalr (rdOf w) (rs1Of w) (immIBits w)

@[simp] theorem operandsFrom_op (w : Word) (o : Op) : (operandsFrom w o).op = o := by
  cases o <;> rfl

theorem operandsFrom_wf (w : Word) (o : Op) : (operandsFrom w o).wf = true := by
  cases o
  case beq | bne | blt | bge => exact evenOffset_immBBits w
  case jal => exact evenOffset_immJBits w
  all_goals rfl

/-- Selecting fields are all the decoder looks at. -/
theorem decode_of_fields {w : Word} {o : Op} (h : FieldsSelect w o) :
    decode w = .instr (operandsFrom w o) := by
  cases o <;> simp only [FieldsSelect] at h <;>
    simp [decode, decodeAlu, decodeBranch, decodeLoad, decodeAluImm, decodeJalr, operandsFrom, h]

theorem decodeAlu_inv {w : Word} {i : Instr} (ho : opcodeOf w = 0x33#7)
    (h : decodeAlu w = .instr i) : FieldsSelect w i.op ∧ i = operandsFrom w i.op := by
  unfold decodeAlu at h
  split at h
  · rename_i h3
    split at h
    · rename_i h7; cases h; exact ⟨⟨h7, h3, ho⟩, rfl⟩
    split at h
    · rename_i h7; cases h; exact ⟨⟨h7, h3, ho⟩, rfl⟩
    · cases h
  split at h
  · rename_i h3; cases h; exact ⟨⟨h3, ho⟩, rfl⟩
  split at h
  · rename_i h3; cases h; exact ⟨⟨h3, ho⟩, rfl⟩
  split at h
  · rename_i h3
    split at h
    · rename_i h7; cases h; exact ⟨⟨h7, h3, ho⟩, rfl⟩
    split at h
    · rename_i h7; cases h; exact ⟨⟨h7, h3, ho⟩, rfl⟩
    · cases h
  split at h
  · rename_i h3; cases h; exact ⟨⟨h3, ho⟩, rfl⟩
  split at h
  · rename_i h3; cases h; exact ⟨⟨h3, ho⟩, rfl⟩
  · cases h

theorem decodeBranch_inv {w : Word} {i : Instr} (ho : opcodeOf w = 0x63#7)
    (h : decodeBranch w = .instr i) : FieldsSelect w i.op ∧ i = operandsFrom w i.op := by
  unfold decodeBranch at h
  split at h
  · rename_i h3; cases h; exact ⟨⟨h3, ho⟩, rfl⟩
  split at h
  · rename_i h3; cases h; exact ⟨⟨h3, ho⟩, rfl⟩
  split at h
  · rename_i h3; cases h; exact ⟨⟨h3, ho⟩, rfl⟩
  split at h
  · rename_i h3; cases h; exact ⟨⟨h3, ho⟩, rfl⟩
  · cases h

/-- The inversion lemma of the decoder: the fields select the operation, and the operands are the
word's. -/
theorem decode_inv {w : Word} {i : Instr} (h : decode w = .instr i) :
    FieldsSelect w i.op ∧ i = operandsFrom w i.op := by
  unfold decode at h
  split at h
  · exact decodeAlu_inv ‹_› h
  split at h
  · unfold decodeLoad at h
    split at h <;> cases h
    exact ⟨⟨‹_›, ‹_›⟩, rfl⟩
  split at h
  · unfold decodeAluImm at h
    split at h <;> cases h
    exact ⟨⟨‹_›, ‹_›⟩, rfl⟩
  split at h
  · unfold decodeJalr at h
    split at h <;> cases h
    exact ⟨⟨‹_›, ‹_›⟩, rfl⟩
  split at h
  · cases h; exact ⟨‹_›, rfl⟩
  split at h
  · cases h; exact ⟨‹_›, rfl⟩
  split at h
  · cases h; exact ⟨‹_›, rfl⟩
  split at h
  · exact decodeBranch_inv ‹_› h
  split at h
  · cases h; exact ⟨‹_›, rfl⟩
  · cases h

/-- The decoder answers well-formed instructions only. -/
theorem decode_wf {w : Word} {i : Instr} (h : decode w = .instr i) : i.wf = true := by
  rw [(decode_inv h).2]
  exact operandsFrom_wf w _

/-! ### The opcode of a built word (R82) -/

section
variable (a b c d e op : Word)

@[simp] theorem opcodeOf_packR : opcodeOf (packR a b c d e op) = op.setWidth 7 := by
  unfold opcodeOf packR
  apply BitVec.eq_of_getLsbD_eq
  intro i hi
  interval_cases i <;> simp

@[simp] theorem opcodeOf_packI : opcodeOf (packI a b c d op) = op.setWidth 7 := by
  unfold opcodeOf packI
  apply BitVec.eq_of_getLsbD_eq
  intro i hi
  interval_cases i <;> simp

@[simp] theorem opcodeOf_packS : opcodeOf (packS a b c d op) = op.setWidth 7 := by
  unfold opcodeOf packS
  apply BitVec.eq_of_getLsbD_eq
  intro i hi
  interval_cases i <;> simp

@[simp] theorem opcodeOf_packU : opcodeOf (packU a b op) = op.setWidth 7 := by
  unfold opcodeOf packU
  apply BitVec.eq_of_getLsbD_eq
  intro i hi
  interval_cases i <;> simp

@[simp] theorem opcodeOf_packB : opcodeOf (packB a b c d op) = op.setWidth 7 := by
  unfold opcodeOf packB
  apply BitVec.eq_of_getLsbD_eq
  intro i hi
  interval_cases i <;> simp

@[simp] theorem opcodeOf_packJ : opcodeOf (packJ a b op) = op.setWidth 7 := by
  unfold opcodeOf packJ
  apply BitVec.eq_of_getLsbD_eq
  intro i hi
  interval_cases i <;> simp
end

end Sys2Proof
end

