-- ==== Sys2Proof/Laws/Memory.lean ====
section
/-! SUPPORT. Memory: a byte written is the byte read, every other byte stays, the canonical form is
kept, and a canonical memory is determined by what it reads as. -/

namespace Sys2Proof.Machine

/-! ### The canonical form -/

theorem Memory.wfFrom_weaken {lo lo' : Nat} (h : lo' ≤ lo) :
    ∀ {m : Memory}, Memory.wfFrom lo m = true → Memory.wfFrom lo' m = true
  | [], _ => rfl
  | (k, b) :: rest, hm => by
    simp only [Memory.wfFrom, Bool.and_eq_true, decide_eq_true_eq] at hm ⊢
    exact ⟨⟨by omega, hm.1.2⟩, hm.2⟩

/-- Below its lower bound a canonical memory lists nothing. -/
theorem Memory.get_below {a : Nat} :
    ∀ {m : Memory} {lo : Nat}, Memory.wfFrom lo m = true → a < lo → m.get a = Memory.unlisted
  | [], _, _, _ => rfl
  | (k, b) :: rest, lo, hm, ha => by
    simp only [Memory.wfFrom, Bool.and_eq_true, decide_eq_true_eq] at hm
    have hk : k ≠ a := by omega
    simp only [Memory.get, if_neg hk]
    exact Memory.get_below hm.2 (by omega)

theorem Memory.wfFrom_cons {lo a : Nat} {v : Byte} {m : Memory} (h : lo ≤ a)
    (hm : Memory.wfFrom (a + 1) m = true) : Memory.wfFrom lo (Memory.cons a v m) = true := by
  unfold Memory.cons
  split
  · exact Memory.wfFrom_weaken (by omega) hm
  · rename_i hv
    simp only [Memory.wfFrom, Bool.and_eq_true, decide_eq_true_eq]
    exact ⟨⟨h, hv⟩, hm⟩

theorem Memory.wfFrom_set (a : Nat) (v : Byte) :
    ∀ {m : Memory} {lo : Nat}, lo ≤ a → Memory.wfFrom lo m = true →
      Memory.wfFrom lo (m.set a v) = true
  | [], lo, ha, _ => Memory.wfFrom_cons ha rfl
  | (k, b) :: rest, lo, ha, hm => by
    have h' := hm
    simp only [Memory.wfFrom, Bool.and_eq_true, decide_eq_true_eq] at h'
    unfold Memory.set
    split
    · refine Memory.wfFrom_cons ha ?_
      simp only [Memory.wfFrom, Bool.and_eq_true, decide_eq_true_eq]
      exact ⟨⟨by omega, h'.1.2⟩, h'.2⟩
    · split
      · rename_i hk
        exact Memory.wfFrom_cons ha (by rw [hk]; exact h'.2)
      · simp only [Memory.wfFrom, Bool.and_eq_true, decide_eq_true_eq]
        exact ⟨h'.1, Memory.wfFrom_set a v (by omega) h'.2⟩

theorem Memory.wf_set {m : Memory} (h : m.wf = true) (a : Nat) (v : Byte) :
    (m.set a v).wf = true :=
  Memory.wfFrom_set a v (Nat.zero_le a) h

/-! ### One byte -/

@[simp] theorem Memory.get_nil (a : Nat) : Memory.get [] a = Memory.unlisted := rfl

theorem Memory.get_cons (a a' : Nat) (v : Byte) (m : Memory) (hm : m.get a = Memory.unlisted) :
    (Memory.cons a v m).get a' = if a' = a then v else m.get a' := by
  unfold Memory.cons
  split
  · rename_i hv
    split
    · rename_i h
      rw [h, hm, hv]
    · rfl
  · simp only [Memory.get, eq_comm]

/-- What a byte reads as after a write (R50, R54). -/
theorem Memory.get_set {a a' : Nat} {v : Byte} :
    ∀ {m : Memory} {lo : Nat}, Memory.wfFrom lo m = true →
      (m.set a v).get a' = if a' = a then v else m.get a'
  | [], _, _ => Memory.get_cons a a' v [] rfl
  | (k, b) :: rest, lo, hm => by
    have h' := hm
    simp only [Memory.wfFrom, Bool.and_eq_true, decide_eq_true_eq] at h'
    unfold Memory.set
    split
    · rename_i hak
      refine Memory.get_cons a a' v _ ?_
      have hk : k ≠ a := by omega
      simp only [Memory.get, if_neg hk]
      exact Memory.get_below h'.2 (by omega)
    · split
      · rename_i hk
        rw [Memory.get_cons a a' v rest (Memory.get_below h'.2 (by omega))]
        by_cases h : a' = a
        · simp [h]
        · have : k ≠ a' := by omega
          simp [Memory.get, h, this]
      · rename_i hlt hne
        simp only [Memory.get, Memory.get_set h'.2]
        by_cases hk : k = a'
        · have : a' ≠ a := by omega
          simp [hk, this]
        · simp [hk]

theorem Memory.get_set_same {m : Memory} (h : m.wf = true) (a : Nat) (v : Byte) :
    (m.set a v).get a = v := by
  rw [Memory.get_set h, if_pos rfl]

theorem Memory.get_set_other {m : Memory} (h : m.wf = true) {a a' : Nat} (hne : a' ≠ a) (v : Byte) :
    (m.set a v).get a' = m.get a' := by
  rw [Memory.get_set h, if_neg hne]

/-- In a canonical memory a listed byte is not what an unlisted address reads as. -/
theorem Memory.head_get {lo k : Nat} {b : Byte} {rest : Memory}
    (h : Memory.wfFrom lo ((k, b) :: rest) = true) :
    lo ≤ k ∧ b ≠ Memory.unlisted ∧ Memory.wfFrom (k + 1) rest = true := by
  simpa [Memory.wfFrom, and_assoc] using h

/-- The canonical form determines a memory: two that read alike everywhere are equal. -/
theorem Memory.ext_get : ∀ {m n : Memory} {lo : Nat}, Memory.wfFrom lo m = true →
    Memory.wfFrom lo n = true → (∀ a, m.get a = n.get a) → m = n
  | [], [], _, _, _, _ => rfl
  | [], (k, b) :: rest, _, _, hn, h => by
    have := (Memory.head_get hn).2.1
    exact absurd (by simpa [Memory.get] using (h k).symm) this
  | (k, b) :: rest, [], _, hm, _, h => by
    have := (Memory.head_get hm).2.1
    exact absurd (by simpa [Memory.get] using h k) this
  | (k, b) :: rest, (l, c) :: more, _, hm, hn, h => by
    obtain ⟨_, hb, hm'⟩ := Memory.head_get hm
    obtain ⟨_, hc, hn'⟩ := Memory.head_get hn
    have hk : k = l := by
      rcases Nat.lt_trichotomy k l with hlt | heq | hlt
      · have h1 : Memory.get ((l, c) :: more) k = Memory.unlisted := by
          simpa [Memory.get, Nat.ne_of_gt hlt] using
            Memory.get_below hn' (Nat.lt_succ_of_lt hlt)
        exact absurd (by simpa [Memory.get] using (h k).trans h1) hb
      · exact heq
      · have h1 : Memory.get ((k, b) :: rest) l = Memory.unlisted := by
          simpa [Memory.get, Nat.ne_of_gt hlt] using
            Memory.get_below hm' (Nat.lt_succ_of_lt hlt)
        exact absurd (by simpa [Memory.get] using (h l).symm.trans h1) hc
    subst hk
    have hbc : b = c := by simpa [Memory.get] using h k
    subst hbc
    have hrest : ∀ a, Memory.get rest a = Memory.get more a := by
      intro a
      by_cases ha : k = a
      · subst ha
        rw [Memory.get_below hm' (Nat.lt_succ_self k), Memory.get_below hn' (Nat.lt_succ_self k)]
      · simpa [Memory.get, ha] using h a
    rw [Memory.ext_get hm' hn' hrest]

/-- Another byte is unchanged by a write whatever the memory is. -/
theorem Memory.get_set_ne {a a' : Nat} (hne : a' ≠ a) (v : Byte) :
    ∀ m : Memory, (m.set a v).get a' = m.get a'
  | [] => by
    unfold Memory.set Memory.cons
    split
    · rfl
    · simp [Memory.get, Ne.symm hne]
  | (k, b) :: rest => by
    unfold Memory.set Memory.cons
    split
    · split
      · rfl
      · simp [Memory.get, Ne.symm hne]
    · split
      · rename_i hk
        have : k ≠ a' := by omega
        split <;> simp [Memory.get, this, Ne.symm hne]
      · simp only [Memory.get, Memory.get_set_ne hne v rest]

/-! ### Several bytes -/

theorem Memory.wf_setBytes : ∀ (bs : List Byte) {m : Memory} (a : Nat), m.wf = true →
    (m.setBytes a bs).wf = true
  | [], _, _, h => h
  | b :: bs, _, a, h => Memory.wf_setBytes bs (a + 1) (Memory.wf_set h a b)

/-- A byte outside the stored ones is unchanged. -/
theorem Memory.get_setBytes_outside : ∀ (bs : List Byte) (m : Memory) (a : Nat) {a' : Nat},
    a' < a ∨ a + bs.length ≤ a' → (m.setBytes a bs).get a' = m.get a'
  | [], _, _, _, _ => rfl
  | b :: bs, m, a, a', h => by
    simp only [List.length_cons] at h
    rw [Memory.setBytes, Memory.get_setBytes_outside bs _ (a + 1) (by omega),
      Memory.get_set_ne (by omega)]

/-- A stored byte reads as stored. -/
theorem Memory.get_setBytes_inside : ∀ (bs : List Byte) {m : Memory} (a : Nat) (i : Nat),
    m.wf = true → (hi : i < bs.length) → (m.setBytes a bs).get (a + i) = bs[i]
  | b :: bs, m, a, 0, h, _ => by
    rw [Memory.setBytes, Memory.get_setBytes_outside bs _ (a + 1) (by omega)]
    simpa using Memory.get_set_same h a b
  | b :: bs, m, a, i + 1, h, hi => by
    have hi' : i < bs.length := by simpa using hi
    have := Memory.get_setBytes_inside bs (a + 1) i (Memory.wf_set h a b) hi'
    rw [Memory.setBytes]
    simpa [Nat.add_assoc, Nat.add_comm 1 i] using this

@[simp] theorem length_bytesOfWord (w : Word) : (bytesOfWord w).length = 4 := rfl

/-! ### Words (R51 to R54) -/

theorem Memory.read32_inBounds {cap a : Nat} (h : inBounds cap a = true) (m : Memory) :
    m.read32 cap a = (m.word a, false) := by
  simp [Memory.read32, h]

theorem Memory.read32_outOfBounds {cap a : Nat} (h : inBounds cap a = false) (m : Memory) :
    m.read32 cap a = (0#32, true) := by
  simp [Memory.read32, h]

theorem Memory.write32_inBounds {cap a : Nat} (h : inBounds cap a = true) (m : Memory) (v : Word) :
    m.write32 cap a v = (m.setBytes a (bytesOfWord v), false) := by
  simp [Memory.write32, h]

theorem Memory.write32_outOfBounds {cap a : Nat} (h : inBounds cap a = false) (m : Memory)
    (v : Word) : m.write32 cap a v = (m, true) := by
  simp [Memory.write32, h]

theorem Memory.read32_oob (m : Memory) (cap a : Nat) :
    (m.read32 cap a).2 = !inBounds cap a := by
  unfold Memory.read32
  split <;> simp_all

theorem Memory.write32_oob (m : Memory) (cap a : Nat) (v : Word) :
    (m.write32 cap a v).2 = !inBounds cap a := by
  unfold Memory.write32
  split <;> simp_all

/-- Everything a word write can do to a byte outside the word. -/
theorem Memory.get_write32_outside (m : Memory) (cap a : Nat) (v : Word) {a' : Nat}
    (h : a' < a ∨ a + 4 ≤ a') : (m.write32 cap a v).1.get a' = m.get a' := by
  unfold Memory.write32
  split
  · exact Memory.get_setBytes_outside _ m a (by simpa using h)
  · rfl

theorem Memory.wf_write32 {m : Memory} (h : m.wf = true) (cap a : Nat) (v : Word) :
    (m.write32 cap a v).1.wf = true := by
  unfold Memory.write32
  split
  · exact Memory.wf_setBytes _ a h
  · exact h

/-! ### Addresses inside the byte array -/

theorem Memory.within_cons {cap a : Nat} (ha : a < cap) (v : Byte) {m : Memory}
    (h : m.within cap = true) : (Memory.cons a v m).within cap = true := by
  unfold Memory.cons
  split
  · exact h
  · simp only [Memory.within, List.all_cons, Bool.and_eq_true, decide_eq_true_eq] at h ⊢
    exact ⟨ha, h⟩

theorem Memory.within_set {cap a : Nat} (ha : a < cap) (v : Byte) :
    ∀ {m : Memory}, m.within cap = true → (m.set a v).within cap = true
  | [], h => Memory.within_cons ha v h
  | (k, b) :: rest, h => by
    have h' := h
    simp only [Memory.within, List.all_cons, Bool.and_eq_true, decide_eq_true_eq] at h'
    unfold Memory.set
    split
    · exact Memory.within_cons ha v h
    · split
      · exact Memory.within_cons ha v h'.2
      · have := Memory.within_set ha v (m := rest) h'.2
        simp only [Memory.within, List.all_cons, Bool.and_eq_true, decide_eq_true_eq] at this ⊢
        exact ⟨h'.1, this⟩

theorem Memory.within_setBytes {cap : Nat} : ∀ (bs : List Byte) {m : Memory} (a : Nat),
    a + bs.length ≤ cap → m.within cap = true → (m.setBytes a bs).within cap = true
  | [], _, _, _, h => h
  | b :: bs, _, a, ha, h => by
    simp only [List.length_cons] at ha
    exact Memory.within_setBytes bs (a + 1) (by omega) (Memory.within_set (by omega) b h)

theorem Memory.within_write32 {cap : Nat} {m : Memory} (h : m.within cap = true) (a : Nat)
    (v : Word) : (m.write32 cap a v).1.within cap = true := by
  unfold Memory.write32
  split
  · rename_i hb
    exact Memory.within_setBytes _ a (by simpa [inBounds] using hb) h
  · exact h

/-! ### Loading keeps the canonical form -/

theorem loadProgram_good {cap : Nat} : ∀ (ws : List Word) {m : Memory} (a : Nat),
    m.wf = true ∧ m.within cap = true →
      (loadProgram cap m a ws).wf = true ∧ (loadProgram cap m a ws).within cap = true
  | [], _, _, h => h
  | w :: ws, _, a, h =>
    loadProgram_good ws (a + 4) ⟨Memory.wf_write32 h.1 cap a w, Memory.within_write32 h.2 a w⟩

theorem loadData_good {cap base : Nat} : ∀ (ds : List StaticDatum) {m : Memory},
    m.wf = true ∧ m.within cap = true →
      (loadData cap base m ds).wf = true ∧ (loadData cap base m ds).within cap = true
  | [], _, h => h
  | _ :: ds, _, h =>
    loadData_good ds ⟨Memory.wf_write32 h.1 cap _ _, Memory.within_write32 h.2 _ _⟩

theorem loadImage_good (cfg : Config) (program : List Word) (data : List StaticDatum) :
    (loadImage cfg program data).wf = true ∧
      (loadImage cfg program data).within cfg.memCapacity.val = true :=
  loadData_good data (loadProgram_good program 0 ⟨rfl, rfl⟩)

end Sys2Proof.Machine
end

