-- ==== Sys2Proof/Laws/State.lean ====
section
/-! SUPPORT. What each update of the state does to each field: one lemma per field per operation. -/

namespace Sys2Proof.Machine

variable (s : State)

/-! ### `State.setPc` -/

@[simp] theorem State.setPc_cfg (t : Word) : (s.setPc t).cfg = s.cfg := rfl
@[simp] theorem State.setPc_regs (t : Word) : (s.setPc t).regs = s.regs := rfl
@[simp] theorem State.setPc_pc (t : Word) : (s.setPc t).pc = t := rfl
@[simp] theorem State.setPc_halted (t : Word) : (s.setPc t).halted = s.halted := rfl
@[simp] theorem State.setPc_error (t : Word) : (s.setPc t).error = s.error := rfl
@[simp] theorem State.setPc_instret (t : Word) : (s.setPc t).instret = s.instret := rfl
@[simp] theorem State.setPc_mem (t : Word) : (s.setPc t).mem = s.mem := rfl
@[simp] theorem State.setPc_out (t : Word) : (s.setPc t).out = s.out := rfl

/-! ### `State.recordAccess` -/

@[simp] theorem State.recordAccess_cfg (a : MemAccess) : (s.recordAccess a).cfg = s.cfg := rfl
@[simp] theorem State.recordAccess_regs (a : MemAccess) : (s.recordAccess a).regs = s.regs := rfl
@[simp] theorem State.recordAccess_pc (a : MemAccess) : (s.recordAccess a).pc = s.pc := rfl
@[simp] theorem State.recordAccess_halted (a : MemAccess) :
    (s.recordAccess a).halted = s.halted := rfl
@[simp] theorem State.recordAccess_error (a : MemAccess) : (s.recordAccess a).error = s.error := rfl
@[simp] theorem State.recordAccess_instret (a : MemAccess) :
    (s.recordAccess a).instret = s.instret := rfl
@[simp] theorem State.recordAccess_mem (a : MemAccess) : (s.recordAccess a).mem = s.mem := rfl
@[simp] theorem State.recordAccess_stepStatus (a : MemAccess) :
    (s.recordAccess a).out.stepStatus = s.out.stepStatus := rfl
@[simp] theorem State.recordAccess_boundsWarn (a : MemAccess) :
    (s.recordAccess a).out.boundsWarn = (s.out.boundsWarn || a.oob) := rfl
@[simp] theorem State.recordAccess_x0WriteDropped (a : MemAccess) :
    (s.recordAccess a).out.x0WriteDropped = s.out.x0WriteDropped := rfl
@[simp] theorem State.recordAccess_memPort (a : MemAccess) :
    (s.recordAccess a).out.memPort = s.out.memPort ++ [a] := rfl

/-! ### `State.withStatus` -/

@[simp] theorem State.withStatus_cfg (st : StepStatus) : (s.withStatus st).cfg = s.cfg := rfl
@[simp] theorem State.withStatus_regs (st : StepStatus) : (s.withStatus st).regs = s.regs := rfl
@[simp] theorem State.withStatus_pc (st : StepStatus) : (s.withStatus st).pc = s.pc := rfl
@[simp] theorem State.withStatus_halted (st : StepStatus) :
    (s.withStatus st).halted = s.halted := rfl
@[simp] theorem State.withStatus_error (st : StepStatus) : (s.withStatus st).error = s.error := rfl
@[simp] theorem State.withStatus_instret (st : StepStatus) :
    (s.withStatus st).instret = s.instret := rfl
@[simp] theorem State.withStatus_mem (st : StepStatus) : (s.withStatus st).mem = s.mem := rfl
@[simp] theorem State.withStatus_stepStatus (st : StepStatus) :
    (s.withStatus st).out.stepStatus = st := rfl
@[simp] theorem State.withStatus_boundsWarn (st : StepStatus) :
    (s.withStatus st).out.boundsWarn = s.out.boundsWarn := rfl
@[simp] theorem State.withStatus_x0WriteDropped (st : StepStatus) :
    (s.withStatus st).out.x0WriteDropped = s.out.x0WriteDropped := rfl
@[simp] theorem State.withStatus_memPort (st : StepStatus) :
    (s.withStatus st).out.memPort = s.out.memPort := rfl

/-! ### `State.raiseError` -/

@[simp] theorem State.raiseError_cfg (st : StepStatus) : (s.raiseError st).cfg = s.cfg := rfl
@[simp] theorem State.raiseError_regs (st : StepStatus) : (s.raiseError st).regs = s.regs := rfl
@[simp] theorem State.raiseError_pc (st : StepStatus) : (s.raiseError st).pc = s.pc := rfl
@[simp] theorem State.raiseError_halted (st : StepStatus) :
    (s.raiseError st).halted = s.halted := rfl
@[simp] theorem State.raiseError_error (st : StepStatus) : (s.raiseError st).error = true := rfl
@[simp] theorem State.raiseError_instret (st : StepStatus) :
    (s.raiseError st).instret = s.instret := rfl
@[simp] theorem State.raiseError_mem (st : StepStatus) : (s.raiseError st).mem = s.mem := rfl
@[simp] theorem State.raiseError_stepStatus (st : StepStatus) :
    (s.raiseError st).out.stepStatus = st := rfl
@[simp] theorem State.raiseError_boundsWarn (st : StepStatus) :
    (s.raiseError st).out.boundsWarn = s.out.boundsWarn := rfl
@[simp] theorem State.raiseError_x0WriteDropped (st : StepStatus) :
    (s.raiseError st).out.x0WriteDropped = s.out.x0WriteDropped := rfl
@[simp] theorem State.raiseError_memPort (st : StepStatus) :
    (s.raiseError st).out.memPort = s.out.memPort := rfl

/-! ### `State.clearPulses` -/

@[simp] theorem State.clearPulses_cfg : s.clearPulses.cfg = s.cfg := rfl
@[simp] theorem State.clearPulses_regs : s.clearPulses.regs = s.regs := rfl
@[simp] theorem State.clearPulses_pc : s.clearPulses.pc = s.pc := rfl
@[simp] theorem State.clearPulses_halted : s.clearPulses.halted = s.halted := rfl
@[simp] theorem State.clearPulses_error : s.clearPulses.error = s.error := rfl
@[simp] theorem State.clearPulses_instret : s.clearPulses.instret = s.instret := rfl
@[simp] theorem State.clearPulses_mem : s.clearPulses.mem = s.mem := rfl
@[simp] theorem State.clearPulses_stepStatus :
    s.clearPulses.out.stepStatus = s.out.stepStatus := rfl
@[simp] theorem State.clearPulses_boundsWarn : s.clearPulses.out.boundsWarn = false := rfl
@[simp] theorem State.clearPulses_x0WriteDropped : s.clearPulses.out.x0WriteDropped = false := rfl
@[simp] theorem State.clearPulses_memPort : s.clearPulses.out.memPort = [] := rfl

/-! ### `State.setHalted` -/

@[simp] theorem State.setHalted_cfg : s.setHalted.cfg = s.cfg := rfl
@[simp] theorem State.setHalted_regs : s.setHalted.regs = s.regs := rfl
@[simp] theorem State.setHalted_pc : s.setHalted.pc = s.pc := rfl
@[simp] theorem State.setHalted_halted : s.setHalted.halted = true := rfl
@[simp] theorem State.setHalted_error : s.setHalted.error = s.error := rfl
@[simp] theorem State.setHalted_instret : s.setHalted.instret = s.instret := rfl
@[simp] theorem State.setHalted_mem : s.setHalted.mem = s.mem := rfl
@[simp] theorem State.setHalted_out : s.setHalted.out = s.out := rfl

/-! ### `State.portRead` -/

@[simp] theorem State.portRead_cfg (addr : Word) : (s.portRead addr).cfg = s.cfg := rfl
@[simp] theorem State.portRead_regs (addr : Word) : (s.portRead addr).regs = s.regs := rfl
@[simp] theorem State.portRead_pc (addr : Word) : (s.portRead addr).pc = s.pc := rfl
@[simp] theorem State.portRead_halted (addr : Word) : (s.portRead addr).halted = s.halted := rfl
@[simp] theorem State.portRead_error (addr : Word) : (s.portRead addr).error = s.error := rfl
@[simp] theorem State.portRead_instret (addr : Word) : (s.portRead addr).instret = s.instret := rfl
@[simp] theorem State.portRead_mem (addr : Word) : (s.portRead addr).mem = s.mem := rfl
@[simp] theorem State.portRead_stepStatus (addr : Word) :
    (s.portRead addr).out.stepStatus = s.out.stepStatus := rfl
@[simp] theorem State.portRead_boundsWarn (addr : Word) :
    (s.portRead addr).out.boundsWarn = (s.out.boundsWarn || (s.loadWord addr).2) := rfl
@[simp] theorem State.portRead_x0WriteDropped (addr : Word) :
    (s.portRead addr).out.x0WriteDropped = s.out.x0WriteDropped := rfl
@[simp] theorem State.portRead_memPort (addr : Word) :
    (s.portRead addr).out.memPort = s.out.memPort ++ [⟨.read, addr, (s.loadWord addr).1, (s.loadWord addr).2⟩] := rfl

/-! ### `State.portWrite` -/

@[simp] theorem State.portWrite_cfg (addr v : Word) : (s.portWrite addr v).cfg = s.cfg := rfl
@[simp] theorem State.portWrite_regs (addr v : Word) : (s.portWrite addr v).regs = s.regs := rfl
@[simp] theorem State.portWrite_pc (addr v : Word) : (s.portWrite addr v).pc = s.pc := rfl
@[simp] theorem State.portWrite_halted (addr v : Word) :
    (s.portWrite addr v).halted = s.halted := rfl
@[simp] theorem State.portWrite_error (addr v : Word) : (s.portWrite addr v).error = s.error := rfl
@[simp] theorem State.portWrite_instret (addr v : Word) :
    (s.portWrite addr v).instret = s.instret := rfl
@[simp] theorem State.portWrite_mem (addr v : Word) :
    (s.portWrite addr v).mem = (s.mem.write32 s.capacity addr.toNat v).1 := rfl
@[simp] theorem State.portWrite_stepStatus (addr v : Word) :
    (s.portWrite addr v).out.stepStatus = s.out.stepStatus := rfl
@[simp] theorem State.portWrite_boundsWarn (addr v : Word) :
    (s.portWrite addr v).out.boundsWarn = (s.out.boundsWarn || (s.mem.write32 s.capacity addr.toNat v).2) := rfl
@[simp] theorem State.portWrite_x0WriteDropped (addr v : Word) :
    (s.portWrite addr v).out.x0WriteDropped = s.out.x0WriteDropped := rfl
@[simp] theorem State.portWrite_memPort (addr v : Word) :
    (s.portWrite addr v).out.memPort = s.out.memPort ++ [⟨.write, addr, v, (s.mem.write32 s.capacity addr.toNat v).2⟩] := rfl

/-! ### `State.afterFetch` -/

@[simp] theorem State.afterFetch_cfg : s.afterFetch.cfg = s.cfg := rfl
@[simp] theorem State.afterFetch_regs : s.afterFetch.regs = s.regs := rfl
@[simp] theorem State.afterFetch_pc : s.afterFetch.pc = s.pc + 4#32 := rfl
@[simp] theorem State.afterFetch_halted : s.afterFetch.halted = s.halted := rfl
@[simp] theorem State.afterFetch_error : s.afterFetch.error = s.error := rfl
@[simp] theorem State.afterFetch_instret : s.afterFetch.instret = s.instret := rfl
@[simp] theorem State.afterFetch_mem : s.afterFetch.mem = s.mem := rfl
@[simp] theorem State.afterFetch_stepStatus : s.afterFetch.out.stepStatus = s.out.stepStatus := rfl
@[simp] theorem State.afterFetch_boundsWarn :
    s.afterFetch.out.boundsWarn = (s.out.boundsWarn || (s.loadWord s.pc).2) := rfl
@[simp] theorem State.afterFetch_x0WriteDropped :
    s.afterFetch.out.x0WriteDropped = s.out.x0WriteDropped := rfl
@[simp] theorem State.afterFetch_memPort :
    s.afterFetch.out.memPort = s.out.memPort ++ [⟨.read, s.pc, (s.loadWord s.pc).1, (s.loadWord s.pc).2⟩] := rfl

/-! ### `State.resetEvent` -/

@[simp] theorem State.resetEvent_cfg : s.resetEvent.cfg = s.cfg := rfl
@[simp] theorem State.resetEvent_regs : s.resetEvent.regs = Vector.replicate 32 0#32 := rfl
@[simp] theorem State.resetEvent_pc : s.resetEvent.pc = 0#32 := rfl
@[simp] theorem State.resetEvent_halted : s.resetEvent.halted = false := rfl
@[simp] theorem State.resetEvent_error : s.resetEvent.error = false := rfl
@[simp] theorem State.resetEvent_instret : s.resetEvent.instret = 0 := rfl
@[simp] theorem State.resetEvent_mem : s.resetEvent.mem = s.mem := rfl
@[simp] theorem State.resetEvent_out : s.resetEvent.out = Outputs.idle := rfl

/-! ### `State.writeReg` -/

@[simp] theorem State.writeReg_cfg (i : RegIdx) (v : Word) : (s.writeReg i v).cfg = s.cfg := by
  unfold State.writeReg; split <;> rfl
@[simp] theorem State.writeReg_pc (i : RegIdx) (v : Word) : (s.writeReg i v).pc = s.pc := by
  unfold State.writeReg; split <;> rfl
@[simp] theorem State.writeReg_halted (i : RegIdx) (v : Word) : (s.writeReg i v).halted = s.halted := by
  unfold State.writeReg; split <;> rfl
@[simp] theorem State.writeReg_error (i : RegIdx) (v : Word) : (s.writeReg i v).error = s.error := by
  unfold State.writeReg; split <;> rfl
@[simp] theorem State.writeReg_instret (i : RegIdx) (v : Word) : (s.writeReg i v).instret = s.instret := by
  unfold State.writeReg; split <;> rfl
@[simp] theorem State.writeReg_mem (i : RegIdx) (v : Word) : (s.writeReg i v).mem = s.mem := by
  unfold State.writeReg; split <;> rfl
@[simp] theorem State.writeReg_stepStatus (i : RegIdx) (v : Word) :
    (s.writeReg i v).out.stepStatus = s.out.stepStatus := by
  unfold State.writeReg; split <;> rfl
@[simp] theorem State.writeReg_boundsWarn (i : RegIdx) (v : Word) :
    (s.writeReg i v).out.boundsWarn = s.out.boundsWarn := by
  unfold State.writeReg; split <;> rfl
@[simp] theorem State.writeReg_memPort (i : RegIdx) (v : Word) :
    (s.writeReg i v).out.memPort = s.out.memPort := by
  unfold State.writeReg; split <;> rfl

theorem State.writeReg_zero (v : Word) :
    s.writeReg 0#5 v = { s with out := { s.out with x0WriteDropped := true } } := rfl

theorem State.writeReg_of_ne {i : RegIdx} (h : i ≠ 0#5) (v : Word) :
    s.writeReg i v = { s with regs := s.regs.set i.toNat v i.isLt } := by
  unfold State.writeReg
  rw [if_neg h]

/-! ### `State.complete` -/

@[simp] theorem State.complete_cfg : s.complete.cfg = s.cfg := by
  unfold State.complete; split <;> rfl
@[simp] theorem State.complete_regs : s.complete.regs = s.regs := by
  unfold State.complete; split <;> rfl
@[simp] theorem State.complete_pc : s.complete.pc = s.pc := by
  unfold State.complete; split <;> rfl
@[simp] theorem State.complete_halted : s.complete.halted = s.halted := by
  unfold State.complete; split <;> rfl
@[simp] theorem State.complete_error : s.complete.error = s.error := by
  unfold State.complete; split <;> rfl
@[simp] theorem State.complete_mem : s.complete.mem = s.mem := by
  unfold State.complete; split <;> rfl
@[simp] theorem State.complete_boundsWarn : s.complete.out.boundsWarn = s.out.boundsWarn := by
  unfold State.complete; split <;> rfl
@[simp] theorem State.complete_x0WriteDropped : s.complete.out.x0WriteDropped = s.out.x0WriteDropped := by
  unfold State.complete; split <;> rfl
@[simp] theorem State.complete_memPort : s.complete.out.memPort = s.out.memPort := by
  unfold State.complete; split <;> rfl

theorem State.complete_of_error (h : s.error = true) : s.complete = s := by
  simp [State.complete, h]

theorem State.complete_of_ok (h : s.error = false) :
    s.complete = { s with instret := s.instret + 1 }.withStatus .ok := by
  simp [State.complete, h]

/-! ### What reads only some fields -/

theorem State.readReg_congr {s t : State} (h : t.regs = s.regs) (i : RegIdx) :
    t.readReg i = s.readReg i := by
  simp only [State.readReg, h]

theorem State.capacity_congr {s t : State} (h : t.cfg = s.cfg) : t.capacity = s.capacity := by
  simp only [State.capacity, h]

theorem State.dataOffset_congr {s t : State} (h : t.cfg = s.cfg) : t.dataOffset = s.dataOffset := by
  simp only [State.dataOffset, h]

theorem State.loadWord_congr {s t : State} (hc : t.cfg = s.cfg) (hm : t.mem = s.mem) (a : Word) :
    t.loadWord a = s.loadWord a := by
  simp only [State.loadWord, State.capacity, hc, hm]

theorem State.haltTest_congr {s t : State} (hc : t.cfg = s.cfg) (hp : t.pc = s.pc) :
    t.haltTest = s.haltTest := by
  unfold State.haltTest State.dataOffset
  rw [hc, hp]

end Sys2Proof.Machine
end

