-- ==== Sys2Proof/Laws/Ops.lean ====
section
/-! SUPPORT. One lemma per shared operation: what the register ports and the memory port do. -/

namespace Sys2Proof.Machine

/-! ### Registers (R22, R23) -/

@[simp] theorem State.readReg_zero (s : State) : s.readReg 0#5 = 0#32 := rfl

theorem State.readReg_of_ne (s : State) {i : RegIdx} (h : i ≠ 0#5) :
    s.readReg i = s.regs[i.toNat]'i.isLt := by
  unfold State.readReg
  rw [if_neg h]

/-- Everything a writeback does to a register read (R22, R23). -/
theorem State.readReg_writeReg (s : State) (i j : RegIdx) (v : Word) :
    (s.writeReg i v).readReg j = if j = i ∧ i ≠ 0#5 then v else s.readReg j := by
  by_cases hi : i = 0#5
  · subst hi
    simp [State.writeReg_zero, State.readReg]
  · by_cases hj : j = 0#5
    · subst hj
      have : ¬ (0#5 = i ∧ i ≠ 0#5) := fun h => h.2 h.1.symm
      rw [if_neg this]
      simp
    · rw [State.readReg_of_ne _ hj, State.readReg_of_ne _ hj, State.writeReg_of_ne s hi v]
      simp only [Vector.getElem_set]
      by_cases hij : j = i
      · simp [hij, hi]
      · have : ¬ i.toNat = j.toNat := fun h => hij (BitVec.eq_of_toNat_eq h.symm)
        simp [hij, this]

theorem State.readReg_writeReg_same (s : State) {i : RegIdx} (h : i ≠ 0#5) (v : Word) :
    (s.writeReg i v).readReg i = v := by
  rw [State.readReg_writeReg, if_pos ⟨rfl, h⟩]

theorem State.readReg_writeReg_other (s : State) {i j : RegIdx} (h : j ≠ i) (v : Word) :
    (s.writeReg i v).readReg j = s.readReg j := by
  rw [State.readReg_writeReg, if_neg fun h' => h h'.1]

/-- A writeback to x0 changes no register (R22). -/
@[simp] theorem State.readReg_writeReg_zero (s : State) (j : RegIdx) (v : Word) :
    (s.writeReg 0#5 v).readReg j = s.readReg j := by
  rw [State.readReg_writeReg, if_neg fun h' => h'.2 rfl]

section
variable (s : State) (i : RegIdx)

@[simp] theorem State.readReg_setPc (t : Word) : (s.setPc t).readReg i = s.readReg i := rfl
@[simp] theorem State.readReg_portRead (a : Word) : (s.portRead a).readReg i = s.readReg i := rfl
@[simp] theorem State.readReg_portWrite (a v : Word) :
    (s.portWrite a v).readReg i = s.readReg i := rfl
@[simp] theorem State.readReg_withStatus (st : StepStatus) :
    (s.withStatus st).readReg i = s.readReg i := rfl
@[simp] theorem State.readReg_raiseError (st : StepStatus) :
    (s.raiseError st).readReg i = s.readReg i := rfl
@[simp] theorem State.readReg_clearPulses : s.clearPulses.readReg i = s.readReg i := rfl
@[simp] theorem State.readReg_setHalted : s.setHalted.readReg i = s.readReg i := rfl
@[simp] theorem State.readReg_afterFetch : s.afterFetch.readReg i = s.readReg i := rfl
@[simp] theorem State.readReg_complete : s.complete.readReg i = s.readReg i :=
  State.readReg_congr (State.complete_regs s) i

theorem State.readReg_resetEvent : s.resetEvent.readReg i = 0#32 := by
  unfold State.readReg
  split
  · rfl
  · simp
end

/-- The hard-wired register stays 0 in storage under a writeback. -/
theorem State.zeroSlot_writeReg (s : State) (i : RegIdx) (v : Word) :
    (s.writeReg i v).regs[0] = s.regs[0] := by
  by_cases h : i = 0#5
  · subst h
    rfl
  · have : i.toNat ≠ 0 := fun h' => h (BitVec.eq_of_toNat_eq h')
    simp [State.writeReg_of_ne s h v, this]

/-! ### The halt test (R122) -/

theorem State.haltTest_iff (s : State) :
    s.haltTest = true ↔
      4 * s.cfg.instructionCount.val ≤ s.pc.toNat ∨ s.cfg.memCapacity.val ≤ s.pc.toNat := by
  unfold State.haltTest State.dataOffset
  rw [Bool.or_eq_true, decide_eq_true_iff, decide_eq_true_iff]

theorem State.haltTest_false_iff (s : State) :
    s.haltTest = false ↔
      s.pc.toNat < 4 * s.cfg.instructionCount.val ∧ s.pc.toNat < s.cfg.memCapacity.val := by
  rw [← Bool.not_eq_true, State.haltTest_iff]
  omega

/-! ### The memory port (R53 to R56) -/

theorem State.inBounds_iff (s : State) (a : Word) :
    inBounds s.capacity a.toNat = true ↔ a.toNat + 4 ≤ s.cfg.memCapacity.val := by
  unfold inBounds State.capacity
  rw [decide_eq_true_iff]

/-- A read is out of bounds exactly when its four bytes do not all exist (R52, R53). -/
theorem State.loadWord_oob_iff (s : State) (a : Word) :
    (s.loadWord a).2 = true ↔ s.cfg.memCapacity.val < a.toNat + 4 := by
  have h := State.inBounds_iff s a
  rw [show (s.loadWord a).2 = !inBounds s.capacity a.toNat from
    Memory.read32_oob s.mem s.capacity a.toNat, Bool.not_eq_true', ← Bool.not_eq_true, h]
  omega


theorem State.loadWord_inBounds (s : State) {a : Word} (h : inBounds s.capacity a.toNat = true) :
    s.loadWord a = (s.mem.word a.toNat, false) :=
  Memory.read32_inBounds h s.mem

theorem State.loadWord_outOfBounds (s : State) {a : Word}
    (h : inBounds s.capacity a.toNat = false) : s.loadWord a = (0#32, true) :=
  Memory.read32_outOfBounds h s.mem

theorem State.loadWord_oob (s : State) (a : Word) :
    (s.loadWord a).2 = !inBounds s.capacity a.toNat :=
  Memory.read32_oob s.mem s.capacity a.toNat

/-- An access raises ExecuteError exactly when it is out of bounds under `escalate` (R55, R56). -/
theorem State.escalates_iff (s : State) (oob : Bool) :
    s.escalates oob = true ↔ oob = true ∧ s.cfg.boundsPolicy = .escalate := by
  simp [State.escalates]

theorem State.escalates_congr {s t : State} (h : t.cfg = s.cfg) (oob : Bool) :
    t.escalates oob = s.escalates oob := by
  unfold State.escalates
  rw [h]

end Sys2Proof.Machine
end

