-- ==== Sys2Proof/Laws/Exec.lean ====
section
/-! SUPPORT. What phase 5 does: one equation per meaning, and one inversion lemma that says once
everything an instruction can do to the state. -/

namespace Sys2Proof.Machine

/-! ### One equation per shared meaning -/

theorem execAlu_eq (op : AluOp) (rd rs1 rs2 : RegIdx) (s : State) :
    execAlu op rd rs1 rs2 s = .next (s.writeReg rd (alu op (s.readReg rs1) (s.readReg rs2))) := rfl

theorem execBranch_taken {c : Cond} {rs1 rs2 : RegIdx} {s : State}
    (h : c.holds (s.readReg rs1) (s.readReg rs2) = true) (off : BitVec 13) :
    execBranch c rs1 rs2 off s = .next (s.setPc (s.branchTarget off)) := by
  simp [execBranch, h]

theorem execBranch_notTaken {c : Cond} {rs1 rs2 : RegIdx} {s : State}
    (h : c.holds (s.readReg rs1) (s.readReg rs2) = false) (off : BitVec 13) :
    execBranch c rs1 rs2 off s = .next s := by
  simp [execBranch, h]

theorem execLw_raises {rd rs1 : RegIdx} {imm : BitVec 12} {s : State}
    (h : s.escalates (s.loadWord (s.effAddr rs1 imm)).2 = true) :
    execLw rd rs1 imm s = .next (s.portRead (s.effAddr rs1 imm)).raiseExecuteError := by
  unfold execLw
  exact if_pos h

theorem execLw_loads {rd rs1 : RegIdx} {imm : BitVec 12} {s : State}
    (h : s.escalates (s.loadWord (s.effAddr rs1 imm)).2 = false) :
    execLw rd rs1 imm s =
      .next ((s.portRead (s.effAddr rs1 imm)).writeReg rd (s.loadWord (s.effAddr rs1 imm)).1) := by
  unfold execLw
  exact if_neg (by simp [h])

theorem execSw_raises {rs1 rs2 : RegIdx} {imm : BitVec 12} {s : State}
    (h : s.escalates (s.mem.write32 s.capacity (s.effAddr rs1 imm).toNat (s.readReg rs2)).2 = true) :
    execSw rs1 rs2 imm s =
      .next (s.portWrite (s.effAddr rs1 imm) (s.readReg rs2)).raiseExecuteError := by
  unfold execSw
  exact if_pos h

theorem execSw_stores {rs1 rs2 : RegIdx} {imm : BitVec 12} {s : State}
    (h : s.escalates (s.mem.write32 s.capacity (s.effAddr rs1 imm).toNat (s.readReg rs2)).2 = false) :
    execSw rs1 rs2 imm s = .next (s.portWrite (s.effAddr rs1 imm) (s.readReg rs2)) := by
  unfold execSw
  exact if_neg (by simp [h])

/-! ### Inversion: everything phase 5 can do -/

/-- The next state of an instruction, by shape. -/
inductive ExecShape (i : Instr) (s : State) : State → Prop where
  /-- A writeback and nothing else (R154, R170, R185, R186). -/
  | writes (rd : RegIdx) (v : Word) (hd : dest? i = some rd) (hs : storeAddr? s i = none)
      (hp : (control i.op).pcSource = .sequential) (hm : (control i.op).memory = .none) :
      ExecShape i s (s.writeReg rd v)
  /-- A load that goes on (R176). -/
  | loads (rd rs1 : RegIdx) (imm : BitVec 12) (hi : i = .lw rd rs1 imm)
      (he : s.escalates (s.loadWord (s.effAddr rs1 imm)).2 = false) :
      ExecShape i s ((s.portRead (s.effAddr rs1 imm)).writeReg rd (s.loadWord (s.effAddr rs1 imm)).1)
  /-- A load that raises (R176, R56). -/
  | loadRaises (rd rs1 : RegIdx) (imm : BitVec 12) (hi : i = .lw rd rs1 imm)
      (he : s.escalates (s.loadWord (s.effAddr rs1 imm)).2 = true) :
      ExecShape i s (s.portRead (s.effAddr rs1 imm)).raiseExecuteError
  /-- A store that goes on (R177). -/
  | stores (rs1 rs2 : RegIdx) (imm : BitVec 12) (hi : i = .sw rs1 rs2 imm)
      (he : s.escalates
        (s.mem.write32 s.capacity (s.effAddr rs1 imm).toNat (s.readReg rs2)).2 = false) :
      ExecShape i s (s.portWrite (s.effAddr rs1 imm) (s.readReg rs2))
  /-- A store that raises (R177, R56). -/
  | storeRaises (rs1 rs2 : RegIdx) (imm : BitVec 12) (hi : i = .sw rs1 rs2 imm)
      (he : s.escalates
        (s.mem.write32 s.capacity (s.effAddr rs1 imm).toNat (s.readReg rs2)).2 = true) :
      ExecShape i s (s.portWrite (s.effAddr rs1 imm) (s.readReg rs2)).raiseExecuteError
  /-- A branch not taken (R190). -/
  | stays (hp : (control i.op).pcSource = .branch) : ExecShape i s s
  /-- A branch taken (R190). -/
  | branches (off : BitVec 13) (hp : (control i.op).pcSource = .branch)
      (ho : i.wf = true → evenOffset off = true) : ExecShape i s (s.setPc (s.branchTarget off))
  /-- JAL (R200). -/
  | jumps (rd : RegIdx) (off : BitVec 21) (hi : i = .jal rd off) :
      ExecShape i s ((s.writeReg rd s.linkValue).setPc (s.jalTarget off))
  /-- JALR (R201). -/
  | jumpsReg (rd rs1 : RegIdx) (imm : BitVec 12) (hi : i = .jalr rd rs1 imm) :
      ExecShape i s ((s.writeReg rd s.linkValue).setPc (s.jalrTarget rs1 imm))

theorem execBranch_shape {i : Instr} {c : Cond} {rs1 rs2 : RegIdx} {off : BitVec 13} {s : State}
    (hp : (control i.op).pcSource = .branch) (ho : i.wf = true → evenOffset off = true) :
    ∃ t, execBranch c rs1 rs2 off s = .next t ∧ ExecShape i s t := by
  cases h : c.holds (s.readReg rs1) (s.readReg rs2) with
  | true => exact ⟨_, execBranch_taken h off, .branches off hp ho⟩
  | false => exact ⟨_, execBranch_notTaken h off, .stays hp⟩

/-- Phase 5 always answers a next state, of one of the shapes (R120, R126). -/
theorem exec_shape (i : Instr) (s : State) : ∃ t, exec i s = .next t ∧ ExecShape i s t := by
  cases i with
  | add rd rs1 rs2 => exact ⟨_, rfl, .writes rd _ rfl rfl rfl rfl⟩
  | sub rd rs1 rs2 => exact ⟨_, rfl, .writes rd _ rfl rfl rfl rfl⟩
  | sll rd rs1 rs2 => exact ⟨_, rfl, .writes rd _ rfl rfl rfl rfl⟩
  | xor rd rs1 rs2 => exact ⟨_, rfl, .writes rd _ rfl rfl rfl rfl⟩
  | srl rd rs1 rs2 => exact ⟨_, rfl, .writes rd _ rfl rfl rfl rfl⟩
  | sra rd rs1 rs2 => exact ⟨_, rfl, .writes rd _ rfl rfl rfl rfl⟩
  | or rd rs1 rs2 => exact ⟨_, rfl, .writes rd _ rfl rfl rfl rfl⟩
  | and rd rs1 rs2 => exact ⟨_, rfl, .writes rd _ rfl rfl rfl rfl⟩
  | addi rd rs1 imm => exact ⟨_, rfl, .writes rd _ rfl rfl rfl rfl⟩
  | lw rd rs1 imm =>
    cases h : s.escalates (s.loadWord (s.effAddr rs1 imm)).2 with
    | true => exact ⟨_, execLw_raises h, .loadRaises rd rs1 imm rfl h⟩
    | false => exact ⟨_, execLw_loads h, .loads rd rs1 imm rfl h⟩
  | sw rs1 rs2 imm =>
    cases h : s.escalates
        (s.mem.write32 s.capacity (s.effAddr rs1 imm).toNat (s.readReg rs2)).2 with
    | true => exact ⟨_, execSw_raises h, .storeRaises rs1 rs2 imm rfl h⟩
    | false => exact ⟨_, execSw_stores h, .stores rs1 rs2 imm rfl h⟩
  | lui rd imm20 => exact ⟨_, rfl, .writes rd _ rfl rfl rfl rfl⟩
  | auipc rd imm20 => exact ⟨_, rfl, .writes rd _ rfl rfl rfl rfl⟩
  | beq rs1 rs2 off => exact execBranch_shape rfl id
  | bne rs1 rs2 off => exact execBranch_shape rfl id
  | blt rs1 rs2 off => exact execBranch_shape rfl id
  | bge rs1 rs2 off => exact execBranch_shape rfl id
  | jal rd off => exact ⟨_, rfl, .jumps rd off rfl⟩
  | jalr rd rs1 imm => exact ⟨_, rfl, .jumpsReg rd rs1 imm rfl⟩

/-- The inversion lemma: a next state of phase 5 has one of the shapes. -/
theorem exec_inv {i : Instr} {s t : State} (h : exec i s = .next t) : ExecShape i s t := by
  obtain ⟨u, hu, hs⟩ := exec_shape i s
  rw [h] at hu
  cases hu
  exact hs

end Sys2Proof.Machine
end

