-- ==== Sys2Proof/Laws/PerInstr.lean ====
section
/-! SUPPORT. The statement families made per instruction (LAWS.json): one lemma per constructor. -/

namespace Sys2Proof.Laws.FormatOfWord

/-- The format that the low seven bits of an instruction's word select is the instruction's own
(R81). -/
def Statement (i : Instr) : Prop := decodeFormat (encode i) = some i.op.format

/-- The format of a word is that of any word with its opcode. -/
theorem ofOpcode {i : Instr} (v : Word) (h : opcodeOf (encode i) = opcodeOf v)
    (hf : decodeFormat v = some i.op.format) : Statement i := by
  unfold Statement
  rw [← hf]
  unfold decodeFormat
  rw [h]

theorem add (rd : RegIdx) (rs1 : RegIdx) (rs2 : RegIdx) : Statement (.add rd rs1 rs2) :=
  ofOpcode 0x33#32 (opcodeOf_packR _ _ _ _ _ _) rfl

theorem sub (rd : RegIdx) (rs1 : RegIdx) (rs2 : RegIdx) : Statement (.sub rd rs1 rs2) :=
  ofOpcode 0x33#32 (opcodeOf_packR _ _ _ _ _ _) rfl

theorem sll (rd : RegIdx) (rs1 : RegIdx) (rs2 : RegIdx) : Statement (.sll rd rs1 rs2) :=
  ofOpcode 0x33#32 (opcodeOf_packR _ _ _ _ _ _) rfl

theorem xor (rd : RegIdx) (rs1 : RegIdx) (rs2 : RegIdx) : Statement (.xor rd rs1 rs2) :=
  ofOpcode 0x33#32 (opcodeOf_packR _ _ _ _ _ _) rfl

theorem srl (rd : RegIdx) (rs1 : RegIdx) (rs2 : RegIdx) : Statement (.srl rd rs1 rs2) :=
  ofOpcode 0x33#32 (opcodeOf_packR _ _ _ _ _ _) rfl

theorem sra (rd : RegIdx) (rs1 : RegIdx) (rs2 : RegIdx) : Statement (.sra rd rs1 rs2) :=
  ofOpcode 0x33#32 (opcodeOf_packR _ _ _ _ _ _) rfl

theorem or (rd : RegIdx) (rs1 : RegIdx) (rs2 : RegIdx) : Statement (.or rd rs1 rs2) :=
  ofOpcode 0x33#32 (opcodeOf_packR _ _ _ _ _ _) rfl

theorem and (rd : RegIdx) (rs1 : RegIdx) (rs2 : RegIdx) : Statement (.and rd rs1 rs2) :=
  ofOpcode 0x33#32 (opcodeOf_packR _ _ _ _ _ _) rfl

theorem addi (rd : RegIdx) (rs1 : RegIdx) (imm : BitVec 12) : Statement (.addi rd rs1 imm) :=
  ofOpcode 0x13#32 (opcodeOf_packI _ _ _ _ _) rfl

theorem lw (rd : RegIdx) (rs1 : RegIdx) (imm : BitVec 12) : Statement (.lw rd rs1 imm) :=
  ofOpcode 0x03#32 (opcodeOf_packI _ _ _ _ _) rfl

theorem sw (rs1 : RegIdx) (rs2 : RegIdx) (imm : BitVec 12) : Statement (.sw rs1 rs2 imm) :=
  ofOpcode 0x23#32 (opcodeOf_packS _ _ _ _ _) rfl

theorem lui (rd : RegIdx) (imm20 : BitVec 20) : Statement (.lui rd imm20) :=
  ofOpcode 0x37#32 (opcodeOf_packU _ _ _) rfl

theorem auipc (rd : RegIdx) (imm20 : BitVec 20) : Statement (.auipc rd imm20) :=
  ofOpcode 0x17#32 (opcodeOf_packU _ _ _) rfl

theorem beq (rs1 : RegIdx) (rs2 : RegIdx) (off : BitVec 13) : Statement (.beq rs1 rs2 off) :=
  ofOpcode 0x63#32 (opcodeOf_packB _ _ _ _ _) rfl

theorem bne (rs1 : RegIdx) (rs2 : RegIdx) (off : BitVec 13) : Statement (.bne rs1 rs2 off) :=
  ofOpcode 0x63#32 (opcodeOf_packB _ _ _ _ _) rfl

theorem blt (rs1 : RegIdx) (rs2 : RegIdx) (off : BitVec 13) : Statement (.blt rs1 rs2 off) :=
  ofOpcode 0x63#32 (opcodeOf_packB _ _ _ _ _) rfl

theorem bge (rs1 : RegIdx) (rs2 : RegIdx) (off : BitVec 13) : Statement (.bge rs1 rs2 off) :=
  ofOpcode 0x63#32 (opcodeOf_packB _ _ _ _ _) rfl

theorem jal (rd : RegIdx) (off : BitVec 21) : Statement (.jal rd off) :=
  ofOpcode 0x6F#32 (opcodeOf_packJ _ _ _) rfl

theorem jalr (rd : RegIdx) (rs1 : RegIdx) (imm : BitVec 12) : Statement (.jalr rd rs1 imm) :=
  ofOpcode 0x67#32 (opcodeOf_packI _ _ _ _ _) rfl

end Sys2Proof.Laws.FormatOfWord
end

