-- ==== Sys2Proof/Laws/Step.lean ====
section
/-! SUPPORT. What a step does: one inversion lemma over the six phases. -/

namespace Sys2Proof.Machine

/-- The next state of a step, by the phase that ends it (R120, R219). -/
inductive StepShape (s : State) : State → Prop where
  /-- Phase 1 on an Errored machine (R121). -/
  | refuses (he : s.error = true) : StepShape s (s.clearPulses.withStatus .refused)
  /-- Phase 1 on a Halted machine (R121). -/
  | idles (he : s.error = false) (hh : s.halted = true) :
      StepShape s (s.clearPulses.withStatus .halt)
  /-- Phase 2 (R122). -/
  | halts (he : s.error = false) (hh : s.halted = false) (ht : s.haltTest = true) :
      StepShape s (s.clearPulses.setHalted.withStatus .halt)
  /-- Phase 3 raises (R124, R56). -/
  | fetchRaises (he : s.error = false) (hh : s.halted = false) (ht : s.haltTest = false)
      (hf : s.escalates (s.loadWord s.pc).2 = true) :
      StepShape s s.clearPulses.afterFetch.raiseExecuteError
  /-- Phase 4 raises (R125). -/
  | illegal (why : Illegal) (he : s.error = false) (hh : s.halted = false)
      (ht : s.haltTest = false) (hf : s.escalates (s.loadWord s.pc).2 = false)
      (hd : decode (s.loadWord s.pc).1 = .illegal why) :
      StepShape s s.clearPulses.afterFetch.raiseDecodeError
  /-- Phases 5 and 6 (R126, R127). -/
  | runs (i : Instr) (u : State) (he : s.error = false) (hh : s.halted = false)
      (ht : s.haltTest = false) (hf : s.escalates (s.loadWord s.pc).2 = false)
      (hd : decode (s.loadWord s.pc).1 = .instr i)
      (hx : exec i s.clearPulses.afterFetch = .next u) : StepShape s u.complete

theorem step_eq_refused {s : State} (he : s.error = true) :
    step s = .next (s.clearPulses.withStatus .refused) := by
  simp [step, cycle, he]

theorem step_eq_idle {s : State} (he : s.error = false) (hh : s.halted = true) :
    step s = .next (s.clearPulses.withStatus .halt) := by
  simp [step, cycle, he, hh]

theorem step_eq_halt {s : State} (he : s.error = false) (hh : s.halted = false)
    (ht : s.haltTest = true) : step s = .next (s.clearPulses.setHalted.withStatus .halt) := by
  simp [step, cycle, he, hh, ht]

/-- A Running state whose halt test is false fetches (R122, R123). -/
theorem step_eq_fetch {s : State} (he : s.error = false) (hh : s.halted = false)
    (ht : s.haltTest = false) : step s = fetchAndRun s.clearPulses := by
  simp [step, cycle, he, hh, ht]

theorem fetchAndRun_raises {s : State} (hf : s.escalates (s.loadWord s.pc).2 = true) :
    fetchAndRun s = .next s.afterFetch.raiseExecuteError := by
  unfold fetchAndRun
  exact if_pos hf

theorem fetchAndRun_decodes {s : State} (hf : s.escalates (s.loadWord s.pc).2 = false) :
    fetchAndRun s = decodeAndRun (s.loadWord s.pc).1 s.afterFetch := by
  unfold fetchAndRun
  exact if_neg (by simp [hf])

/-- A step always answers a next state, of one of the shapes (R120). -/
theorem step_shape (s : State) : ∃ t, step s = .next t ∧ StepShape s t := by
  cases he : s.error with
  | true => exact ⟨_, step_eq_refused he, .refuses he⟩
  | false =>
    cases hh : s.halted with
    | true => exact ⟨_, step_eq_idle he hh, .idles he hh⟩
    | false =>
      cases ht : s.haltTest with
      | true => exact ⟨_, step_eq_halt he hh ht, .halts he hh ht⟩
      | false =>
        rw [step_eq_fetch he hh ht]
        cases hf : s.escalates (s.loadWord s.pc).2 with
        | true => exact ⟨_, fetchAndRun_raises (s := s.clearPulses) hf, .fetchRaises he hh ht hf⟩
        | false =>
          rw [fetchAndRun_decodes (s := s.clearPulses) hf]
          change ∃ t, decodeAndRun (s.loadWord s.pc).1 s.clearPulses.afterFetch = .next t ∧ _
          unfold decodeAndRun
          cases hd : decode (s.loadWord s.pc).1 with
          | illegal why => exact ⟨_, rfl, .illegal why he hh ht hf hd⟩
          | instr i =>
            obtain ⟨u, hu, _⟩ := exec_shape i s.clearPulses.afterFetch
            simp only [hu, finish]
            exact ⟨_, rfl, .runs i u he hh ht hf hd hu⟩

/-- The inversion lemma of a step. -/
theorem step_inv {s t : State} (h : step s = .next t) : StepShape s t := by
  obtain ⟨u, hu, hs⟩ := step_shape s
  rw [h] at hu
  cases hu
  exact hs

end Sys2Proof.Machine
end

