-- ==== Sys2Proof/Tests/Slice0.lean ====
section
/-! SUPPORT. Tests of the model against the vectors of spec 95_test_vectors.md (every expected value
is copied from there or computed by hand from a rule), and, for every obligation with hypotheses, a
witness that meets them. -/

namespace Sys2Proof.Tests
open Sys2Proof.Machine Sys2Proof.Claims

/-! ### Small states -/

def config (policy : BoundsPolicy) (cap : Fin (2 ^ 32 + 1)) (count : Fin (2 ^ 30)) : Config :=
  { memCapacity := cap, instructionCount := count, stepCeiling := 1000, boundsPolicy := policy }

/-- The conventions of spec 95: the words at 0, 4, 8, ..., INSTRUCTION_COUNT their number. -/
def program (policy : BoundsPolicy) (cap : Fin (2 ^ 32 + 1)) (ws : List Word) : State :=
  boot (config policy cap (Fin.ofNat _ ws.length)) ws []

/-- A state of three preset registers, x5, x6 and x7, executing at `pc - 4`. -/
def preset (pc v5 v6 v7 : Word) : State :=
  ((((program .warnNoop 64 [0#32, 0#32]).writeReg 5#5 v5).writeReg 6#5 v6).writeReg 7#5 v7).setPc pc

def ended (r : Host.Outcome State Fault Refusal) : State :=
  match r with
  | .next t => t
  | .fault _ | .refused _ => State.reset

/-- The state after one step. -/
def stepped (s : State) : State := ended (step s)

/-- The state after one instruction of `preset 104 v5 v6 _`, the instruction standing at 100. -/
def ran (i : Instr) (v5 v6 : Word) : State := ended (exec i (preset 0x104#32 v5 v6 0#32))

/-! ### WellFormed: an ill-formed term for each check, refused -/

theorem test_wf_refuses_odd_beq : (Instr.beq 1#5 2#5 7#13).wf = false := by decide
theorem test_wf_refuses_odd_bne : (Instr.bne 1#5 2#5 7#13).wf = false := by decide
theorem test_wf_refuses_odd_blt : (Instr.blt 1#5 2#5 7#13).wf = false := by decide
theorem test_wf_refuses_odd_bge : (Instr.bge 1#5 2#5 7#13).wf = false := by decide
theorem test_wf_refuses_odd_jal : (Instr.jal 1#5 7#21).wf = false := by decide
theorem test_wf_accepts_extremes :
    (Instr.beq 1#5 2#5 0xFFE#13).wf = true ∧ (Instr.bge 1#5 2#5 0x1000#13).wf = true ∧
    (Instr.jal 1#5 0xFFFFE#21).wf = true ∧ (Instr.jalr 1#5 5#5 0xFFF#12).wf = true := by decide

/-! ### Decode: V-ENC, one word or more per constructor; and the encoder back -/

/-- The word decodes to the instruction and the instruction encodes to the word. -/
def Codes (w : Word) (i : Instr) : Prop := decode w = .instr i ∧ encode i = w

theorem test_code_add :
    Codes 0x002081B3#32 (.add 3#5 1#5 2#5) ∧ Codes 0x01FF8FB3#32 (.add 31#5 31#5 31#5) := by
  unfold Codes; decide
theorem test_code_sub :
    Codes 0x400000B3#32 (.sub 1#5 0#5 0#5) ∧ Codes 0x401000B3#32 (.sub 1#5 0#5 1#5) := by
  unfold Codes; decide
theorem test_code_sll : Codes 0x007312B3#32 (.sll 5#5 6#5 7#5) := by unfold Codes; decide
theorem test_code_xor : Codes 0x007342B3#32 (.xor 5#5 6#5 7#5) := by unfold Codes; decide
theorem test_code_srl : Codes 0x007352B3#32 (.srl 5#5 6#5 7#5) := by unfold Codes; decide
theorem test_code_sra : Codes 0x407352B3#32 (.sra 5#5 6#5 7#5) := by unfold Codes; decide
theorem test_code_or : Codes 0x007362B3#32 (.or 5#5 6#5 7#5) := by unfold Codes; decide
theorem test_code_and : Codes 0x007372B3#32 (.and 5#5 6#5 7#5) := by unfold Codes; decide
theorem test_code_addi :
    Codes 0x7FF00093#32 (.addi 1#5 0#5 0x7FF#12) ∧ Codes 0x80000093#32 (.addi 1#5 0#5 0x800#12) := by
  unfold Codes; decide
theorem test_code_lw :
    Codes 0xFFC12303#32 (.lw 6#5 2#5 0xFFC#12) ∧ Codes 0x00102303#32 (.lw 6#5 0#5 1#12) := by
  unfold Codes; decide
theorem test_code_sw :
    Codes 0x7E71AFA3#32 (.sw 3#5 7#5 0x7FF#12) ∧ Codes 0x8071A023#32 (.sw 3#5 7#5 0x800#12) := by
  unfold Codes; decide
theorem test_code_lui :
    Codes 0x12345537#32 (.lui 10#5 0x12345#20) ∧ Codes 0xFFFFF3B7#32 (.lui 7#5 0xFFFFF#20) := by
  unfold Codes; decide
theorem test_code_auipc : Codes 0x00001297#32 (.auipc 5#5 1#20) := by unfold Codes; decide
theorem test_code_beq :
    Codes 0xFE000CE3#32 (.beq 0#5 0#5 0x1FF8#13) ∧ Codes 0x7E208FE3#32 (.beq 1#5 2#5 0xFFE#13) := by
  unfold Codes; decide
theorem test_code_bne :
    Codes 0xFE009CE3#32 (.bne 1#5 0#5 0x1FF8#13) ∧ Codes 0x004190E3#32 (.bne 3#5 4#5 0x800#13) := by
  unfold Codes; decide
theorem test_code_blt : Codes 0x0020C863#32 (.blt 1#5 2#5 16#13) := by unfold Codes; decide
theorem test_code_bge : Codes 0x8020D063#32 (.bge 1#5 2#5 0x1000#13) := by unfold Codes; decide
theorem test_code_jal :
    Codes 0x001000EF#32 (.jal 1#5 0x800#21) ∧ Codes 0x000010EF#32 (.jal 1#5 0x1000#21) ∧
    Codes 0x7FFFF0EF#32 (.jal 1#5 0xFFFFE#21) ∧ Codes 0x800000EF#32 (.jal 1#5 0x100000#21) := by
  unfold Codes; decide
theorem test_code_jalr :
    Codes 0x00008067#32 (.jalr 0#5 1#5 0#12) ∧ Codes 0xFFE280E7#32 (.jalr 1#5 5#5 0xFFE#12) := by
  unfold Codes; decide

/-- Don't-care bits (V-DEC, legal words). -/
theorem test_decode_ignores_dontCare :
    decode 0x407312B3#32 = .instr (.sll 5#5 6#5 7#5) ∧
    decode 0x027342B3#32 = .instr (.xor 5#5 6#5 7#5) ∧
    decode 0x027362B3#32 = .instr (.or 5#5 6#5 7#5) ∧
    decode 0xFE7372B3#32 = .instr (.and 5#5 6#5 7#5) ∧
    decode 0x00500223#32 = .instr (.sw 0#5 5#5 4#12) ∧
    decode 0x00507223#32 = .instr (.sw 0#5 5#5 4#12) ∧
    decode 0xFFFFFFB7#32 = .instr (.lui 31#5 0xFFFFF#20) ∧
    decode 0xFFFFFFEF#32 = .instr (.jal 31#5 0x1FFFFE#21) := by decide

/-! V-DEC, illegal words, each under its item of R101. -/

theorem test_illegal_opcode : [0x00000000#32, 0xFFFFFFFF#32, 0x00000001#32, 0x0FF0000F#32,
    0x00000073#32, 0x00100073#32, 0x300090F3#32, 0x0000202F#32, 0x0000003B#32].all
    (fun w => decide (decode w = .illegal .opcode)) = true := by decide
theorem test_illegal_aluFunct3 :
    [0x007322B3#32, 0x007332B3#32].all
    (fun w => decide (decode w = .illegal .aluFunct3)) = true := by decide
theorem test_illegal_aluFunct7 : [0x027302B3#32, 0x027352B3#32, 0x807302B3#32,
    0x427302B3#32, 0x207352B3#32].all
    (fun w => decide (decode w = .illegal .aluFunct7)) = true := by decide
theorem test_illegal_loadFunct3 : [0x00028303#32, 0x00029303#32, 0x0002B303#32,
    0x0002C303#32, 0x0002D303#32].all
    (fun w => decide (decode w = .illegal .loadFunct3)) = true := by decide
theorem test_illegal_aluImmFunct3 : [0x00109093#32, 0x0010A093#32, 0x0010C093#32,
    0x0010F093#32].all
    (fun w => decide (decode w = .illegal .aluImmFunct3)) = true := by decide
theorem test_illegal_jalrFunct3 : decode 0x00009067#32 = .illegal .jalrFunct3 := by decide
theorem test_illegal_branchFunct3 : [0x0020A463#32, 0x0020B463#32, 0x0020E463#32,
    0x0020F463#32].all
    (fun w => decide (decode w = .illegal .branchFunct3)) = true := by decide

/-- Bytes lie least significant first (R51), and fewer than four are no instruction. -/
theorem test_decodeBytes :
    decodeBytes [0xB3#8, 0x81#8, 0x20#8, 0x00#8, 0xFF#8] = (.instr (.add 3#5 1#5 2#5), [0xFF#8]) ∧
    decodeBytes [0xB3#8, 0x81#8, 0x20#8] = (.illegal .truncated, [0xB3#8, 0x81#8, 0x20#8]) ∧
    decodeTableWord 32 0x002081B3 = some (.add 3#5 1#5 2#5) ∧ decodeTableWord 32 0 = none := by
  decide

/-! ### One instruction: V-ALU, V-ADDI, V-MEM, V-UI, V-BR, V-JMP -/

theorem test_add_wraps : (ran (.add 7#5 5#5 6#5) 0x7FFFFFFF#32 1#32).readReg 7#5 = 0x80000000#32 := by
  decide
theorem test_sub_wraps : (ran (.sub 7#5 5#5 6#5) 5#32 7#32).readReg 7#5 = 0xFFFFFFFE#32 := by decide
theorem test_and : (ran (.and 7#5 5#5 6#5) 0xF0F0F0F0#32 0x0FF00FF0#32).readReg 7#5 = 0x00F000F0#32 := by
  decide
theorem test_or : (ran (.or 7#5 5#5 6#5) 0xF0F0F0F0#32 0x0FF00FF0#32).readReg 7#5 = 0xFFF0FFF0#32 := by
  decide
theorem test_xor : (ran (.xor 7#5 5#5 6#5) 0xF0F0F0F0#32 0x0FF00FF0#32).readReg 7#5 = 0xFF00FF00#32 := by
  decide
theorem test_sll_masks : (ran (.sll 7#5 5#5 6#5) 0x12345678#32 0xFFFFFFE4#32).readReg 7#5 = 0x23456780#32 := by
  decide
theorem test_srl_masks : (ran (.srl 7#5 5#5 6#5) 0xDEADBEEF#32 0x123#32).readReg 7#5 = 0x1BD5B7DD#32 := by
  decide
theorem test_sra_masks : (ran (.sra 7#5 5#5 6#5) 0xDEADBEEF#32 0x123#32).readReg 7#5 = 0xFBD5B7DD#32 := by
  decide
theorem test_sra_by_32_is_by_0 :
    (ran (.sra 7#5 5#5 6#5) 0x80000000#32 0x20#32).readReg 7#5 = 0x80000000#32 := by decide
/-- A source that is also the destination (R130). -/
theorem test_add_into_source : (ran (.add 5#5 5#5 6#5) 3#32 4#32).readReg 5#5 = 7#32 := by decide
theorem test_addi_negative : (ran (.addi 5#5 5#5 0xFFF#12) 0#32 0#32).readReg 5#5 = 0xFFFFFFFF#32 := by
  decide
theorem test_addi_wraps : (ran (.addi 5#5 5#5 1#12) 0x7FFFFFFF#32 0#32).readReg 5#5 = 0x80000000#32 := by
  decide
theorem test_lui : (ran (.lui 7#5 0xFFFFF#20) 0#32 0#32).readReg 7#5 = 0xFFFFF000#32 := by decide
theorem test_lui_x0 : (ran (.lui 0#5 0xFFFFF#20) 0#32 0#32).readReg 0#5 = 0#32 := by decide
theorem test_auipc_own_address : (ran (.auipc 7#5 1#20) 0#32 0#32).readReg 7#5 = 0x1100#32 := by decide
theorem test_auipc_wraps :
    (ended (exec (.auipc 6#5 0xFFFFF#20) (preset 0x1004#32 0#32 0#32 0#32))).readReg 6#5 = 0#32 := by
  decide
/-- V-BR: a branch at 100 with offset 16. -/
theorem test_beq_taken : (ran (.beq 5#5 6#5 16#13) 5#32 5#32).pc = 0x110#32 := by decide
theorem test_bne_notTaken : (ran (.bne 5#5 6#5 16#13) 5#32 5#32).pc = 0x104#32 := by decide
theorem test_blt_signed : (ran (.blt 5#5 6#5 16#13) 0xFFFFFFFF#32 1#32).pc = 0x110#32 := by decide
theorem test_blt_extremes :
    (ran (.blt 5#5 6#5 16#13) 0x7FFFFFFF#32 0x80000000#32).pc = 0x104#32 := by decide
theorem test_bge_signed : (ran (.bge 5#5 6#5 16#13) 1#32 0xFFFFFFFF#32).pc = 0x110#32 := by decide
theorem test_bge_equal : (ran (.bge 5#5 6#5 16#13) 5#32 5#32).pc = 0x110#32 := by decide
theorem test_jal_links_and_jumps :
    (ran (.jal 7#5 0x1FFFFE#21) 0#32 0#32).pc = 0xFE#32 ∧
    (ran (.jal 7#5 0x1FFFFE#21) 0#32 0#32).readReg 7#5 = 0x104#32 := by decide
/-- R201: rd = rs1 jumps through the old value; only bit 0 is cleared. -/
theorem test_jalr_same_register :
    (ran (.jalr 5#5 5#5 1#12) 0x202#32 0#32).pc = 0x202#32 ∧
    (ran (.jalr 5#5 5#5 1#12) 0x202#32 0#32).readReg 5#5 = 0x104#32 := by decide
/-- V-MEM: bytes 22 33 44 55 at the odd address 5. -/
theorem test_lw_misaligned :
    (stepped (boot (config .warnNoop 16 1) [0x00102303#32]
      [⟨none, 0x44332211#32, 0#32⟩, ⟨none, 0x88776655#32, 4#32⟩])).readReg 6#5 = 0x55443322#32 := by
  decide
theorem test_lw_outOfBounds :
    (stepped (program .warnNoop 16 [0xFF802303#32])).out.boundsWarn = true ∧
    (stepped (program .warnNoop 16 [0xFF802303#32])).instret = 1 := by decide
/-- A store in the middle of nowhere, `sw x5, 4(x0)` over DATA_OFFSET 8: bytes 44 33 22 11 at 12. -/
theorem test_sw_littleEndian :
    (ended (exec (.sw 0#5 5#5 4#12) (preset 4#32 0x11223344#32 0#32 0#32))).mem
      = [(12, 0x44#8), (13, 0x33#8), (14, 0x22#8), (15, 0x11#8)] := by decide
theorem test_sw_escalates :
    (stepped (program .escalate 16 [0x7E002FA3#32])).out.stepStatus = .executeFail ∧
    (stepped (program .escalate 16 [0x7E002FA3#32])).instret = 0 ∧
    (stepped (program .escalate 16 [0x7E002FA3#32])).pc = 4#32 := by decide

/-- R151, R153: the select of each row of the table, on operands that tell the operations apart. -/
theorem test_alu_select_codes :
    [0b0000#4, 0b1000#4, 0b0001#4, 0b0100#4, 0b0101#4, 0b1101#4, 0b0110#4, 0b0111#4, 0b0010#4].map
      (fun code => aluBlock code 0x80000005#32 3#32)
    = [(0x80000008#32, false), (0x80000002#32, false), (0x00000028#32, false),
        (0x80000006#32, false), (0x10000000#32, false), (0xF0000000#32, false),
        (0x80000007#32, false), (0x00000001#32, false), (0#32, true)] := by decide

/-! ### The memory primitives (V-MEM, capacity 16 and 6) -/

theorem test_mem_primitives :
    (Memory.write32 [] 16 4 0x11223344#32).1.read32 16 4 = (0x11223344#32, false) ∧
    (Memory.write32 [] 16 4 0x11223344#32).1.read32 16 5 = (0x00112233#32, false) ∧
    Memory.read32 [] 16 12 = (0#32, false) ∧ Memory.read32 [] 16 13 = (0#32, true) ∧
    Memory.read32 [] 16 0xFFFFFFFC = (0#32, true) ∧
    Memory.write32 [] 16 13 0xFFFFFFFF#32 = ([], true) ∧
    Memory.read32 [] 6 2 = (0#32, false) ∧ Memory.read32 [] 6 3 = (0#32, true) := by decide

/-- Writing what an unlisted address reads as removes the entry. -/
theorem test_mem_canonical : Memory.set [(3, 5#8), (4, 6#8)] 3 0#8 = [(4, 6#8)] := by decide

/-! ### Steps and runs -/

theorem test_step_decodeFail :
    (stepped (program .warnNoop 64 [0#32])).out.stepStatus = .decodeFail ∧
    (stepped (program .warnNoop 64 [0#32])).pc = 4#32 := by decide
/-- Scenario 1 (S1). -/
theorem test_run_scenario1 :
    run (program .warnNoop 64 [0x00500093#32, 0x00700113#32, 0x002081B3#32])
      = .next (stepped (stepped (stepped (stepped
          (program .warnNoop 64 [0x00500093#32, 0x00700113#32, 0x002081B3#32])))), .halted) := by
  rfl
theorem test_run_snapshot :
    (stepped (stepped (program .escalate 64 [0x000012B7#32, 0x0002A303#32]))).snapshot
      = ⟨(List.replicate 32 0#32).set 5 0x1000#32, 8#32, false, true, 1⟩ := by decide
theorem test_withFetchWord_runs :
    (stepped (State.reset.withFetchWord 32 0x00500093)).readReg 1#5 = 5#32 := by decide
theorem test_tick_reset : ended (tick true true (preset 8#32 1#32 2#32 3#32))
    = program .warnNoop 64 [0#32, 0#32] := by decide

/-! ### The textual encoder (S6, S9, R111 to R113) -/

def textOf (m : String) (ops : List String) : Record := ⟨m, ops, 0, none⟩

theorem test_text_addi_range :
    encodeRecord [] 0 (textOf "addi" ["x1", "x0", "2047"]) = (0x7FF00093#32, false) ∧
    encodeRecord [] 0 (textOf "addi" ["x1", "x0", "2048"]) = (0#32, true) ∧
    encodeRecord [] 0 (textOf "addi" ["x1", "x0", "-2048"]) = (0x80000093#32, false) ∧
    encodeRecord [] 0 (textOf "addi" ["x1", "x0", "-2049"]) = (0#32, true) := by decide
theorem test_text_memory :
    encodeRecord [] 0 (textOf "sw" ["x1", "-4(sp)"]) = (0xFE112E23#32, false) ∧
    encodeRecord [] 0 (textOf "lw" ["x6", "-4(sp)"]) = (0xFFC12303#32, false) := by decide
theorem test_text_upper :
    encodeRecord [] 0 (textOf "lui" ["x7", "-136484"]) = (0xDEADC3B7#32, false) ∧
    encodeRecord [] 0 (textOf "lui" ["x10", "0x12345"]) = (0x12345537#32, false) := by decide
theorem test_text_label :
    encodeRecord [("loop", 0)] 8 (textOf "beq" ["zero", "X0", "loop"]) = (0xFE000CE3#32, false) ∧
    encodeRecord [] 8 (textOf "jal" ["x1", "2048"]) = (0x001000EF#32, false) := by decide
/-- R111, R8: a label's offset wraps, forwards and backwards over the top of the address space. -/
theorem test_text_label_wraps :
    encodeRecord [("low", 0)] 0xFFFFFFF8 (textOf "beq" ["x0", "x0", "low"]) = (0x00000463#32, false) ∧
    encodeRecord [("high", 0xFFFFFFFC)] 4 (textOf "beq" ["x0", "x0", "high"])
      = (0xFE000CE3#32, false) := by decide
theorem test_text_li : encodeRecord [] 0 (textOf "li" ["x2", "7"]) = (0x00700113#32, false) := by decide

/-! ### Witnesses: the hypotheses of the obligations can be met -/

theorem witness_mask_match :
    0x002081B3#32 &&& Op.add.row.mask = Op.add.row.bits ∧
    ∀ o ∈ allOps, 0xFFFFFFFF#32 &&& o.row.mask ≠ o.row.bits := by decide

/-- Every row is met by its canonical word. -/
theorem witness_masks :
    (allOps.all fun o => decide (o.row.canonical &&& o.row.mask = o.row.bits)) = true := by decide

/-- A word whose don't-care bits are not canonical (EncoderWritesCanonicalWords). -/
theorem witness_dontCare :
    0x407312B3#32 &&& Op.sll.row.mask = Op.sll.row.bits ∧
    Op.sll.canonicalize 0x407312B3#32 = 0x007312B3#32 ∧
    Op.sw.canonicalize 0x00507223#32 = 0x00502223#32 := by decide

/-- The ends of every range of R109 (CodecRoundTrips). -/
theorem witness_roundTrip_ranges :
    (immI (packI (BitVec.ofInt 32 (-2048)) 0 0 0 0)).toInt = -2048 ∧
    (immS (packS (BitVec.ofInt 32 2047) 0 0 0 0)).toInt = 2047 ∧
    (immB (packB (BitVec.ofInt 32 (-4096)) 0 0 0 0)).toInt = -4096 ∧
    (immB (packB (BitVec.ofInt 32 4094) 0 0 0 0)).toInt = 4094 ∧
    (immJ (packJ (BitVec.ofInt 32 (-1048576)) 0 0)).toInt = -1048576 ∧
    (immJ (packJ (BitVec.ofInt 32 1048574) 0 0)).toInt = 1048574 ∧
    (Instr.jal 1#5 0xFFFFE#21).wf = true := by decide

theorem witness_same_opcode :
    opcodeOf 0x00500093#32 = opcodeOf 0x00109093#32 ∧
    decodeFormat 0x00109093#32 = some .i ∧ decodeFormat 0x0000003B#32 = none := by decide

/-- Bits at the joins of the assembled immediates (ImmediatesAreAssembled): one word bit set each. -/
theorem witness_immediate_joins :
    immS 0x00000080#32 = 1#32 ∧ immS 0x00000800#32 = 0x10#32 ∧ immS 0x02000000#32 = 0x20#32 ∧
    immB 0x00000100#32 = 2#32 ∧ immB 0x02000000#32 = 0x20#32 ∧ immB 0x00000080#32 = 0x800#32 ∧
    immJ 0x00200000#32 = 2#32 ∧ immJ 0x00100000#32 = 0x800#32 ∧ immJ 0x00001000#32 = 0x1000#32 ∧
    immJ 0x00080000#32 = 0x80000#32 ∧ immJ 0x80000000#32 = 0xFFF00000#32 ∧
    immU 0x00000FFF#32 = 0#32 ∧ (31 : Nat) < 32 := by decide

/-! #### Text -/

theorem witness_records :
    encodeRecord [] 0 (textOf "add" ["x3", "ra", "sp"]) = (0x002081B3#32, false) ∧
    encodeRecord [] 0 (textOf "nop" []) = (0#32, true) := by decide
theorem witness_encoder_failures :
    (textOf "mv" []).mnemonic ∉ mnemonics ∧ (textOf "add" ["x1"]).operands.length < operandsNeeded "add" ∧
    reg? "x32".toList = none ∧ reg? "q".toList = none ∧
    memOperand? "0(x32)".toList = some ("0".toList, "x32".toList) := by decide
theorem witness_operands :
    reg? "x31".toList = some 31#5 ∧ reg? "ra".toList = some 1#5 ∧ reg? "zero".toList = some 0#5 ∧
    number? "-2048".toList = some (-2048) ∧ number? "2047".toList = some 2047 ∧
    number? "2048".toList = some 2048 ∧ number? "-524288".toList = some (-524288) ∧
    number? "524287".toList = some 524287 ∧ number? "#0x10".toList = some 16 ∧
    number? "010".toList = some 8 ∧
    memOperand? "-4(sp)".toList = some ("-4".toList, "sp".toList) := by decide
theorem witness_target_number : TargetIs [] 0 "-4096" (-4096) := .inl (by decide)
theorem witness_target_number_top : TargetIs [] 0 "1048574" 1048574 := .inl (by decide)
theorem witness_target_label_wraps : TargetIs [("low", 0)] 0xFFFFFFF8 "low" 8 :=
  .inr ⟨by decide, ("low", 0), by decide, by decide⟩
theorem witness_target_label : TargetIs [("loop", 0)] 8 "loop" (-8) :=
  .inr ⟨by decide, ("loop", 0), by decide, by decide⟩

/-! #### Steps, one state for each way a step ends -/

def okState : State := program .warnNoop 64 [0x00500093#32]
def illegalState : State := program .warnNoop 64 [0#32]
def pastEnd : State := (program .warnNoop 64 [0x00500093#32]).setPc 4#32
def pastMemory : State := (boot (config .warnNoop 8 4) [] []).setPc 8#32
/-- `pc` = 4 in 6 bytes: the halt test is false and the fetch overruns. -/
def overrun (policy : BoundsPolicy) : State := (boot (config policy 6 2) [] []).setPc 4#32
def loadFails : State := program .escalate 16 [0xFF802303#32]
def loadWarns : State := program .warnNoop 16 [0xFF802303#32]
def haltedState : State := stepped pastEnd
def erroredState : State := stepped illegalState

theorem witness_fetches : Fetches okState 0x00500093#32 := by
  unfold Fetches Active Fits; decide
theorem witness_fetches_illegal :
    Fetches illegalState 0#32 ∧ decode 0#32 = .illegal .opcode := by
  unfold Fetches Active Fits; decide
theorem witness_guard :
    haltedState.error = false ∧ haltedState.halted = true ∧ erroredState.error = true := by decide
theorem witness_haltTest :
    (pastEnd.error = false ∧ pastEnd.halted = false ∧
      4 * pastEnd.cfg.instructionCount.val ≤ pastEnd.pc.toNat) ∧
    (pastMemory.error = false ∧ pastMemory.halted = false ∧
      pastMemory.cfg.memCapacity.val ≤ pastMemory.pc.toNat ∧
      pastMemory.pc.toNat < 4 * pastMemory.cfg.instructionCount.val) := by decide
theorem witness_empty_program :
    State.reset.error = false ∧ State.reset.halted = false ∧
      State.reset.cfg.instructionCount.val = 0 ∧ (stepped State.reset).halted = true := by decide
theorem witness_halting_step :
    ∃ t, step pastEnd = .next t ∧ pastEnd.halted = false ∧ t.halted = true :=
  ⟨_, rfl, by decide, by decide⟩
theorem witness_overrun (policy : BoundsPolicy) :
    Active (overrun policy) ∧ ¬ Fits (overrun policy) (overrun policy).pc ∧
      (overrun policy).cfg.boundsPolicy = policy := by
  cases policy <;> (unfold Active Fits; decide)
theorem witness_erring_step :
    ∃ t, step illegalState = .next t ∧ illegalState.error = false ∧ t.error = true :=
  ⟨_, rfl, by decide, by decide⟩
theorem witness_statuses :
    (stepped okState).out.stepStatus.code = 0#3 ∧ (stepped haltedState).out.stepStatus.code = 1#3 ∧
    (stepped pastEnd).out.stepStatus.code = 1#3 ∧ (stepped illegalState).out.stepStatus.code = 2#3 ∧
    (stepped loadFails).out.stepStatus.code = 3#3 ∧
    (stepped (overrun .escalate)).out.stepStatus.code = 3#3 ∧
    (stepped (overrun .warnNoop)).out.stepStatus.code = 2#3 ∧
    (stepped erroredState).out.stepStatus.code = 4#3 := by decide
theorem witness_every_step : ∃ t, step okState = .next t ∧ t.out.stepStatus = .ok :=
  ⟨_, rfl, by decide⟩
theorem witness_failed_steps :
    (∃ t, step illegalState = .next t ∧ t.out.stepStatus = .decodeFail) ∧
    ∃ t, step loadFails = .next t ∧ t.out.stepStatus = .executeFail :=
  ⟨⟨_, rfl, by decide⟩, ⟨_, rfl, by decide⟩⟩
theorem witness_load_that_warns :
    Fetches loadWarns 0xFF802303#32 ∧ decode 0xFF802303#32 = .instr (.lw 6#5 0#5 0xFF8#12) ∧
    loadWarns.cfg.boundsPolicy = .warnNoop ∧ AccessFails loadWarns (.lw 6#5 0#5 0xFF8#12) ∧
    ¬ AccessFails okState (.addi 1#5 0#5 5#12) := by
  refine ⟨by unfold Fetches Active Fits; decide, by decide, by decide,
    ⟨_, rfl, by unfold Fits; decide⟩, ?_⟩
  rintro ⟨_, h, _⟩
  cases h
theorem witness_invariant : okState.inv = true ∧ ∃ t, step okState = .next t :=
  ⟨by decide, _, rfl⟩
theorem witness_reaches : Reaches (boot (config .warnNoop 64 1) [0x00500093#32] []) (stepped okState) :=
  .step .start rfl
theorem witness_inactive : ¬ Active pastEnd ∧ ¬ Active haltedState ∧ ¬ Active erroredState := by
  unfold Active; decide
theorem witness_tick :
    (∃ t, tick true false haltedState = .next t) ∧ (∃ t, tick false true haltedState = .next t) ∧
      ∃ t, tick false false haltedState = .next t :=
  ⟨⟨_, rfl⟩, ⟨_, rfl⟩, ⟨_, rfl⟩⟩

/-! #### One store, seen by the next fetch (R66, R245): `sw x5, -4(x0)` at 0, two words -/

def selfModifying : State :=
  (program .warnNoop 64 [0xFE502E23#32, 0#32]).writeReg 5#5 0x00500093#32

theorem witness_store_to_next_fetch :
    selfModifying.mem.wf = true ∧ Fetches selfModifying 0xFE502E23#32 ∧
    decode 0xFE502E23#32 = .instr (.sw 0#5 5#5 0xFFC#12) ∧
    selfModifying.effAddr 0#5 0xFFC#12 = selfModifying.pc + 4#32 ∧
    Fits selfModifying (selfModifying.pc + 4#32) ∧
    selfModifying.pc.toNat + 4 < 4 * selfModifying.cfg.instructionCount.val ∧
    decode (selfModifying.readReg 5#5) = .instr (.addi 1#5 0#5 5#12) ∧
    ∃ t, step selfModifying = .next t := by
  refine ⟨by decide, by unfold Fetches Active Fits; decide, by decide, by decide,
    by unfold Fits; decide, by decide, by decide, _, rfl⟩

/-- A read that overlaps the stored word in its upper half (ReadsAfterAStoreSeeIt). -/
theorem witness_overlapping_read :
    Fits selfModifying (selfModifying.effAddr 0#5 0xFFC#12) ∧ Fits selfModifying 2#32 ∧
    ∃ t, exec (.sw 0#5 5#5 0xFFC#12) selfModifying = .next t ∧
      t.loadWord 2#32 = (0x0093FE50#32, false) := by
  refine ⟨by unfold Fits; decide, by unfold Fits; decide, _, rfl, by decide⟩

/-! #### Memory -/

theorem witness_bounds_edge :
    (12 + 4 ≤ 16 ∧ 16 < 13 + 4) ∧ Memory.wf [(3, 5#8), (4, 6#8)] = true ∧
      Memory.wf [(4, 6#8), (3, 5#8)] = false ∧ Memory.wf [(3, 0#8)] = false := by decide

/-! #### Instructions -/

def at104 : State := preset 0x104#32 0x10#32 0x20#32 0#32

theorem witness_at104 : at104.pc = 0x100#32 + 4#32 := by decide
theorem witness_pc_changes : ∃ t, exec (.jal 7#5 8#21) at104 = .next t ∧ t.pc ≠ at104.pc ∧
    dest? (.jal 7#5 8#21) = some 7#5 ∧ relativeTarget? (.jal 7#5 8#21) = some 8 ∧ (Instr.jal 7#5 8#21).op ∈ [Op.jal, Op.jalr] :=
  ⟨_, rfl, by decide, by decide, by decide, by decide⟩
/-- One instruction for each memory use and pc source (ControlSignalsDescribeExecution). -/
theorem witness_control : at104.pc = 0x100#32 + 4#32 ∧
    (∃ t, exec (.add 7#5 5#5 6#5) at104 = .next t ∧ t.readReg 7#5 = 0x30#32 ∧
      readPorts (.add 7#5 5#5 6#5) = [5#5, 6#5]) ∧
    (∃ t, exec (.lw 7#5 0#5 52#12) at104 = .next t ∧ dataAddr? at104 (.lw 7#5 0#5 52#12) = some 60#32) ∧
    (∃ t, exec (.sw 0#5 5#5 52#12) at104 = .next t ∧
      storeAddr? at104 (.sw 0#5 5#5 52#12) = some 60#32) ∧
    (∃ t, exec (.blt 5#5 6#5 8#13) at104 = .next t ∧ t.pc = 0x108#32 ∧
      chosenPc at104 0x100#32 (.blt 5#5 6#5 8#13) = 0x108#32) ∧
    (∃ t, exec (.jalr 7#5 5#5 1#12) at104 = .next t ∧ t.pc = 0x10#32 ∧
      chosenPc at104 0x100#32 (.jalr 7#5 5#5 1#12) = 0x10#32) :=
  ⟨by decide, ⟨_, rfl, by decide, by decide⟩, ⟨_, rfl, by decide⟩, ⟨_, rfl, by decide⟩,
    ⟨_, rfl, by decide, by decide⟩, ⟨_, rfl, by decide, by decide⟩⟩
theorem witness_dest_zero : ∃ t, exec (.lui 0#5 1#20) at104 = .next t ∧
    dest? (.lui 0#5 1#20) = some 0#5 := ⟨_, rfl, rfl⟩
theorem witness_unread : 9#5 ∉ sources (.add 7#5 5#5 6#5) := by decide
/-- The branch conditions hold and fail. -/
theorem witness_conditions :
    at104.readReg 5#5 = at104.readReg 5#5 ∧ at104.readReg 5#5 ≠ at104.readReg 6#5 ∧
    (at104.readReg 5#5).toInt < (at104.readReg 6#5).toInt ∧
    ¬ (at104.readReg 6#5).toInt < (at104.readReg 5#5).toInt := by decide
/-- Data accesses at the edge: capacity 64, DATA_OFFSET 8, so offset 52 is the last that fits. -/
theorem witness_last_word_fits :
    Fits at104 (at104.effAddr 0#5 52#12) ∧ ¬ Fits at104 (at104.effAddr 0#5 53#12) ∧
    at104.cfg.boundsPolicy = .warnNoop ∧ at104.mem.wf = true ∧
    storeAddr? at104 (.sw 0#5 5#5 52#12) = some 60#32 := by
  unfold Fits; decide
theorem witness_escalates :
    ¬ Fits loadFails (loadFails.effAddr 0#5 0xFF8#12) ∧ loadFails.cfg.boundsPolicy = .escalate := by
  unfold Fits; decide
theorem witness_lui_addi : (7#5 : RegIdx) ≠ 0#5 ∧
    ((0xDEADBEEF#32 + 0x800#32) >>> 12).setWidth 20 = 0xDEADC#20 := by decide
/-- PlacedWordRunsNext below, at and above the last address a program can reach. -/
theorem witness_placed :
    at104.mem.wf = true ∧ at104.pc.toNat < 2 ^ 32 - 4 ∧
    fetchSlot 0xFFFFFFFB#32 = 0xFFFFFFFB#32 ∧ fetchSlot 0xFFFFFFFC#32 = 0#32 := by decide

/-! #### Runs and images -/

def atCeiling : State := { okState with instret := 1000 }

theorem witness_ceiling :
    atCeiling.error = false ∧ atCeiling.halted = false ∧
      atCeiling.instret = atCeiling.cfg.stepCeiling ∧ run atCeiling = .next (atCeiling, .ceiling) :=
  ⟨by decide, by decide, by decide, by rfl⟩

/-- A program of two words and one static word in 16 bytes: the word at 4 and the entry at 12 fit
exactly, and nothing covers byte 8. -/
theorem witness_image :
    imageFits (config .warnNoop 16 2) [1#32, 2#32] [⟨none, 3#32, 4#32⟩] = true ∧
    (loadImage (config .warnNoop 16 2) [1#32, 2#32] [⟨none, 3#32, 4#32⟩])
      = [(0, 1#8), (4, 2#8), (12, 3#8)] := by decide
theorem witness_image_no_overlap (a : Nat) : Covers 16 4 a → ¬ Covers 16 12 a := by
  unfold Covers; omega
theorem witness_image_uncovered : ¬ Covers 16 4 8 ∧ ¬ Covers 16 12 8 := by unfold Covers; decide

end Sys2Proof.Tests
end

section
/-! SUPPORT. The statements' own vocabulary (`Claims`) in terms of the model's operations: words in
memory, port transactions, the fetch, and the targets of a transfer. -/

namespace Sys2Proof.Claims
open Sys2Proof.Machine

/-! ### Words in memory and reads of the port (R51, R53) -/

theorem wordOfBytes_eq_wordOf (b0 b1 b2 b3 : Byte) :
    wordOfBytes b0 b1 b2 b3 = wordOf b0 b1 b2 b3 := by
  apply BitVec.eq_of_toNat_eq
  simp only [wordOfBytes, wordOf, BitVec.toNat_append, BitVec.toNat_ofNat]
  rw [← Nat.shiftLeft_add_eq_or_of_lt b2.isLt, ← Nat.shiftLeft_add_eq_or_of_lt b1.isLt,
    ← Nat.shiftLeft_add_eq_or_of_lt b0.isLt]
  simp only [Nat.shiftLeft_eq]
  omega

theorem memory_word_eq_wordAt (m : Memory) (a : Nat) : m.word a = wordAt m a :=
  wordOfBytes_eq_wordOf _ _ _ _

/-- `MemRead(addr, 4)` in the words of the statements (R53). -/
theorem loadWord_eq (s : State) (a : Word) :
    s.loadWord a =
      if s.cfg.memCapacity.val < a.toNat + 4 then (0#32, true)
      else (wordAt s.mem a.toNat, false) := by
  have hb := State.inBounds_iff s a
  cases h : inBounds s.capacity a.toNat with
  | true => rw [State.loadWord_inBounds s h, if_neg (by have := hb.mp h; omega), memory_word_eq_wordAt]
  | false =>
    rw [State.loadWord_outOfBounds s h, if_pos]
    rw [h] at hb
    simpa using hb

theorem fetched_eq_loadWord (s : State) : fetched s = (s.loadWord s.pc).1 := by
  rw [loadWord_eq, fetched]
  split <;> rfl

theorem readAccess_eq_loadWord (s : State) (a : Word) :
    readAccess s a = ⟨.read, a, (s.loadWord a).1, (s.loadWord a).2⟩ := by
  rw [loadWord_eq, readAccess]
  split <;> rfl

theorem not_fits_iff_loadWord_oob (s : State) (a : Word) :
    ¬ Fits s a ↔ (s.loadWord a).2 = true := by
  rw [State.loadWord_oob_iff, Fits]
  omega

/-- A state is Active exactly when its step fetches (R121, R122). -/
theorem active_iff (s : State) :
    Active s ↔ s.error = false ∧ s.halted = false ∧ s.haltTest = false := by
  rw [State.haltTest_false_iff, Active]

/-! ### Targets of a transfer (R190, R200, R201) -/

theorem pcBefore_of_pc {s : State} {p : Word} (h : s.pc = p + 4#32) : s.pcBefore = p := by
  rw [State.pcBefore, h, BitVec.add_sub_cancel]

theorem branchTarget_of_pc {s : State} {p : Word} (h : s.pc = p + 4#32) (off : BitVec 13) :
    s.branchTarget off = p + BitVec.ofInt 32 off.toInt := by
  rw [State.branchTarget, pcBefore_of_pc h]
  rfl

theorem jalTarget_of_pc {s : State} {p : Word} (h : s.pc = p + 4#32) (off : BitVec 21) :
    s.jalTarget off = p + BitVec.ofInt 32 off.toInt := by
  rw [State.jalTarget, pcBefore_of_pc h]
  rfl

/-- Clearing bit 0 with the mask is subtracting the remainder modulo 2. -/
theorem and_clearBitZero (t : Word) :
    t &&& 0xFFFFFFFE#32 = t - BitVec.ofNat 32 (t.toNat % 2) := by
  rw [show (0xFFFFFFFE#32 : Word) = BitVec.allOnes 32 <<< 1 by decide,
    ← BitVec.shiftLeft_ushiftRight]
  apply BitVec.eq_of_toNat_eq
  simp only [BitVec.toNat_shiftLeft, BitVec.toNat_ushiftRight, BitVec.toNat_sub,
    BitVec.toNat_ofNat, Nat.shiftLeft_eq, Nat.shiftRight_eq_div_pow]
  omega

end Sys2Proof.Claims
end

section
/-! SUPPORT. O14: what a writeback and an instruction do to the registers. -/

namespace Sys2Proof.Claims
open Sys2Proof.Machine

theorem wrote_writeReg (s : State) (rd : RegIdx) (v : Word) : Wrote s (s.writeReg rd v) rd v :=
  fun r => State.readReg_writeReg s rd r v

/-- With rd = 0 nothing is written (R22). -/
theorem Wrote.sameRegs_of_zero {s t : State} {v : Word} (h : Wrote s t 0#5 v) : SameRegs s t := by
  intro r
  rw [h r, if_neg fun hr => hr.2 rfl]

/-- An instruction writes its destination register and no other one, or no register at all: a store,
a branch, or a raised load (R128, R132). -/
theorem registers_of_execShape {i : Instr} {s t : State} (h : ExecShape i s t) :
    SameRegs s t ∨ ∃ rd v, dest? i = some rd ∧ Wrote s t rd v := by
  cases h with
  | writes rd v hd _ _ _ => exact .inr ⟨rd, v, hd, wrote_writeReg s rd v⟩
  | loads rd rs1 imm hi _ =>
    subst hi
    exact .inr ⟨rd, _, rfl, wrote_writeReg (s.portRead _) rd _⟩
  | loadRaises => exact .inl fun _ => rfl
  | stores => exact .inl fun _ => rfl
  | storeRaises => exact .inl fun _ => rfl
  | stays => exact .inl fun _ => rfl
  | branches => exact .inl fun _ => rfl
  | jumps rd off hi =>
    subst hi
    exact .inr ⟨rd, _, rfl, wrote_writeReg s rd _⟩
  | jumpsReg rd rs1 imm hi =>
    subst hi
    exact .inr ⟨rd, _, rfl, wrote_writeReg s rd _⟩

theorem sameRegs_of_dest_zero {i : Instr} {s t : State} (h : exec i s = .next t)
    (hd : dest? i = some 0#5) : SameRegs s t := by
  obtain hsame | ⟨rd, v, hrd, hw⟩ := registers_of_execShape (exec_inv h)
  · exact hsame
  · obtain rfl : rd = 0#5 := Option.some.inj (hrd.symm.trans hd)
    exact hw.sameRegs_of_zero

/-- LW performs its read, and warns of it when it is out of bounds, whatever its destination is and
also when the access escalates (R176, R213). -/
theorem exec_lw_port (rd rs1 : RegIdx) (imm : BitVec 12) (s : State) :
    ∃ t, exec (.lw rd rs1 imm) s = .next t ∧
      t.out.memPort = s.out.memPort ++ [readAccess s (s.effAddr rs1 imm)] ∧
      (¬ Fits s (s.effAddr rs1 imm) → t.out.boundsWarn = true) := by
  rw [readAccess_eq_loadWord, not_fits_iff_loadWord_oob]
  cases h : s.escalates (s.loadWord (s.effAddr rs1 imm)).2 with
  | true =>
    exact ⟨_, execLw_raises h, rfl, fun hoob => by simp [State.raiseExecuteError, hoob]⟩
  | false => exact ⟨_, execLw_loads h, by simp, fun hoob => by simp [hoob]⟩

end Sys2Proof.Claims

open Sys2Proof Sys2Proof.Machine Sys2Proof.Claims

/-- Settles O14: the register ports' own laws, then the shapes of an instruction's next state. -/
theorem registerZeroIsHardWired : Obligations.RegisterZeroIsHardWired := by
  refine ⟨fun s r v hr => ?holds, fun s v => ?discards, fun i s t => sameRegs_of_dest_zero,
    fun off p s hp => ?jal, fun rs1 imm s => ?jalr, exec_lw_port 0#5⟩
  case holds =>
    exact ⟨State.readReg_writeReg_same s hr v, fun q hq => State.readReg_writeReg_other s hq v⟩
  case discards => exact ⟨(wrote_writeReg s 0#5 v).sameRegs_of_zero, State.readReg_zero _⟩
  case jal => exact ⟨_, rfl, jalTarget_of_pc hp off⟩
  case jalr => exact ⟨_, rfl, rfl⟩

end

section
/-! SUPPORT. O31: the value of `pc` after phase 5 and after a step. -/

namespace Sys2Proof.Claims
open Sys2Proof.Machine

/-- An operation of the sequential row of R26 leaves `pc` to the fetch, also when it raises. -/
theorem pc_of_sequential {i : Instr} {s t : State} (h : ExecShape i s t)
    (hp : (control i.op).pcSource = .sequential) : t.pc = s.pc := by
  cases h with
  | writes => simp
  | loads => simp
  | loadRaises => rfl
  | stores => rfl
  | storeRaises => rfl
  | stays => rfl
  | branches off hb => cases hp.symm.trans hb
  | jumps rd off hi => subst hi; cases hp
  | jumpsReg rd rs1 imm hi => subst hi; cases hp

/-- Only LW and SW raise, and a raise leaves `pc` to the fetch (R132, R212). -/
theorem pc_of_raised {i : Instr} {s t : State} (h : ExecShape i s t) (hs : s.error = false)
    (ht : t.error = true) : t.pc = s.pc := by
  cases h with
  | loadRaises => rfl
  | storeRaises => rfl
  | writes | loads | stores | stays | branches | jumps | jumpsReg => simp [hs] at ht

theorem execBranch_pc {c : Cond} {rs1 rs2 : RegIdx} {off : BitVec 13} {s t : State} {p : Word}
    (hp : s.pc = p + 4#32) (h : execBranch c rs1 rs2 off s = .next t) :
    t.pc = if c.holds (s.readReg rs1) (s.readReg rs2) then p + BitVec.ofInt 32 off.toInt
      else p + 4#32 := by
  cases hc : c.holds (s.readReg rs1) (s.readReg rs2) with
  | true =>
    rw [execBranch_taken hc] at h
    cases h
    exact branchTarget_of_pc hp off
  | false =>
    rw [execBranch_notTaken hc] at h
    cases h
    exact hp

/-- Rows 5 to 8 of R26: an instruction of the state `s`, run in a state `f` that the fetch has left,
makes `pc` what `pcAfter` says. -/
theorem exec_pc {i : Instr} {s f t : State} (hp : f.pc = s.pc + 4#32) (hr : SameRegs s f)
    (h : exec i f = .next t) : t.pc = pcAfter s i := by
  cases i with
  | add | sub | sll | xor | srl | sra | or | and | addi | lw | sw | lui | auipc =>
    exact (pc_of_sequential (exec_inv h) rfl).trans hp
  | beq | bne | blt | bge =>
    rw [execBranch_pc hp h, hr, hr]
    simp [Cond.holds, pcAfter]
  | jal rd off =>
    cases h
    exact jalTarget_of_pc hp off
  | jalr rd rs1 imm =>
    cases h
    change (f.readReg rs1 + _) &&& 0xFFFFFFFE#32 = _
    rw [hr, and_clearBitZero]
    rfl

/-- A step that does not fetch keeps `pc` (R26 row 2, R121, R122). -/
theorem step_pc_of_not_active {s t : State} (h : step s = .next t) (ha : ¬ Active s) :
    t.pc = s.pc := by
  rw [active_iff] at ha
  cases step_inv h with
  | refuses => rfl
  | idles => rfl
  | halts => rfl
  | fetchRaises he hh ht => exact absurd ⟨he, hh, ht⟩ ha
  | illegal _ he hh ht => exact absurd ⟨he, hh, ht⟩ ha
  | runs _ _ he hh ht => exact absurd ⟨he, hh, ht⟩ ha

/-- The step of an Active state: it fails and `pc` is the next address, or it runs the fetched
instruction to its end (R123 to R127). -/
theorem step_pc_of_active {s t : State} (h : step s = .next t) (ha : Active s) :
    (t.error = true ∧ t.pc = s.pc + 4#32) ∨
    (t.error = false ∧ ∃ i, decode (fetched s) = .instr i ∧ t.pc = pcAfter s i) := by
  obtain ⟨hre, hrh, hrt⟩ := (active_iff s).mp ha
  cases step_inv h with
  | refuses he => simp [hre] at he
  | idles _ hh => simp [hrh] at hh
  | halts _ _ ht => simp [hrt] at ht
  | fetchRaises => exact .inl ⟨rfl, rfl⟩
  | illegal => exact .inl ⟨rfl, rfl⟩
  | runs i u _ _ _ _ hd hx =>
    rw [State.complete_pc, State.complete_error, fetched_eq_loadWord]
    cases hu : u.error with
    | true => exact .inl ⟨rfl, pc_of_raised (exec_inv hx) hre hu⟩
    | false => exact .inr ⟨rfl, i, hd, exec_pc (f := s.clearPulses.afterFetch) rfl (fun _ => rfl) hx⟩

end Sys2Proof.Claims

open Sys2Proof Sys2Proof.Machine Sys2Proof.Claims

/-- Settles O31: an inactive step keeps `pc`, an active one fails or runs its instruction to the
end. -/
theorem pcMultiplexer : Obligations.PcMultiplexer := by
  refine ⟨fun _ s => ⟨s.resetEvent, rfl, rfl⟩, fun s t h => ⟨step_pc_of_not_active h,
    fun why ha hd => ?illegal, fun ha he => ?failed, fun i ha hd he => ?ran⟩⟩
  case illegal =>
    obtain ⟨-, hpc⟩ | ⟨-, j, hj, -⟩ := step_pc_of_active h ha
    · exact hpc
    · cases hd.symm.trans hj
  case failed =>
    obtain ⟨-, hpc⟩ | ⟨he', -⟩ := step_pc_of_active h ha
    · exact hpc
    · cases he.symm.trans he'
  case ran =>
    obtain ⟨he', -⟩ | ⟨-, j, hj, hpc⟩ := step_pc_of_active h ha
    · cases he.symm.trans he'
    · cases hd.symm.trans hj
      exact hpc

end

section
/-! SUPPORT. O19: reads and writes of a word in the statements' own words (R51 to R54). -/

namespace Sys2Proof.Claims
open Sys2Proof.Machine

theorem inBounds_eq_true {cap a : Nat} (h : a + 4 ≤ cap) : inBounds cap a = true := by
  rw [inBounds, decide_eq_true h]

theorem inBounds_eq_false {cap a : Nat} (h : cap < a + 4) : inBounds cap a = false := by
  rw [inBounds, decide_eq_false (Nat.not_le.mpr h)]

theorem read32_eq_wordAt {cap a : Nat} (h : a + 4 ≤ cap) (m : Memory) :
    m.read32 cap a = (wordAt m a, false) := by
  rw [Memory.read32_inBounds (inBounds_eq_true h), memory_word_eq_wordAt]

/-- Byte k of a word as memory stores it is bits 8k+7 to 8k (R51). -/
theorem toNat_getElem_bytesOfWord (v : Word) {k : Nat} (hk : k < (bytesOfWord v).length) :
    (bytesOfWord v)[k].toNat = v.toNat / 2 ^ (8 * k) % 2 ^ 8 := by
  have hbyte : (bytesOfWord v)[k] = v.extractLsb' (8 * k) 8 := by
    match k, hk with
    | 0, _ | 1, _ | 2, _ | 3, _ => rfl
  rw [hbyte, BitVec.extractLsb'_toNat, Nat.shiftRight_eq_div_pow]

/-- After its bytes are stored, memory holds the word (R54). -/
theorem holds_setBytes {m : Memory} (hm : m.wf = true) (a : Nat) (v : Word) :
    Holds (m.setBytes a (bytesOfWord v)) a v := by
  intro k hk
  rw [← length_bytesOfWord v] at hk
  rw [Memory.get_setBytes_inside (bytesOfWord v) a k hm hk, toNat_getElem_bytesOfWord]

theorem holds_write32 {m : Memory} (hm : m.wf = true) {cap a : Nat} (h : a + 4 ≤ cap) (v : Word) :
    Holds (m.write32 cap a v).1 a v := by
  rw [Memory.write32_inBounds (inBounds_eq_true h)]
  exact holds_setBytes hm a v

/-- The four bytes determine the word (R51): what memory holds is what it reads as. -/
theorem wordAt_of_holds {m : Memory} {a : Nat} {v : Word} (h : Holds m a v) : wordAt m a = v := by
  have h0 := h 0 (by decide)
  have h1 := h 1 (by decide)
  have h2 := h 2 (by decide)
  have h3 := h 3 (by decide)
  apply BitVec.eq_of_toNat_eq
  rw [Nat.add_zero] at h0
  rw [wordAt, wordOf, h0, h1, h2, h3, BitVec.toNat_ofNat]
  omega

end Sys2Proof.Claims

open Sys2Proof Sys2Proof.Machine Sys2Proof.Claims

/-- Settles O19: the read-back follows from the bytes that the write leaves in memory. -/
theorem memoryReadsAndWrites : Obligations.MemoryReadsAndWrites := by
  refine ⟨fun m cap addr => ⟨fun h => read32_eq_wordAt h m,
      fun h => Memory.read32_outOfBounds (inBounds_eq_false h) m⟩,
    fun m cap addr v hm => ⟨fun h => ?inBounds,
      fun h => Memory.write32_outOfBounds (inBounds_eq_false h) m v⟩⟩
  case inBounds =>
    have hholds : Holds (m.write32 cap addr v).1 addr v := holds_write32 hm h v
    refine ⟨?_, hholds, fun a ha => Memory.get_write32_outside m cap addr v ha, ?_⟩
    · rw [Memory.write32_oob, inBounds_eq_true h, Bool.not_true]
    · rw [read32_eq_wordAt h, wordAt_of_holds hholds]

end

section
/-! SUPPORT. O2, O5, O6: the decoder by its masks, by its formats and by its illegal words; the step
that fetches an illegal word. -/

namespace Sys2Proof

/-! ### The table of R95 selects by fields (R94) -/

theorem mask_iff_fieldsSelect (w : Word) (o : Op) :
    w &&& o.row.mask = o.row.bits ↔ FieldsSelect w o := by
  cases o with
  | add | sub | srl | sra => rw [FieldsSelect, ← funct7Mask_iff]; rfl
  | sw | lui | auipc | jal => rw [FieldsSelect, ← opcodeMask_iff]; rfl
  | sll | xor | or | and | addi | lw | beq | bne | blt | bge | jalr =>
    rw [FieldsSelect, ← funct3Mask_iff]; rfl

theorem fieldsSelect_iff_decode (w : Word) (o : Op) :
    FieldsSelect w o ↔ ∃ i, decode w = .instr i ∧ i.op = o := by
  constructor
  · exact fun h => ⟨_, decode_of_fields h, operandsFrom_op w o⟩
  · rintro ⟨i, hi, rfl⟩
    exact (decode_inv hi).1

/-- R94: a mask and match pair selects a word exactly when the decoder answers its operation. -/
theorem mask_iff_decode (w : Word) (o : Op) :
    w &&& o.row.mask = o.row.bits ↔ ∃ i, decode w = .instr i ∧ i.op = o :=
  (mask_iff_fieldsSelect w o).trans (fieldsSelect_iff_decode w o)

theorem mem_allOps (o : Op) : o ∈ allOps := by
  cases o <;> decide

theorem noMask_iff_illegal (w : Word) :
    (∀ o ∈ allOps, w &&& o.row.mask ≠ o.row.bits) ↔ ∃ why, decode w = .illegal why := by
  constructor
  · intro hno
    cases hd : decode w with
    | instr i => exact absurd ((mask_iff_decode w i.op).mpr ⟨i, hd, rfl⟩) (hno i.op (mem_allOps _))
    | illegal why => exact ⟨why, rfl⟩
  · rintro ⟨why, hd⟩ o - hm
    obtain ⟨i, hi, -⟩ := (mask_iff_decode w o).mp hm
    cases hd.symm.trans hi

/-! ### The formats (R81) -/

/-- The opcodes of a format: the table of R81. -/
def Format.opcodes : Format → List (BitVec 7)
  | .r => [0x33#7]
  | .i => [0x03#7, 0x13#7, 0x67#7]
  | .s => [0x23#7]
  | .u => [0x37#7, 0x17#7]
  | .b => [0x63#7]
  | .j => [0x6F#7]

theorem decodeFormat_congr {w v : Word} (h : opcodeOf w = opcodeOf v) :
    decodeFormat w = decodeFormat v := by
  rw [decodeFormat, h]
  rfl

theorem decodeFormat_eq_some_iff (w : Word) (f : Format) :
    decodeFormat w = some f ↔ opcodeOf w ∈ f.opcodes := by
  rw [decodeFormat]
  split_ifs <;> cases f <;> simp [Format.opcodes, *]

/-- The fields that select an operation name an opcode of its format. -/
theorem FieldsSelect.opcode_mem {w : Word} {o : Op} (h : FieldsSelect w o) :
    opcodeOf w ∈ o.format.opcodes := by
  cases o <;> simp only [FieldsSelect] at h <;> simp [Op.format, Format.opcodes, h]

theorem decodeFormat_of_decode {w : Word} {i : Instr} (h : decode w = .instr i) :
    decodeFormat w = some i.op.format :=
  (decodeFormat_eq_some_iff w _).mpr (decode_inv h).1.opcode_mem

theorem decodeFormat_eq_none_iff (w : Word) :
    decodeFormat w = none ↔
      opcodeOf w ∉ [0x03#7, 0x13#7, 0x17#7, 0x23#7, 0x33#7, 0x37#7, 0x63#7, 0x67#7, 0x6F#7] := by
  rw [decodeFormat]
  split_ifs <;> simp [*]

/-! ### The illegal words (R101) -/

/-- The condition on opcode, funct3 and funct7 under which a word is illegal for a reason: the seven
items of R101. No word is shorter than an instruction. -/
def IllegalFields (w : Word) : Illegal → Prop
  | .opcode => opcodeOf w ∉ [0x03#7, 0x13#7, 0x17#7, 0x23#7, 0x33#7, 0x37#7, 0x63#7, 0x67#7, 0x6F#7]
  | .aluFunct3 => opcodeOf w = 0x33#7 ∧ funct3Of w ∈ [2#3, 3#3]
  | .aluFunct7 => opcodeOf w = 0x33#7 ∧ funct3Of w ∈ [0#3, 5#3] ∧ funct7Of w ∉ [0x00#7, 0x20#7]
  | .loadFunct3 => opcodeOf w = 0x03#7 ∧ funct3Of w ≠ 2#3
  | .aluImmFunct3 => opcodeOf w = 0x13#7 ∧ funct3Of w ≠ 0#3
  | .jalrFunct3 => opcodeOf w = 0x67#7 ∧ funct3Of w ≠ 0#3
  | .branchFunct3 => opcodeOf w = 0x63#7 ∧ funct3Of w ∈ [2#3, 3#3, 6#3, 7#3]
  | .truncated => False

/-- Which funct3 the ALU dispatch of R96 leaves over. -/
theorem funct3_of_not_alu : ∀ f : BitVec 3,
    f ≠ 0 → f ≠ 1 → f ≠ 4 → f ≠ 5 → f ≠ 6 → f ≠ 7 → f ∈ [2#3, 3#3] := by decide

/-- Which funct3 the branch dispatch of R99 leaves over. -/
theorem funct3_of_not_branch : ∀ f : BitVec 3,
    f ≠ 0 → f ≠ 1 → f ≠ 4 → f ≠ 5 → f ∈ [2#3, 3#3, 6#3, 7#3] := by decide

theorem decodeAlu_illegal_inv {w : Word} {why : Illegal} (ho : opcodeOf w = 0x33#7)
    (h : decodeAlu w = .illegal why) : IllegalFields w why := by
  unfold decodeAlu at h
  split_ifs at h <;> cases h
  · simp [IllegalFields, *]
  · simp [IllegalFields, *]
  · exact ⟨ho, funct3_of_not_alu _ ‹_› ‹_› ‹_› ‹_› ‹_› ‹_›⟩

theorem decodeBranch_illegal_inv {w : Word} {why : Illegal} (ho : opcodeOf w = 0x63#7)
    (h : decodeBranch w = .illegal why) : IllegalFields w why := by
  unfold decodeBranch at h
  split_ifs at h
  cases h
  exact ⟨ho, funct3_of_not_branch _ ‹_› ‹_› ‹_› ‹_›⟩

theorem decode_illegal_inv {w : Word} {why : Illegal} (h : decode w = .illegal why) :
    IllegalFields w why := by
  unfold decode at h
  split at h
  · exact decodeAlu_illegal_inv ‹_› h
  split at h
  · unfold decodeLoad at h
    split at h <;> cases h
    exact ⟨‹_›, ‹_›⟩
  split at h
  · unfold decodeAluImm at h
    split at h <;> cases h
    exact ⟨‹_›, ‹_›⟩
  split at h
  · unfold decodeJalr at h
    split at h <;> cases h
    exact ⟨‹_›, ‹_›⟩
  split at h
  · cases h
  split at h
  · cases h
  split at h
  · cases h
  split at h
  · exact decodeBranch_illegal_inv ‹_› h
  split at h <;> cases h
  simp [IllegalFields, *]

theorem decode_of_illegalFields {w : Word} {why : Illegal} (h : IllegalFields w why) :
    decode w = .illegal why := by
  cases why with
  | truncated => exact h.elim
  | opcode => simp_all [IllegalFields, decode]
  | loadFunct3 => simp [decode, decodeLoad, h.1, h.2]
  | aluImmFunct3 => simp [decode, decodeAluImm, h.1, h.2]
  | jalrFunct3 => simp [decode, decodeJalr, h.1, h.2]
  | aluFunct3 =>
    obtain ⟨ho, h3⟩ := h
    rcases List.mem_pair.mp h3 with h3 | h3 <;> simp [decode, decodeAlu, ho, h3]
  | aluFunct7 =>
    obtain ⟨ho, h3, h7⟩ := h
    obtain ⟨h00, h20⟩ : funct7Of w ≠ 0x00#7 ∧ funct7Of w ≠ 0x20#7 := by simpa using h7
    rcases List.mem_pair.mp h3 with h3 | h3 <;> simp [decode, decodeAlu, ho, h3, h00, h20]
  | branchFunct3 =>
    obtain ⟨ho, h3⟩ := h
    simp only [List.mem_cons, List.not_mem_nil, or_false] at h3
    rcases h3 with h3 | h3 | h3 | h3 <;> simp [decode, decodeBranch, ho, h3]

theorem decode_illegal_iff (w : Word) (why : Illegal) :
    decode w = .illegal why ↔ IllegalFields w why :=
  ⟨decode_illegal_inv, decode_of_illegalFields⟩

end Sys2Proof

namespace Sys2Proof.Claims
open Sys2Proof.Machine

/-! ### The step that fetches an illegal word (R125, R132) -/

theorem Fetches.loadWord {s : State} {w : Word} (h : Fetches s w) : s.loadWord s.pc = (w, false) := by
  obtain ⟨-, hfits, rfl⟩ := h
  rw [loadWord_eq, if_neg (Nat.not_lt.mpr hfits)]

/-- The step of a state that fetches an illegal word raises DecodeError after the fetch (R211). -/
theorem step_of_fetches_illegal {s : State} {w : Word} {why : Illegal} (h : Fetches s w)
    (hd : decode w = .illegal why) :
    step s = .next s.clearPulses.afterFetch.raiseDecodeError := by
  obtain ⟨he, hh, ht⟩ := (active_iff s).mp h.1
  have hread : s.loadWord s.pc = (w, false) := h.loadWord
  have hgoes : s.escalates (s.loadWord s.pc).2 = false := by rw [hread]; rfl
  rw [step_eq_fetch he hh ht, fetchAndRun_decodes (s := s.clearPulses) hgoes]
  change decodeAndRun (s.loadWord s.pc).1 s.clearPulses.afterFetch = _
  rw [hread, decodeAndRun, hd]

end Sys2Proof.Claims

open Sys2Proof Sys2Proof.Machine Sys2Proof.Claims

/-- Settles O2: a mask and match pair, the selecting fields and the decoder's answer are one
condition. -/
theorem decodeFollowsMaskAndMatch : Obligations.DecodeFollowsMaskAndMatch := by
  refine ⟨mask_iff_decode, fun w o p ho hp => ?disjoint, noMask_iff_illegal, fun s w hf hno => ?step⟩
  case disjoint =>
    obtain ⟨i, hi, rfl⟩ := (mask_iff_decode w o).mp ho
    obtain ⟨j, hj, rfl⟩ := (mask_iff_decode w p).mp hp
    cases hi.symm.trans hj
    rfl
  case step =>
    obtain ⟨why, hd⟩ := (noMask_iff_illegal w).mp hno
    obtain ⟨-, hh, -⟩ := hf.1
    exact ⟨_, step_of_fetches_illegal hf hd, rfl, hh, rfl, fun _ => rfl, fun _ => rfl, rfl, rfl⟩

/-- Settles O5: a format is membership of the opcode in the format's row of the table. -/
theorem formatIsTheOpcodes : Obligations.FormatIsTheOpcodes := by
  refine ⟨fun w w' => decodeFormat_congr, fun w => ?_, fun w i => decodeFormat_of_decode⟩
  have hf := decodeFormat_eq_some_iff w
  refine ⟨(hf .r).trans List.mem_singleton, hf .i, (hf .s).trans List.mem_singleton, hf .u,
    (hf .b).trans List.mem_singleton, (hf .j).trans List.mem_singleton, ?_⟩
  exact (decodeFormat_eq_none_iff w).trans (decode_illegal_iff w .opcode).symm

/-- Settles O6: the decoder's illegal verdict is the condition of its item of R101. -/
theorem illegalWordsAreTheSevenKinds : Obligations.IllegalWordsAreTheSevenKinds := by
  refine ⟨fun w => ?kinds, fun s w why hf hd => ⟨_, step_of_fetches_illegal hf hd, rfl, rfl⟩⟩
  case kinds =>
    have hw := decode_illegal_iff w
    exact ⟨hw .opcode, hw .aluFunct3, hw .aluFunct7, hw .loadFunct3, hw .aluImmFunct3,
      hw .jalrFunct3, hw .branchFunct3, (hw .truncated).mp⟩
end

section
/-! SUPPORT. O8: a builder is an `or` of fields placed apart from each other (R103 to R108). -/

namespace Sys2Proof

/-! ### One field of a built word -/

/-- A builder's argument `x`, masked to `n` bits and shifted to bit `k`. -/
def placed (x : Word) (n k : Nat) : Word := (x &&& BitVec.ofNat 32 (2 ^ n - 1)) <<< k

theorem getLsbD_placed (x : Word) (n k i : Nat) :
    (placed x n k).getLsbD i = (decide (i < 32 ∧ k ≤ i ∧ i < k + n) && x.getLsbD (i - k)) := by
  rw [placed, BitVec.getLsbD_shiftLeft, BitVec.getLsbD_and, BitVec.getLsbD_ofNat,
    Nat.testBit_two_pow_sub_one, Bool.eq_iff_iff]
  simp only [Bool.and_eq_true, Bool.not_eq_true', decide_eq_true_eq, decide_eq_false_iff_not]
  grind

/-- The opcode's place, which a builder does not shift. -/
theorem and_opcodeMask_eq_placed (op : Word) : op &&& 0x7F = placed op 7 0 :=
  (BitVec.shiftLeft_zero _).symm

/-- A field read where it was placed is the argument, masked to the field's width. -/
@[simp] theorem extractLsb'_placed_same (x : Word) {n k : Nat} (h : k + n ≤ 32) :
    (placed x n k).extractLsb' k n = x.setWidth n := by
  apply BitVec.eq_of_getLsbD_eq
  intro i hi
  have hlt : k + i < 32 := by omega
  simp only [BitVec.getLsbD_extractLsb', getLsbD_placed, BitVec.getLsbD_setWidth]
  simp [hi, hlt]

/-- A field is 0 in every place it does not meet. -/
@[simp] theorem extractLsb'_placed_disjoint (x : Word) {n k s m : Nat} (h : s + m ≤ k ∨ k + n ≤ s) :
    (placed x n k).extractLsb' s m = 0#m := by
  apply BitVec.eq_of_getLsbD_eq
  intro i hi
  have hout : ¬ (s + i < 32 ∧ k ≤ s + i ∧ s + i < k + n) := by omega
  simp only [BitVec.getLsbD_extractLsb', getLsbD_placed, decide_eq_false hout]
  simp

/-! ### The builders as placed fields -/

theorem packR_eq_placed (f7 rs2 rs1 f3 rd op : Word) :
    packR f7 rs2 rs1 f3 rd op =
      placed f7 7 25 ||| placed rs2 5 20 ||| placed rs1 5 15 ||| placed f3 3 12 ||| placed rd 5 7 |||
        placed op 7 0 := by
  rw [packR, and_opcodeMask_eq_placed op]
  rfl

theorem packI_eq_placed (imm rs1 f3 rd op : Word) :
    packI imm rs1 f3 rd op =
      placed imm 12 20 ||| placed rs1 5 15 ||| placed f3 3 12 ||| placed rd 5 7 ||| placed op 7 0 := by
  rw [packI, and_opcodeMask_eq_placed op]
  rfl

theorem packS_eq_placed (imm rs2 rs1 f3 op : Word) :
    packS imm rs2 rs1 f3 op =
      placed (imm >>> 5) 7 25 ||| placed rs2 5 20 ||| placed rs1 5 15 ||| placed f3 3 12 |||
        placed imm 5 7 ||| placed op 7 0 := by
  rw [packS, and_opcodeMask_eq_placed op]
  rfl

theorem packU_eq_placed (imm20 rd op : Word) :
    packU imm20 rd op = placed imm20 20 12 ||| placed rd 5 7 ||| placed op 7 0 := by
  rw [packU, and_opcodeMask_eq_placed op]
  rfl

theorem packB_eq_placed (imm rs2 rs1 f3 op : Word) :
    packB imm rs2 rs1 f3 op =
      placed (imm >>> 12) 1 31 ||| placed (imm >>> 5) 6 25 ||| placed rs2 5 20 ||| placed rs1 5 15 |||
        placed f3 3 12 ||| placed (imm >>> 1) 4 8 ||| placed (imm >>> 11) 1 7 ||| placed op 7 0 := by
  rw [packB, and_opcodeMask_eq_placed op]
  rfl

theorem packJ_eq_placed (imm rd op : Word) :
    packJ imm rd op =
      placed (imm >>> 20) 1 31 ||| placed (imm >>> 1) 10 21 ||| placed (imm >>> 11) 1 20 |||
        placed (imm >>> 12) 8 12 ||| placed rd 5 7 ||| placed op 7 0 := by
  rw [packJ, and_opcodeMask_eq_placed op]
  rfl

/-! ### Immediates built from several pieces -/

theorem immSBits_packS (imm rs2 rs1 f3 op : Word) :
    immSBits (packS imm rs2 rs1 f3 op) = imm.setWidth 12 := by
  have hpieces : immSBits (packS imm rs2 rs1 f3 op) = (imm >>> 5).setWidth 7 ++ imm.setWidth 5 := by
    simp [packS_eq_placed, immSBits, BitVec.extractLsb'_or]
  rw [hpieces]
  apply BitVec.eq_of_getLsbD_eq
  intro i hi
  interval_cases i <;> simp only [BitVec.getLsbD_append] <;> simp

theorem immBBits_packB (imm rs2 rs1 f3 op : Word) :
    immBBits (packB imm rs2 rs1 f3 op) = imm.setWidth 13 &&& 0x1FFE#13 := by
  have hpieces : immBBits (packB imm rs2 rs1 f3 op) =
      (imm >>> 12).setWidth 1 ++ (imm >>> 11).setWidth 1 ++ (imm >>> 5).setWidth 6 ++
        (imm >>> 1).setWidth 4 ++ 0#1 := by
    simp [packB_eq_placed, immBBits, BitVec.extractLsb'_or]
  rw [hpieces]
  apply BitVec.eq_of_getLsbD_eq
  intro i hi
  interval_cases i <;> simp only [BitVec.getLsbD_append] <;> simp

theorem immJBits_packJ (imm rd op : Word) :
    immJBits (packJ imm rd op) = imm.setWidth 21 &&& 0x1FFFFE#21 := by
  have hpieces : immJBits (packJ imm rd op) =
      (imm >>> 20).setWidth 1 ++ (imm >>> 12).setWidth 8 ++ (imm >>> 11).setWidth 1 ++
        (imm >>> 1).setWidth 10 ++ 0#1 := by
    simp [packJ_eq_placed, immJBits, BitVec.extractLsb'_or]
  rw [hpieces]
  apply BitVec.eq_of_getLsbD_eq
  intro i hi
  interval_cases i <;> simp only [BitVec.getLsbD_append] <;> simp

/-! ### Every field of every builder -/

theorem fields_packR (f7 rs2 rs1 f3 rd op : Word) :
    funct7Of (packR f7 rs2 rs1 f3 rd op) = f7.setWidth 7 ∧
    rs2Of (packR f7 rs2 rs1 f3 rd op) = rs2.setWidth 5 ∧
    rs1Of (packR f7 rs2 rs1 f3 rd op) = rs1.setWidth 5 ∧
    funct3Of (packR f7 rs2 rs1 f3 rd op) = f3.setWidth 3 ∧
    rdOf (packR f7 rs2 rs1 f3 rd op) = rd.setWidth 5 ∧
    opcodeOf (packR f7 rs2 rs1 f3 rd op) = op.setWidth 7 := by
  rw [packR_eq_placed]
  simp [funct7Of, rs2Of, rs1Of, funct3Of, rdOf, opcodeOf, BitVec.extractLsb'_or]

theorem fields_packI (imm rs1 f3 rd op : Word) :
    immIBits (packI imm rs1 f3 rd op) = imm.setWidth 12 ∧
    rs1Of (packI imm rs1 f3 rd op) = rs1.setWidth 5 ∧
    funct3Of (packI imm rs1 f3 rd op) = f3.setWidth 3 ∧
    rdOf (packI imm rs1 f3 rd op) = rd.setWidth 5 ∧
    opcodeOf (packI imm rs1 f3 rd op) = op.setWidth 7 := by
  rw [packI_eq_placed]
  simp [immIBits, rs1Of, funct3Of, rdOf, opcodeOf, BitVec.extractLsb'_or]

theorem fields_packS (imm rs2 rs1 f3 op : Word) :
    immSBits (packS imm rs2 rs1 f3 op) = imm.setWidth 12 ∧
    rs2Of (packS imm rs2 rs1 f3 op) = rs2.setWidth 5 ∧
    rs1Of (packS imm rs2 rs1 f3 op) = rs1.setWidth 5 ∧
    funct3Of (packS imm rs2 rs1 f3 op) = f3.setWidth 3 ∧
    opcodeOf (packS imm rs2 rs1 f3 op) = op.setWidth 7 := by
  refine ⟨immSBits_packS .., ?_⟩
  rw [packS_eq_placed]
  simp [rs2Of, rs1Of, funct3Of, opcodeOf, BitVec.extractLsb'_or]

theorem fields_packU (imm20 rd op : Word) :
    imm20Of (packU imm20 rd op) = imm20.setWidth 20 ∧
    rdOf (packU imm20 rd op) = rd.setWidth 5 ∧
    opcodeOf (packU imm20 rd op) = op.setWidth 7 := by
  rw [packU_eq_placed]
  simp [imm20Of, rdOf, opcodeOf, BitVec.extractLsb'_or]

theorem fields_packB (imm rs2 rs1 f3 op : Word) :
    immBBits (packB imm rs2 rs1 f3 op) = imm.setWidth 13 &&& 0x1FFE#13 ∧
    rs2Of (packB imm rs2 rs1 f3 op) = rs2.setWidth 5 ∧
    rs1Of (packB imm rs2 rs1 f3 op) = rs1.setWidth 5 ∧
    funct3Of (packB imm rs2 rs1 f3 op) = f3.setWidth 3 ∧
    opcodeOf (packB imm rs2 rs1 f3 op) = op.setWidth 7 := by
  refine ⟨immBBits_packB .., ?_⟩
  rw [packB_eq_placed]
  simp [rs2Of, rs1Of, funct3Of, opcodeOf, BitVec.extractLsb'_or]

theorem fields_packJ (imm rd op : Word) :
    immJBits (packJ imm rd op) = imm.setWidth 21 &&& 0x1FFFFE#21 ∧
    rdOf (packJ imm rd op) = rd.setWidth 5 ∧
    opcodeOf (packJ imm rd op) = op.setWidth 7 := by
  refine ⟨immJBits_packJ .., ?_⟩
  rw [packJ_eq_placed]
  simp [rdOf, opcodeOf, BitVec.extractLsb'_or]

end Sys2Proof

open Sys2Proof Sys2Proof.Machine Sys2Proof.Claims

/-- Settles O8: each builder's fields are placed apart, so each is read back masked. -/
theorem buildersPlaceEveryField : Obligations.BuildersPlaceEveryField :=
  ⟨fields_packR, fields_packI, fields_packS, fields_packU, fields_packB, fields_packJ⟩

end

section
/-! SUPPORT. O7: the bits and the ranges of the assembled immediates (R89 to R93). -/

namespace Sys2Proof

/-! ### Sign extension (R9) -/

/-- Above the field, a sign extension repeats the field's top bit. -/
theorem getLsbD_signExtend_word {n : Nat} (f : BitVec (n + 1)) {k : Nat} (hk : k < 32) :
    (f.signExtend 32).getLsbD k = if k ≤ n then f.getLsbD k else f.getLsbD n := by
  rw [BitVec.getLsbD_signExtend, decide_eq_true hk, Bool.true_and, BitVec.msb_eq_getLsbD_last,
    Nat.add_sub_cancel]
  simp only [Nat.lt_succ_iff]

theorem toInt_signExtend_range {n : Nat} (hn : n + 1 ≤ 32) (f : BitVec (n + 1)) :
    -2 ^ n ≤ (f.signExtend 32).toInt ∧ (f.signExtend 32).toInt < 2 ^ n := by
  rw [BitVec.toInt_signExtend_of_le hn]
  exact ⟨f.le_toInt, f.toInt_lt⟩

theorem toInt_signExtend_even {n : Nat} (hn : n + 1 ≤ 32) {off : BitVec (n + 1)}
    (h : evenOffset off = true) : (off.signExtend 32).toInt % 2 = 0 := by
  have hbit : off.toNat % 2 = 0 := by simpa [evenOffset, BitVec.getLsbD] using h
  rw [BitVec.toInt_signExtend_of_le hn, BitVec.toInt_eq_toNat_cond, pow_succ]
  split <;> push_cast <;> omega

/-! ### Bit k of each immediate -/

section
variable (w : Word) {k : Nat} (hk : k < 32)
include hk

theorem getLsbD_immI :
    (immI w).getLsbD k = if k ≤ 10 then w.getLsbD (k + 20) else w.getLsbD 31 := by
  rw [immI, extend12, getLsbD_signExtend_word (n := 11) _ hk]
  simp only [immIBits, BitVec.getLsbD_extractLsb']
  grind

theorem getLsbD_immS :
    (immS w).getLsbD k =
      if k ≤ 4 then w.getLsbD (k + 7) else if k ≤ 10 then w.getLsbD (k + 20) else w.getLsbD 31 := by
  rw [immS, extend12, getLsbD_signExtend_word (n := 11) _ hk]
  simp only [immSBits, BitVec.getLsbD_append, BitVec.getLsbD_extractLsb']
  grind

theorem getLsbD_immU : (immU w).getLsbD k = if k ≤ 11 then false else w.getLsbD k := by
  simp only [immU, shiftUpper, imm20Of, BitVec.getLsbD_append, BitVec.getLsbD_extractLsb']
  grind

theorem getLsbD_immB :
    (immB w).getLsbD k =
      if k = 0 then false else if k ≤ 4 then w.getLsbD (k + 7)
      else if k ≤ 10 then w.getLsbD (k + 20) else if k = 11 then w.getLsbD 7
      else w.getLsbD 31 := by
  rw [immB, extend13, getLsbD_signExtend_word (n := 12) _ hk]
  simp only [immBBits, BitVec.getLsbD_append, BitVec.getLsbD_extractLsb']
  split <;> grind

theorem getLsbD_immJ :
    (immJ w).getLsbD k =
      if k = 0 then false else if k ≤ 10 then w.getLsbD (k + 20)
      else if k = 11 then w.getLsbD 20 else if k ≤ 19 then w.getLsbD k else w.getLsbD 31 := by
  rw [immJ, extend21, getLsbD_signExtend_word (n := 20) _ hk]
  simp only [immJBits, BitVec.getLsbD_append, BitVec.getLsbD_extractLsb']
  split <;> grind
end

/-! ### Ranges -/

theorem toInt_extend12_range (f : BitVec 12) :
    -2048 ≤ (extend12 f).toInt ∧ (extend12 f).toInt ≤ 2047 := by
  obtain ⟨hlo, hhi⟩ := toInt_signExtend_range (n := 11) (by decide) f
  exact ⟨hlo, Int.le_of_lt_add_one hhi⟩

theorem toInt_immB_range (w : Word) :
    -4096 ≤ (immB w).toInt ∧ (immB w).toInt ≤ 4094 ∧ (immB w).toInt % 2 = 0 := by
  obtain ⟨hlo, hhi⟩ := toInt_signExtend_range (n := 12) (by decide) (immBBits w)
  have heven := toInt_signExtend_even (n := 12) (by decide) (evenOffset_immBBits w)
  rw [immB, extend13]
  omega

theorem toInt_immJ_range (w : Word) :
    -1048576 ≤ (immJ w).toInt ∧ (immJ w).toInt ≤ 1048574 ∧ (immJ w).toInt % 2 = 0 := by
  obtain ⟨hlo, hhi⟩ := toInt_signExtend_range (n := 20) (by decide) (immJBits w)
  have heven := toInt_signExtend_even (n := 20) (by decide) (evenOffset_immJBits w)
  rw [immJ, extend21]
  omega

theorem immU_eq_and (w : Word) : immU w = w &&& 0xFFFFF000#32 := by
  apply BitVec.eq_of_getLsbD_eq
  intro i hi
  rw [getLsbD_immU w hi]
  interval_cases i <;> simp

theorem toInt_immU_neg_iff (w : Word) : (immU w).toInt < 0 ↔ w.getLsbD 31 = true := by
  have hsign : w.getLsbD 31 = decide ((immU w).toInt < 0) := by
    rw [← BitVec.msb_eq_toInt, BitVec.msb_eq_getLsbD_last, getLsbD_immU w (by decide)]
    rfl
  rw [hsign, decide_eq_true_iff]

theorem immI_packI (imm rs1 f3 rd op : Word) :
    immI (packI imm rs1 f3 rd op) = extend12 (imm.setWidth 12) := by
  rw [immI, (fields_packI imm rs1 f3 rd op).1]

end Sys2Proof

open Sys2Proof Sys2Proof.Machine Sys2Proof.Claims

/-- Settles O7: the bits by sign extension of the assembled field, the ranges by its width and its
bit 0. -/
theorem immediatesAreAssembled : Obligations.ImmediatesAreAssembled := by
  refine ⟨fun w k hk => ?bits, fun w => ?ranges, fun a b c d => ?ends⟩
  case bits =>
    exact ⟨getLsbD_immI w hk, getLsbD_immS w hk, getLsbD_immU w hk, getLsbD_immB w hk,
      getLsbD_immJ w hk⟩
  case ranges =>
    exact ⟨toInt_extend12_range _, toInt_extend12_range _, ⟨immU_eq_and w, toInt_immU_neg_iff w⟩,
      toInt_immB_range w, toInt_immJ_range w⟩
  case ends =>
    rw [immI_packI, immI_packI]
    decide

end

section
/-! SUPPORT. O25, O27, O30: what phase 5 leaves to the other phases, when it raises, and when a step
halts or counts. -/

namespace Sys2Proof.Claims
open Sys2Proof.Machine

/-! ### Phase 5 and the flags and counter (R27, R29, R34) -/

/-- Phase 5 leaves `halted` to the halt test, the counter to phase 6 and the configuration as it
is. -/
theorem halted_instret_cfg_of_execShape {i : Instr} {s t : State} (h : ExecShape i s t) :
    t.halted = s.halted ∧ t.instret = s.instret ∧ t.cfg = s.cfg := by
  cases h with
  | loadRaises | storeRaises => exact ⟨rfl, rfl, rfl⟩
  | writes | loads | stores | stays | branches | jumps | jumpsReg => simp

/-- A read escalates exactly when it is out of bounds under `escalate` (R55, R56). -/
theorem escalates_loadWord_iff (s : State) (a : Word) :
    s.escalates (s.loadWord a).2 = true ↔ ¬ Fits s a ∧ s.cfg.boundsPolicy = .escalate := by
  rw [State.escalates_iff, not_fits_iff_loadWord_oob]

/-- A store is out of bounds exactly where a read of its address is (R53, R54). -/
theorem write32_oob_eq_loadWord_oob (s : State) (a v : Word) :
    (s.mem.write32 s.capacity a.toNat v).2 = (s.loadWord a).2 := by
  rw [Memory.write32_oob, State.loadWord_oob]

/-- The one raise of phase 5 is ExecuteError of an out-of-bounds data access under `escalate`
(R126, R212). -/
theorem raised_of_execShape {i : Instr} {s t : State} (h : ExecShape i s t) (hs : s.error = false)
    (ht : t.error = true) :
    t.out.stepStatus = .executeFail ∧ AccessFails s i ∧ s.cfg.boundsPolicy = .escalate := by
  cases h with
  | loadRaises rd rs1 imm hi he =>
    subst hi
    obtain ⟨hout, hpolicy⟩ := (escalates_loadWord_iff s _).mp he
    exact ⟨rfl, ⟨_, rfl, hout⟩, hpolicy⟩
  | storeRaises rs1 rs2 imm hi he =>
    subst hi
    rw [write32_oob_eq_loadWord_oob] at he
    obtain ⟨hout, hpolicy⟩ := (escalates_loadWord_iff s _).mp he
    exact ⟨rfl, ⟨_, rfl, hout⟩, hpolicy⟩
  | writes | loads | stores | stays | branches | jumps | jumpsReg => simp [hs] at ht

/-! ### Steps -/

/-- A step that sets `halted` ended in the halt test (R122). -/
theorem haltTest_of_step_halts {s t : State} (h : step s = .next t) (hs : s.halted = false)
    (ht : t.halted = true) : s.haltTest = true := by
  cases step_inv h with
  | halts _ _ hpc => exact hpc
  | refuses | idles | fetchRaises | illegal =>
    have hsame : s.halted = true := ht
    simp [hs] at hsame
  | runs i u _ _ _ _ _ hx =>
    obtain ⟨hu, -, -⟩ := halted_instret_cfg_of_execShape (exec_inv hx)
    simp [hu, hs] at ht

/-- A step runs its instruction to the end, reports ST_OK and counts, or it does neither (R127,
R133). -/
theorem step_counts_or_not {s t : State} (h : step s = .next t) :
    (t.out.stepStatus = .ok ∧ t.instret = s.instret + 1 ∧ t.error = false) ∨
    (t.out.stepStatus ≠ .ok ∧ t.instret = s.instret) := by
  cases step_inv h with
  | refuses | idles | halts | fetchRaises | illegal => exact .inr ⟨by rintro ⟨⟩, rfl⟩
  | runs i u he _ _ _ _ hx =>
    have hshape := exec_inv hx
    obtain ⟨-, hcount, -⟩ := halted_instret_cfg_of_execShape hshape
    cases hu : u.error with
    | true =>
      obtain ⟨hstatus, -⟩ := raised_of_execShape hshape he hu
      rw [State.complete_of_error u hu]
      exact .inr ⟨by simp [hstatus], hcount⟩
    | false =>
      rw [State.complete_of_ok u hu]
      exact .inl ⟨rfl, congrArg (· + 1) hcount, hu⟩

/-- The step that fetches an instruction runs it in the state after the fetch and then counts
(R123, R126, R127). -/
theorem step_of_fetches_instr {s : State} {w : Word} {i : Instr} (h : Fetches s w)
    (hd : decode w = .instr i) : step s = finish (exec i s.clearPulses.afterFetch) := by
  obtain ⟨he, hh, ht⟩ := (active_iff s).mp h.1
  have hread : s.clearPulses.loadWord s.clearPulses.pc = (w, false) := h.loadWord
  rw [step_eq_fetch he hh ht, fetchAndRun_decodes (by rw [hread]; rfl), hread, decodeAndRun, hd]

/-- An instruction that makes no access that escalates ends its step with ST_OK (R127). -/
theorem step_ok_of_not_escalated {s : State} {w : Word} {i : Instr} (h : Fetches s w)
    (hd : decode w = .instr i) (hok : s.cfg.boundsPolicy = .warnNoop ∨ ¬ AccessFails s i) :
    ∃ t, step s = .next t ∧ t.out.stepStatus = .ok := by
  obtain ⟨he, -⟩ := h.1
  obtain ⟨u, hx, hshape⟩ := exec_shape i s.clearPulses.afterFetch
  refine ⟨u.complete, by rw [step_of_fetches_instr h hd, hx]; rfl, ?_⟩
  cases hu : u.error with
  | false => rw [State.complete_of_ok u hu]; rfl
  | true =>
    obtain ⟨-, hfails, hpolicy⟩ := raised_of_execShape hshape he hu
    obtain hwarn | hno := hok
    · cases hwarn.symm.trans hpolicy
    · exact absurd hfails hno

end Sys2Proof.Claims

open Sys2Proof Sys2Proof.Machine Sys2Proof.Claims

/-- Settles O30: a step counts exactly when it reports ST_OK, and phase 5 raises nothing but an
escalated access. -/
theorem countsExactlyTheUnraisedSteps : Obligations.CountsExactlyTheUnraisedSteps := by
  refine ⟨fun s t h => ?counts, fun s w i => step_ok_of_not_escalated⟩
  obtain ⟨hok, hrest⟩ | ⟨hnot, hsame⟩ := step_counts_or_not h
  · exact ⟨fun _ => hrest, fun hnot => absurd hok hnot⟩
  · exact ⟨fun hok => absurd hok hnot, fun _ => hsame⟩

/-- Settles O25: a true halt test decides the step, and only that step sets `halted`. -/
theorem haltTestHalts : Obligations.HaltTestHalts := by
  refine ⟨fun s he hh hpc => ?halts, fun s t hs h ht => ?only, fun s he hh hempty => ?empty⟩
  case halts => exact ⟨_, step_eq_halt he hh ((State.haltTest_iff s).mpr hpc), rfl, rfl⟩
  case only => exact (State.haltTest_iff s).mp (haltTest_of_step_halts h hs ht)
  case empty =>
    have hpc : s.haltTest = true := (State.haltTest_iff s).mpr (by omega)
    exact ⟨_, step_eq_halt he hh hpc, rfl⟩

/-- Settles O27: DecodeError on the state after the fetch, field by field. -/
theorem illegalWordSetsErrorOnly : Obligations.IllegalWordSetsErrorOnly :=
  fun _ _ _ hf hd => ⟨_, step_of_fetches_illegal hf hd, rfl, rfl⟩

end

section
/-! SUPPORT. O41, O43: the ALU's results as arithmetic on numbers, and what R154 says of every
register-register instruction at once. -/

namespace Sys2Proof.Machine

/-- The register-register instruction that runs an operation of the ALU (R155 to R162). -/
def AluOp.instr : AluOp → RegIdx → RegIdx → RegIdx → Instr
  | .add => .add
  | .sub => .sub
  | .and => .and
  | .or => .or
  | .xor => .xor
  | .sll => .sll
  | .srl => .srl
  | .sra => .sra

/-- The decoder's name of that instruction (R95). -/
def AluOp.decoderOp : AluOp → Op
  | .add => .add
  | .sub => .sub
  | .and => .and
  | .or => .or
  | .xor => .xor
  | .sll => .sll
  | .srl => .srl
  | .sra => .sra

/-- The assembler's name of that instruction (R111). -/
def AluOp.mnemonic : AluOp → String
  | .add => "add"
  | .sub => "sub"
  | .and => "and"
  | .or => "or"
  | .xor => "xor"
  | .sll => "sll"
  | .srl => "srl"
  | .sra => "sra"

theorem AluOp.operandsFrom_decoderOp (op : AluOp) (w : Word) :
    operandsFrom w op.decoderOp = op.instr (rdOf w) (rs1Of w) (rs2Of w) := by
  cases op <;> rfl

theorem AluOp.exec_instr (op : AluOp) (rd rs1 rs2 : RegIdx) (s : State) :
    exec (op.instr rd rs1 rs2) s =
      .next (s.writeReg rd (alu op (s.readReg rs1) (s.readReg rs2))) := by
  cases op <;> rfl

theorem AluOp.assemble_mnemonic (op : AluOp) (tab : SymbolTable) (here : Word) (rands : List String)
    (line : Int) (label : Option String) :
    assemble tab here ⟨op.mnemonic, rands, line, label⟩ = formR op.instr rands := by
  cases op <;> rfl

theorem reg_of_reg? {a : String} {r : RegIdx} (h : reg? a.toList = some r) : reg a = .ok r := by
  rw [reg, h]

theorem formR_of_reg? (make : RegIdx → RegIdx → RegIdx → Instr) {a b c : String}
    {rd rs1 rs2 : RegIdx} (ha : reg? a.toList = some rd) (hb : reg? b.toList = some rs1)
    (hc : reg? c.toList = some rs2) : formR make [a, b, c] = .ok (make rd rs1 rs2) := by
  rw [formR, reg_of_reg? ha, reg_of_reg? hb, reg_of_reg? hc]
  rfl

theorem encodeRecord_of_assemble {tab : SymbolTable} {here : Word} {r : Record} {i : Instr}
    (h : assemble tab here r = .ok i) : encodeRecord tab here r = (encode i, false) := by
  rw [encodeRecord, h]

theorem shiftAmount_eq (b : Word) : shiftAmount b = b.toNat % 32 := by
  rw [shiftAmount, BitVec.extractLsb'_toNat, Nat.shiftRight_zero]

end Sys2Proof.Machine

namespace Sys2Proof.Claims
open Sys2Proof.Machine

/-! ### Results (R150, R152) -/

/-- The result of each operation, computed on numbers. -/
def resultOf : AluOp → Word → Word → Word
  | .add => sumOf
  | .sub => differenceOf
  | .and => conjunctionOf
  | .or => disjunctionOf
  | .xor => exclusiveOrOf
  | .sll => leftShiftOf
  | .srl => rightShiftOf
  | .sra => signedRightShiftOf

theorem eq_ofNat_of_toNat_eq {w : Word} {n : Nat} (h : w.toNat = n) : w = BitVec.ofNat 32 n := by
  rw [← h, BitVec.ofNat_toNat, BitVec.setWidth_eq]

theorem alu_eq_resultOf (op : AluOp) (a b : Word) : alu op a b = resultOf op a b := by
  cases op with
  | add => exact BitVec.add_def a b
  | sub =>
    apply BitVec.eq_of_toInt_eq
    change (a - b).toInt = (BitVec.ofInt 32 (a.toInt - b.toInt)).toInt
    rw [BitVec.toInt_sub, BitVec.toInt_ofInt]
  | and => exact eq_ofNat_of_toNat_eq (BitVec.toNat_and a b)
  | or => exact eq_ofNat_of_toNat_eq (BitVec.toNat_or a b)
  | xor => exact eq_ofNat_of_toNat_eq (BitVec.toNat_xor a b)
  | sll =>
    change a <<< shiftAmount b = BitVec.ofNat 32 (a.toNat * 2 ^ (b.toNat % 32))
    rw [shiftAmount_eq, ← Nat.shiftLeft_eq]
    rfl
  | srl =>
    refine eq_ofNat_of_toNat_eq ?_
    change (a >>> shiftAmount b).toNat = a.toNat / 2 ^ (b.toNat % 32)
    rw [shiftAmount_eq, BitVec.toNat_ushiftRight, Nat.shiftRight_eq_div_pow]
  | sra =>
    change BitVec.ofInt 32 (a.toInt >>> shiftAmount b) =
      BitVec.ofInt 32 (a.toInt / 2 ^ (b.toNat % 32))
    rw [shiftAmount_eq, Int.shiftRight_eq_div_pow]
    norm_cast

/-! ### The register-register instructions (R154) -/

/-- A word that meets a row of R95 decodes to the row's operation with the word's operands. -/
theorem decode_of_mask {w : Word} {o : Op} (h : w &&& o.row.mask = o.row.bits) :
    decode w = .instr (operandsFrom w o) :=
  decode_of_fields ((mask_iff_fieldsSelect w o).mp h)

/-- The bits of an R-format word outside its operands (R82). -/
theorem packR_and_funct7Mask (f7 rs2 rs1 f3 rd op : Word) :
    packR f7 rs2 rs1 f3 rd op &&& 0xFE00707F#32 =
      (f7.setWidth 7 ++ 0#10 ++ f3.setWidth 3 ++ 0#5 ++ op.setWidth 7 : BitVec 32) := by
  obtain ⟨h7, -, -, h3, -, ho⟩ := fields_packR f7 rs2 rs1 f3 rd op
  exact (funct7Mask_iff _ _ _ _).mpr ⟨h7, h3, ho⟩

theorem encode_instr_and_funct7Mask (op : AluOp) (rd rs1 rs2 : RegIdx) :
    encode (op.instr rd rs1 rs2) &&& 0xFE00707F#32 = op.decoderOp.row.canonical := by
  cases op <;> exact packR_and_funct7Mask _ (arg rs2) (arg rs1) _ (arg rd) _

theorem textR_instr (op : AluOp) : TextR op.mnemonic op.instr :=
  fun tab here _ _ _ line label _ _ _ ha hb hc => encodeRecord_of_assemble <|
    (op.assemble_mnemonic tab here _ line label).trans (formR_of_reg? op.instr ha hb hc)

/-- A writeback changes nothing but the registers. -/
theorem onlyRegsAndPc_writeReg (s : State) (rd : RegIdx) (v : Word) :
    OnlyRegsAndPc s (s.writeReg rd v) := by
  simp [OnlyRegsAndPc, SameFlags, SameMem, SameOutputs]

theorem aluClaim_instr (op : AluOp) :
    AluClaim op.instr op.mnemonic op.decoderOp.row.mask op.decoderOp.row.bits
      op.decoderOp.row.canonical (resultOf op) := by
  refine ⟨fun w hw => ?decodes, encode_instr_and_funct7Mask op, textR_instr op,
    fun rd rs1 rs2 s => ⟨_, op.exec_instr rd rs1 rs2 s, ?_⟩⟩
  case decodes => rw [decode_of_mask hw, op.operandsFrom_decoderOp]
  rw [alu_eq_resultOf]
  exact ⟨wrote_writeReg s rd _, State.writeReg_pc s rd _, onlyRegsAndPc_writeReg s rd _⟩

end Sys2Proof.Claims

open Sys2Proof Sys2Proof.Machine Sys2Proof.Claims

/-- Settles O41: the result of each operation on numbers. -/
theorem aluResults : Obligations.AluResults := fun a b =>
  ⟨alu_eq_resultOf .add a b, alu_eq_resultOf .sub a b, alu_eq_resultOf .and a b,
    alu_eq_resultOf .or a b, alu_eq_resultOf .xor a b, alu_eq_resultOf .sll a b,
    alu_eq_resultOf .srl a b, alu_eq_resultOf .sra a b⟩

/-- Settles O43: what holds of every register-register instruction, for ADD and SUB. -/
theorem addAndSub : Obligations.AddAndSub := ⟨aluClaim_instr .add, aluClaim_instr .sub⟩

end

section
/-! SUPPORT. O46: the immediate operand of the textual encoder and the sum ADDI writes back. -/

namespace Sys2Proof.Machine

theorem number_of_number? {c : String} {v : Int} (h : number? c.toList = some v) :
    number c.toList = .ok v := by
  rw [number, h]

theorem imm12_of_range {v : Int} (hlo : -2048 ≤ v) (hhi : v ≤ 2047) :
    imm12 v = .ok (BitVec.ofInt 12 v) :=
  if_pos ⟨hlo, hhi⟩

theorem formAddi_of_operands {a b c : String} {rd rs1 : RegIdx} {v : Int}
    (ha : reg? a.toList = some rd) (hb : reg? b.toList = some rs1)
    (hc : number? c.toList = some v) (hlo : -2048 ≤ v) (hhi : v ≤ 2047) :
    formAddi [a, b, c] = .ok (.addi rd rs1 (BitVec.ofInt 12 v)) := by
  rw [formAddi, reg_of_reg? ha, reg_of_reg? hb, number_of_number? hc]
  exact congrArg (Except.map (Instr.addi rd rs1)) (imm12_of_range hlo hhi)

theorem assemble_addi (tab : SymbolTable) (here : Word) (rands : List String) (line : Int)
    (label : Option String) : assemble tab here ⟨"addi", rands, line, label⟩ = formAddi rands :=
  rfl

/-- ADDI writes back the ALU's sum and does nothing else (R170). -/
theorem exec_addi (rd rs1 : RegIdx) (imm : BitVec 12) (s : State) :
    exec (.addi rd rs1 imm) s =
      .next (s.writeReg rd (alu .add (s.readReg rs1) (extend12 imm))) :=
  rfl

/-- Adding a sign-extended immediate is adding signed values modulo 2^32 (R9, R163). -/
theorem alu_add_extend12 (x : Word) (imm : BitVec 12) :
    alu .add x (extend12 imm) = BitVec.ofInt 32 (x.toInt + imm.toInt) :=
  calc x + BitVec.ofInt 32 imm.toInt
    _ = BitVec.ofInt 32 x.toInt + BitVec.ofInt 32 imm.toInt := by rw [BitVec.ofInt_toInt]
    _ = BitVec.ofInt 32 (x.toInt + imm.toInt) := (BitVec.ofInt_add _ _).symm

end Sys2Proof.Machine

open Sys2Proof Sys2Proof.Machine Sys2Proof.Claims

/-- Settles O46: ADDI is one writeback of the ALU's sum with the sign-extended immediate. -/
theorem addiAddsASignedImmediate : Obligations.AddiAddsASignedImmediate := by
  refine ⟨fun w hw => ?decodes, fun tab here a b c line label rd rs1 v ha hb hc hlo hhi => ?text,
    fun rd rs1 imm s => ⟨_, exec_addi rd rs1 imm s, ?writes, ?pc, ?frame⟩⟩
  case decodes => exact decode_of_mask (o := .addi) hw
  case text =>
    refine encodeRecord_of_assemble ?_
    rw [assemble_addi, formAddi_of_operands ha hb hc hlo hhi]
  case writes =>
    rw [alu_add_extend12]
    exact wrote_writeReg s rd _
  case pc => exact State.writeReg_pc s rd _
  case frame => exact onlyRegsAndPc_writeReg s rd _

end

section
/-! SUPPORT. O48, O49: the memory operand of the textual encoder, and what LW and SW do when their
access goes on and when it escalates. -/

namespace Sys2Proof.Machine

/-! ### `offset(register)` (R111) -/

theorem memOperand_of_parts {m : String} {off breg : List Char} {base : RegIdx} {v : Int}
    (hm : memOperand? m.toList = some (off, breg)) (hv : number? off = some v)
    (hb : reg? breg = some base) (hlo : -2048 ≤ v) (hhi : v ≤ 2047) :
    memOperand m = .ok (BitVec.ofInt 12 v, base) := by
  simp only [memOperand, hm, hb, hv, imm12_of_range hlo hhi]
  rfl

theorem formMem_of_operands (make : RegIdx → RegIdx → BitVec 12 → Instr) {a m : String}
    {r base : RegIdx} {imm : BitVec 12} (ha : reg? a.toList = some r)
    (hm : memOperand m = .ok (imm, base)) : formMem make [a, m] = .ok (make r base imm) := by
  rw [formMem, reg_of_reg? ha, hm]
  rfl

end Sys2Proof.Machine

namespace Sys2Proof.Claims
open Sys2Proof.Machine

/-- A mnemonic that the assembler hands to `formMem` has the operands of R111. -/
theorem textMem_of_assemble {name : String} {mk : RegIdx → RegIdx → BitVec 12 → Instr}
    (h : ∀ tab here rands line label,
      assemble tab here ⟨name, rands, line, label⟩ = formMem mk rands) : TextMem name mk :=
  fun tab here _ _ line label _ _ _ _ _ ha hm hv hb hlo hhi => encodeRecord_of_assemble <|
    (h tab here _ line label).trans
      (formMem_of_operands mk ha (memOperand_of_parts hm hv hb hlo hhi))

/-- The bits of an S-format word outside its operands (R85). -/
theorem packS_and_funct3Mask (imm rs2 rs1 f3 op : Word) :
    packS imm rs2 rs1 f3 op &&& 0x0000707F#32 =
      (0#17 ++ f3.setWidth 3 ++ 0#5 ++ op.setWidth 7 : BitVec 32) := by
  obtain ⟨-, -, -, h3, ho⟩ := fields_packS imm rs2 rs1 f3 op
  exact (funct3Mask_iff _ _ _).mpr ⟨h3, ho⟩

/-! ### Accesses that go on and accesses that escalate (R55, R56) -/

theorem not_escalates_of_goesOn {s : State} {a : Word}
    (h : Fits s a ∨ s.cfg.boundsPolicy = .warnNoop) : s.escalates (s.loadWord a).2 = false := by
  rw [← Bool.not_eq_true, escalates_loadWord_iff]
  rintro ⟨hout, hpolicy⟩
  obtain hfits | hwarn := h
  · exact hout hfits
  · cases hwarn.symm.trans hpolicy

/-- ExecuteError on a state that differs from `s` only in its outputs and has warned (R212). -/
theorem raisedFrom_raiseExecuteError {s u : State} (hflags : SameFlags s u) (hpc : u.pc = s.pc)
    (hregs : SameRegs s u) (hmem : SameMem s u) (hwarn : u.out.boundsWarn = true) :
    RaisedFrom s u.raiseExecuteError := by
  obtain ⟨hhalted, -, hcount, hcfg⟩ := hflags
  exact ⟨rfl, hhalted, hpc, hregs, hmem, hcount, hcfg, rfl, hwarn⟩

/-! ### The write transaction (R54) -/

theorem writeAccess_eq_write32 (s : State) (a v : Word) :
    writeAccess s a v = ⟨.write, a, v, (s.mem.write32 s.capacity a.toNat v).2⟩ := by
  have hoob : (s.mem.write32 s.capacity a.toNat v).2 =
      decide (s.cfg.memCapacity.val < a.toNat + 4) := by
    rw [write32_oob_eq_loadWord_oob, Bool.eq_iff_iff, State.loadWord_oob_iff, decide_eq_true_iff]
  rw [writeAccess, hoob]

theorem sameMemOutside_portWrite (s : State) (a v : Word) :
    SameMemOutside s (s.portWrite a v) a.toNat :=
  fun _ hb => Memory.get_write32_outside s.mem s.capacity a.toNat v hb

/-- A store that does not fit changes no byte (R54). -/
theorem sameMem_portWrite_of_not_fits {s : State} {a : Word} (h : ¬ Fits s a) (v : Word) :
    SameMem s (s.portWrite a v) := by
  have hout : inBounds s.capacity a.toNat = false := inBounds_eq_false (Nat.not_le.mp h)
  intro b
  rw [State.portWrite_mem, Memory.write32_outOfBounds hout]

end Sys2Proof.Claims

open Sys2Proof Sys2Proof.Machine Sys2Proof.Claims

/-- Settles O48: LW is one read of the port, then a writeback of what was read or, when the access
escalates, ExecuteError. -/
theorem loadWordFromTheDataRegion : Obligations.LoadWordFromTheDataRegion := by
  refine ⟨fun w hw => decode_of_mask (o := .lw) hw, textMem_of_assemble fun _ _ _ _ _ => rfl,
    fun rd rs1 imm s hon => ⟨_, execLw_loads (not_escalates_of_goesOn hon), ?loads⟩,
    fun rd rs1 imm s hout hpolicy =>
      ⟨_, execLw_raises ((escalates_loadWord_iff s _).mpr ⟨hout, hpolicy⟩), ?raises⟩⟩
  case loads =>
    rw [readAccess_eq_loadWord]
    exact ⟨wrote_writeReg (s.portRead _) rd _, State.writeReg_pc _ rd _, by simp [SameFlags],
      by simp [SameMem], State.writeReg_memPort _ rd _, State.writeReg_boundsWarn _ rd _,
      State.writeReg_stepStatus _ rd _⟩
  case raises =>
    refine raisedFrom_raiseExecuteError ⟨rfl, rfl, rfl, rfl⟩ rfl (fun _ => rfl) (fun _ => rfl) ?_
    simp [(not_fits_iff_loadWord_oob s _).mp hout]

/-- Settles O49: SW is one write of the port and, when the access escalates, ExecuteError. -/
theorem storeWordToTheDataRegion : Obligations.StoreWordToTheDataRegion := by
  refine ⟨fun w hw => decode_of_mask (o := .sw) hw,
    fun rs1 rs2 imm => packS_and_funct3Mask (arg imm) (arg rs2) (arg rs1) _ _,
    fun rs1 rs2 imm s hon => ⟨_, execSw_stores ?goesOn, ?stores⟩,
    fun rs1 rs2 imm s hout hpolicy => ⟨_, execSw_raises ?escalates, ?raises⟩⟩
  case goesOn =>
    rw [write32_oob_eq_loadWord_oob]
    exact not_escalates_of_goesOn hon
  case stores =>
    rw [writeAccess_eq_write32]
    refine ⟨fun _ => rfl, rfl, ⟨rfl, rfl, rfl, rfl⟩, fun a ha => ?outside,
      fun hwf hfits => holds_write32 hwf hfits _,
      fun hout => sameMem_portWrite_of_not_fits hout _, rfl, rfl, rfl⟩
    case outside =>
      cases ha
      exact sameMemOutside_portWrite s _ _
  case escalates =>
    rw [write32_oob_eq_loadWord_oob]
    exact (escalates_loadWord_iff s _).mpr ⟨hout, hpolicy⟩
  case raises =>
    refine raisedFrom_raiseExecuteError ⟨rfl, rfl, rfl, rfl⟩ rfl (fun _ => rfl)
      (sameMem_portWrite_of_not_fits hout _) ?_
    rw [State.portWrite_boundsWarn, write32_oob_eq_loadWord_oob,
      (not_fits_iff_loadWord_oob s _).mp hout, Bool.or_true]

end

section
/-! SUPPORT. O52: the upper immediate as a number and the sum AUIPC writes back. -/

namespace Sys2Proof.Machine

/-- AUIPC writes back its own address plus the upper immediate and does nothing else (R186). -/
theorem exec_auipc (rd : RegIdx) (imm20 : BitVec 20) (s : State) :
    exec (.auipc rd imm20) s = .next (s.writeReg rd (s.pcBefore + shiftUpper imm20)) :=
  rfl

/-- Twelve zero bits below the immediate multiply it by 2^12; nothing is lost in 32 bits (R91). -/
theorem toNat_shiftUpper (imm20 : BitVec 20) : (shiftUpper imm20).toNat = imm20.toNat * 2 ^ 12 := by
  rw [shiftUpper, BitVec.toNat_append, BitVec.toNat_zero, Nat.or_zero, Nat.shiftLeft_eq]

/-- Adding an upper immediate is adding its number modulo 2^32 (R8, R186). -/
theorem add_shiftUpper (x : Word) (imm20 : BitVec 20) :
    x + shiftUpper imm20 = BitVec.ofNat 32 (x.toNat + imm20.toNat * 2 ^ 12) := by
  rw [BitVec.add_def, toNat_shiftUpper]

end Sys2Proof.Machine

open Sys2Proof Sys2Proof.Machine Sys2Proof.Claims

/-- Settles O52: AUIPC is one writeback of its own address plus the shifted field. -/
theorem auipcAddsToItsOwnAddress : Obligations.AuipcAddsToItsOwnAddress := by
  refine ⟨fun w hw => ?decodes,
    fun rd imm20 pcBefore s hpc => ⟨_, exec_auipc rd imm20 s, ?writes, ?pc, ?frame⟩⟩
  case decodes => exact decode_of_mask (o := .auipc) hw
  case writes =>
    rw [pcBefore_of_pc hpc, add_shiftUpper]
    exact wrote_writeReg s rd _
  case pc => exact State.writeReg_pc s rd _
  case frame => exact onlyRegsAndPc_writeReg s rd _

end

section
/-! SUPPORT. O37, O55, O56: a jump is one writeback of the link and one write of `pc`; what the
control signals of section 7 say of an instruction's frame. -/

namespace Sys2Proof.Machine

/-- JAL writes back the link and sets `pc`, and does nothing else (R200). -/
theorem exec_jal (rd : RegIdx) (off : BitVec 21) (s : State) :
    exec (.jal rd off) s = .next ((s.writeReg rd s.linkValue).setPc (s.jalTarget off)) :=
  rfl

/-- JALR does the same with a target taken from a register (R201). -/
theorem exec_jalr (rd rs1 : RegIdx) (imm : BitVec 12) (s : State) :
    exec (.jalr rd rs1 imm) s =
      .next ((s.writeReg rd s.linkValue).setPc (s.jalrTarget rs1 imm)) :=
  rfl

/-- The mask of R201 clears bit 0 and keeps every other bit. -/
theorem getLsbD_and_clearBitZero (t : Word) (k : Nat) :
    (t &&& 0xFFFFFFFE#32).getLsbD k = (decide (k ≠ 0) && t.getLsbD k) := by
  rw [show (0xFFFFFFFE#32 : Word) = BitVec.allOnes 32 <<< 1 by decide,
    ← BitVec.shiftLeft_ushiftRight, BitVec.getLsbD_shiftLeft, BitVec.getLsbD_ushiftRight]
  cases k with
  | zero => simp
  | succ k =>
    rw [Nat.add_sub_cancel, Nat.add_comm 1 k]
    simpa using BitVec.lt_of_getLsbD

/-- The target of JALR: the signed sum modulo 2^32 with bit 0 cleared (R9, R201). -/
theorem jalrTarget_eq (s : State) (rs1 : RegIdx) (imm : BitVec 12) :
    s.jalrTarget rs1 imm =
      BitVec.ofInt 32 ((s.readReg rs1).toInt + imm.toInt) &&& 0xFFFFFFFE#32 :=
  congrArg (· &&& 0xFFFFFFFE#32) (alu_add_extend12 (s.readReg rs1) imm)

/-- All that a jump can do: write the link to its rd and set `pc` (R200, R201, R202). -/
theorem exec_jump_inv {i : Instr} {rd : RegIdx} {s t : State} (hop : i.op ∈ [Op.jal, Op.jalr])
    (hd : dest? i = some rd) (h : exec i s = .next t) :
    ∃ target, t = (s.writeReg rd s.linkValue).setPc target := by
  cases i with
  | jal | jalr =>
    cases hd
    cases h
    exact ⟨_, rfl⟩
  | add | sub | sll | xor | srl | sra | or | and | addi | lw | sw | lui | auipc
  | beq | bne | blt | bge => simp [Instr.op] at hop

/-- The operations outside R202's list take the sequential row of R26. -/
theorem pcSource_sequential_of_not_transfer {o : Op}
    (h : o ∉ [Op.beq, Op.bne, Op.blt, Op.bge, Op.jal, Op.jalr]) :
    (control o).pcSource = .sequential := by
  cases o with
  | beq | bne | blt | bge | jal | jalr => simp at h
  | add | sub | sll | xor | srl | sra | or | and | addi | lw | sw | lui | auipc => rfl

/-- No transfer of control accesses memory (R190, R200, R201). -/
theorem memory_none_of_transfer {o : Op}
    (h : o ∈ [Op.beq, Op.bne, Op.blt, Op.bge, Op.jal, Op.jalr]) : (control o).memory = .none := by
  cases o with
  | lw | sw => simp at h
  | add | sub | sll | xor | srl | sra | or | and | addi | lui | auipc
  | beq | bne | blt | bge | jal | jalr => rfl

end Sys2Proof.Machine

namespace Sys2Proof.Claims
open Sys2Proof.Machine

/-- The link value is the address after the jump (R202). -/
theorem linkValue_of_pc {s : State} {p : Word} (h : s.pc = p + 4#32) : s.linkValue = p + 4#32 := by
  rw [State.linkValue, pcBefore_of_pc h]

/-- A jump writes its link and no other register, whatever its target is (R200, R201). -/
theorem wrote_link {s : State} {p : Word} (h : s.pc = p + 4#32) (rd : RegIdx) (target : Word) :
    Wrote s ((s.writeReg rd s.linkValue).setPc target) rd (p + 4#32) := by
  rw [linkValue_of_pc h]
  exact wrote_writeReg s rd _

/-- An instruction whose memory column is empty leaves all but registers and `pc` alone (section
7). -/
theorem onlyRegsAndPc_of_execShape {i : Instr} {s t : State} (h : ExecShape i s t)
    (hm : (control i.op).memory = .none) : OnlyRegsAndPc s t := by
  cases h with
  | writes rd v => exact onlyRegsAndPc_writeReg s rd v
  | loads rd rs1 imm hi | loadRaises rd rs1 imm hi => subst hi; cases hm
  | stores rs1 rs2 imm hi | storeRaises rs1 rs2 imm hi => subst hi; cases hm
  | stays | branches => exact ⟨⟨rfl, rfl, rfl, rfl⟩, fun _ => rfl, rfl, rfl, rfl⟩
  | jumps rd | jumpsReg rd => exact onlyRegsAndPc_writeReg s rd s.linkValue

/-- A branch or JAL ends at the next address or at its own address plus its offset (R202). -/
theorem pcAfter_of_relativeTarget {i : Instr} {v : Int} (h : relativeTarget? i = some v)
    (s : State) : pcAfter s i = s.pc + 4#32 ∨ pcAfter s i = s.pc + BitVec.ofInt 32 v := by
  cases i with
  | beq | bne | blt | bge =>
    cases h
    exact (ite_eq_or_eq _ _ _).symm
  | jal rd off =>
    cases h
    exact .inr rfl
  | add | sub | sll | xor | srl | sra | or | and | addi | lw | sw | lui | auipc | jalr => cases h

end Sys2Proof.Claims

open Sys2Proof Sys2Proof.Machine Sys2Proof.Claims

/-- Settles O55: JAL is one writeback of the link and one write of `pc`. -/
theorem jalLinksAndJumps : Obligations.JalLinksAndJumps :=
  ⟨fun _ hw => decode_of_mask (o := .jal) hw,
    fun rd off _ s hpc => ⟨_, exec_jal rd off s, wrote_link hpc rd _, jalTarget_of_pc hpc off,
      onlyRegsAndPc_of_execShape (.jumps rd off rfl) rfl⟩⟩

/-- Settles O56: as JAL, and the mask clears bit 0 of the target alone. -/
theorem jalrLinksAndJumpsThroughARegister : Obligations.JalrLinksAndJumpsThroughARegister := by
  refine ⟨fun w hw => decode_of_mask (o := .jalr) hw,
    fun rd rs1 imm pcBefore s hpc => ⟨_, exec_jalr rd rs1 imm s, wrote_link hpc rd _,
      fun k => ?target, onlyRegsAndPc_of_execShape (.jumpsReg rd rs1 imm rfl) rfl⟩⟩
  case target => rw [State.setPc_pc, jalrTarget_eq, getLsbD_and_clearBitZero]

/-- Settles O37: what the columns "pc source" and "memory" say of the six operations, the link of a
jump, and `pcAfter` for a relative target. -/
theorem onlyTransfersChangePc : Obligations.OnlyTransfersChangePc := by
  refine ⟨fun i s t h hpc => ?complete, fun i s hop => ?frame,
    fun i rd pcBefore s t hop hd hrd hpc h => ?link, fun i v pcBefore s t hv hpc h => ?relative⟩
  case complete =>
    by_contra hop
    exact hpc (pc_of_sequential (exec_inv h) (pcSource_sequential_of_not_transfer hop))
  case frame =>
    obtain ⟨t, ht, hshape⟩ := exec_shape i s
    obtain ⟨hflags, hmem, -⟩ := onlyRegsAndPc_of_execShape hshape (memory_none_of_transfer hop)
    exact ⟨t, ht, hflags, hmem⟩
  case link =>
    obtain ⟨target, rfl⟩ := exec_jump_inv hop hd h
    rw [wrote_link hpc rd target rd, if_pos ⟨rfl, hrd⟩]
  case relative =>
    have ht : t.pc = pcAfter (s.setPc pcBefore) i := exec_pc (f := s) hpc (fun _ => rfl) h
    rw [ht, hpc]
    exact pcAfter_of_relativeTarget hv (s.setPc pcBefore)

end

section
/-! SUPPORT. O34: which accesses warn, in phase 5 and in a step, and what accompanies the warning under
each policy. -/

namespace Sys2Proof.Claims
open Sys2Proof.Machine

/-! ### The data access of phase 5 (R57, R213) -/

theorem accessFails_lw_iff (s : State) (rd rs1 : RegIdx) (imm : BitVec 12) :
    AccessFails s (.lw rd rs1 imm) ↔ (s.loadWord (s.effAddr rs1 imm)).2 = true := by
  simp [AccessFails, dataAddr?, not_fits_iff_loadWord_oob]

theorem accessFails_sw_iff (s : State) (rs1 rs2 : RegIdx) (imm : BitVec 12) :
    AccessFails s (.sw rs1 rs2 imm) ↔
      (s.mem.write32 s.capacity (s.effAddr rs1 imm).toNat (s.readReg rs2)).2 = true := by
  simp [AccessFails, dataAddr?, not_fits_iff_loadWord_oob, write32_oob_eq_loadWord_oob]

/-- Phase 5 adds a warning exactly for a data access that is out of bounds, whether it escalates or
not (R213). -/
theorem boundsWarn_of_exec {i : Instr} {s t : State} (h : exec i s = .next t) :
    t.out.boundsWarn = true ↔ s.out.boundsWarn = true ∨ AccessFails s i := by
  cases i with
  | lw rd rs1 imm =>
    rw [accessFails_lw_iff, ← Bool.or_eq_true]
    cases he : s.escalates (s.loadWord (s.effAddr rs1 imm)).2 with
    | true => cases (execLw_raises he).symm.trans h; rfl
    | false => cases (execLw_loads he).symm.trans h; simp
  | sw rs1 rs2 imm =>
    rw [accessFails_sw_iff, ← Bool.or_eq_true]
    cases he : s.escalates
        (s.mem.write32 s.capacity (s.effAddr rs1 imm).toNat (s.readReg rs2)).2 with
    | true => cases (execSw_raises he).symm.trans h; rfl
    | false => cases (execSw_stores he).symm.trans h; rfl
  | add | sub | sll | xor | srl | sra | or | and | addi | lui | auipc | beq | bne | blt | bge | jal
  | jalr =>
    obtain ⟨-, -, -, hwarn, -⟩ := onlyRegsAndPc_of_execShape (exec_inv h) rfl
    simp [hwarn, AccessFails, dataAddr?]

/-- Under `escalate` a data access that is out of bounds raises (R56, R212). -/
theorem error_of_accessFails {i : Instr} {s t : State} (h : exec i s = .next t)
    (hfails : AccessFails s i) (hpolicy : s.cfg.boundsPolicy = .escalate) : t.error = true := by
  cases i with
  | lw rd rs1 imm =>
    have he := (State.escalates_iff s _).mpr ⟨(accessFails_lw_iff s rd rs1 imm).mp hfails, hpolicy⟩
    cases (execLw_raises he).symm.trans h
    rfl
  | sw rs1 rs2 imm =>
    have he := (State.escalates_iff s _).mpr ⟨(accessFails_sw_iff s rs1 rs2 imm).mp hfails, hpolicy⟩
    cases (execSw_raises he).symm.trans h
    rfl
  | add | sub | sll | xor | srl | sra | or | and | addi | lui | auipc | beq | bne | blt | bge | jal
  | jalr =>
    obtain ⟨_, ha, -⟩ := hfails
    cases ha

/-! ### Steps -/

/-- A step that runs an instruction warns of its fetch and of its data access (R213). -/
theorem boundsWarn_of_exec_afterFetch {i : Instr} {s u : State}
    (h : exec i s.clearPulses.afterFetch = .next u) :
    u.out.boundsWarn = true ↔ (s.loadWord s.pc).2 = true ∨ AccessFails s i :=
  boundsWarn_of_exec h

/-- A step warns exactly when it fetches and its fetch or its data access is out of bounds (R213). -/
theorem boundsWarn_of_step {s t : State} (h : step s = .next t) :
    t.out.boundsWarn = true ↔
      Active s ∧ (¬ Fits s s.pc ∨ ∃ i, decode (fetched s) = .instr i ∧ AccessFails s i) := by
  rw [active_iff, not_fits_iff_loadWord_oob, fetched_eq_loadWord]
  cases step_inv h with
  | refuses he => simp [he]
  | idles _ hh => simp [hh]
  | halts _ _ ht => simp [ht]
  | fetchRaises he hh ht hf =>
    obtain ⟨hout, -⟩ := (State.escalates_iff s _).mp hf
    exact iff_of_true hout ⟨⟨he, hh, ht⟩, .inl hout⟩
  | illegal why he hh ht _ hd =>
    have hwarn : s.clearPulses.afterFetch.raiseDecodeError.out.boundsWarn =
        (s.loadWord s.pc).2 := rfl
    simp [hwarn, he, hh, ht, hd]
  | runs i u he hh ht _ hd hx =>
    simp [boundsWarn_of_exec_afterFetch hx, he, hh, ht, hd]

/-- Under `warn_noop` a step that warns raises DecodeError or nothing (R213). -/
theorem error_iff_illegal_of_warnNoop {s t : State} (h : step s = .next t)
    (hpolicy : s.cfg.boundsPolicy = .warnNoop) (hwarn : t.out.boundsWarn = true) :
    t.error = true ↔ ∃ why, decode (fetched s) = .illegal why := by
  rw [fetched_eq_loadWord]
  cases step_inv h with
  | refuses | idles | halts => cases hwarn
  | fetchRaises _ _ _ hf =>
    obtain ⟨-, hescalate⟩ := (State.escalates_iff s _).mp hf
    cases hpolicy.symm.trans hescalate
  | illegal why _ _ _ _ hd => exact iff_of_true rfl ⟨why, hd⟩
  | runs i u he _ _ _ hd hx =>
    have hu : ¬ u.error = true := fun hu => by
      obtain ⟨-, -, hescalate⟩ := raised_of_execShape (exec_inv hx) he hu
      cases hpolicy.symm.trans hescalate
    simp [hu, hd]

/-- Under `escalate` a step that warns raises ExecuteError (R212, R213). -/
theorem executeFail_of_escalate {s t : State} (h : step s = .next t)
    (hpolicy : s.cfg.boundsPolicy = .escalate) (hwarn : t.out.boundsWarn = true) :
    t.out.stepStatus = .executeFail := by
  cases step_inv h with
  | refuses | idles | halts => cases hwarn
  | fetchRaises => rfl
  | illegal _ _ _ _ hf =>
    have he : s.escalates (s.loadWord s.pc).2 = true :=
      (State.escalates_iff s _).mpr ⟨hwarn, hpolicy⟩
    cases hf.symm.trans he
  | runs i u he _ _ hf _ hx =>
    rw [State.complete_boundsWarn, boundsWarn_of_exec_afterFetch hx] at hwarn
    obtain hout | hfails := hwarn
    · cases hf.symm.trans ((State.escalates_iff s _).mpr ⟨hout, hpolicy⟩)
    · have hu : u.error = true := error_of_accessFails hx hfails hpolicy
      obtain ⟨hstatus, -⟩ := raised_of_execShape (exec_inv hx) he hu
      rw [State.complete_of_error u hu, hstatus]

/-- Phase 1 ends the pulse of the step before, and nothing reads it earlier (R213). -/
theorem step_setBoundsWarn (s : State) (b : Bool) :
    step { s with out := { s.out with boundsWarn := b } } = step s := rfl

end Sys2Proof.Claims

open Sys2Proof Sys2Proof.Machine Sys2Proof.Claims

/-- Settles O34: the pulse by the phase that ends the step, and what each policy makes of the access
behind it. -/
theorem boundsWarningOnlyWarns : Obligations.BoundsWarningOnlyWarns := by
  refine ⟨fun s t h => ⟨boundsWarn_of_step h,
    fun hpolicy hwarn => ⟨?running, error_iff_illegal_of_warnNoop h hpolicy hwarn⟩,
    executeFail_of_escalate h⟩, step_setBoundsWarn⟩
  case running =>
    obtain ⟨hactive, -⟩ := (boundsWarn_of_step h).mp hwarn
    obtain ⟨-, hh, ht⟩ := (active_iff s).mp hactive
    rw [← Bool.not_eq_true]
    intro hhalts
    cases ht.symm.trans (haltTest_of_step_halts h hh hhalts)

end

section
/-! SUPPORT. O20: the bytes of memory after a store, and the bytes of a word that is read. -/

namespace Sys2Proof.Claims
open Sys2Proof.Machine

/-- Memory holds the word it reads as (R51). -/
theorem holds_wordAt (m : Memory) (a : Nat) : Holds m a (wordAt m a) := by
  have h0 := (m.get a).isLt
  have h1 := (m.get (a + 1)).isLt
  have h2 := (m.get (a + 2)).isLt
  have h3 := (m.get (a + 3)).isLt
  intro k hk
  rw [wordAt, wordOf, BitVec.toNat_ofNat]
  match k, hk with
  | 0, _ => rw [Nat.add_zero]; omega
  | 1, _ | 2, _ | 3, _ => omega

/-- Every byte after a store in bounds: the stored word's byte inside the word, the old byte outside
it (R54). -/
theorem toNat_get_write32 {m : Memory} (hm : m.wf = true) {cap a : Nat} (h : a + 4 ≤ cap)
    (v : Word) (b : Nat) :
    ((m.write32 cap a v).1.get b).toNat =
      if a ≤ b ∧ b < a + 4 then v.toNat / 2 ^ (8 * (b - a)) % 2 ^ 8 else (m.get b).toNat := by
  split
  case isTrue hin =>
    obtain ⟨hle, hlt⟩ := hin
    have hbyte := holds_write32 hm h v (b - a) (by omega)
    rwa [Nat.add_sub_cancel' hle] at hbyte
  case isFalse hout => rw [Memory.get_write32_outside m cap a v (by omega)]

theorem loadWord_of_fits {s : State} {a : Word} (h : Fits s a) :
    s.loadWord a = (wordAt s.mem a.toNat, false) := by
  rw [loadWord_eq, if_neg (Nat.not_lt.mpr h)]

/-- A store in bounds raises nothing under either policy: it is its write of the port (R177). -/
theorem exec_sw_of_fits {s : State} {rs1 : RegIdx} {imm : BitVec 12}
    (h : Fits s (s.effAddr rs1 imm)) (rs2 : RegIdx) :
    exec (.sw rs1 rs2 imm) s = .next (s.portWrite (s.effAddr rs1 imm) (s.readReg rs2)) := by
  apply execSw_stores
  rw [write32_oob_eq_loadWord_oob]
  exact not_escalates_of_goesOn (.inl h)

end Sys2Proof.Claims

open Sys2Proof Sys2Proof.Machine Sys2Proof.Claims

/-- Settles O20: a word that is read is the four bytes memory holds, and the store's rule gives each
of them. -/
theorem readsAfterAStoreSeeIt : Obligations.ReadsAfterAStoreSeeIt := by
  intro rs1 rs2 imm s t hwf hstore hexec addr hread
  cases (exec_sw_of_fits hstore rs2).symm.trans hexec
  refine ⟨_, loadWord_of_fits hread, fun k hk => ?_⟩
  rw [← holds_wordAt _ _ k hk]
  exact toNat_get_write32 hwf hstore (s.readReg rs2) (addr.toNat + k)

end

section
/-! SUPPORT. O15 to O18: the four parts of the invariant, what phase 5 and a step do to each, and
which steps set a flag. -/

namespace Sys2Proof

/-! ### Even patterns (R25, R92, R93) -/

theorem evenOffset_iff {n : Nat} (x : BitVec n) : evenOffset x = true ↔ x.toNat % 2 = 0 := by
  simp [evenOffset, BitVec.getLsbD]

theorem evenOffset_add {a b : Word} (ha : evenOffset a = true) (hb : evenOffset b = true) :
    evenOffset (a + b) = true := by
  rw [evenOffset_iff] at *
  rw [BitVec.toNat_add]
  omega

theorem evenOffset_sub {a b : Word} (ha : evenOffset a = true) (hb : evenOffset b = true) :
    evenOffset (a - b) = true := by
  rw [evenOffset_iff] at *
  rw [BitVec.toNat_sub]
  omega

/-- Sign extension keeps bit 0 (R9). -/
theorem evenOffset_signExtend {n : Nat} {off : BitVec (n + 1)} (h : evenOffset off = true) :
    evenOffset (off.signExtend 32) = true := by
  rw [evenOffset, getLsbD_signExtend_word off (by decide), if_pos (Nat.zero_le n)]
  exact h

/-- The mask of R201 makes any target even. -/
theorem evenOffset_and_clearBitZero (t : Word) : evenOffset (t &&& 0xFFFFFFFE#32) = true := by
  simp [evenOffset]

end Sys2Proof

namespace Sys2Proof.Machine

/-! ### The parts of the invariant in phase 5 -/

theorem State.inv_iff (s : State) :
    s.inv = true ↔ evenOffset s.pc = true ∧ (s.halted = true → s.error = false) ∧ s.regs[0] = 0 ∧
      s.mem.wf = true ∧ s.mem.within s.capacity = true := by
  have hflags : s.flagsExclusive = true ↔ (s.halted = true → s.error = false) := by
    cases hh : s.halted <;> simp [State.flagsExclusive, hh]
  rw [State.inv, Bool.and_eq_true, Bool.and_eq_true, Bool.and_eq_true, hflags, State.zeroHeld,
    decide_eq_true_iff, State.memGood, Bool.and_eq_true, and_assoc, and_assoc]
  rfl

theorem evenOffset_pcBefore {s : State} (h : evenOffset s.pc = true) :
    evenOffset s.pcBefore = true :=
  evenOffset_sub h rfl

/-- A well-formed instruction leaves an even `pc`: a relative target adds an even offset, JALR masks
(R25, R190, R200, R201). -/
theorem evenOffset_pc_of_execShape {i : Instr} {s t : State} (h : ExecShape i s t)
    (hwf : i.wf = true) (hpc : evenOffset s.pc = true) : evenOffset t.pc = true := by
  cases h with
  | writes | loads => simpa using hpc
  | loadRaises | stores | storeRaises | stays => exact hpc
  | branches off _ ho =>
    exact evenOffset_add (evenOffset_pcBefore hpc) (evenOffset_signExtend (ho hwf))
  | jumps rd off hi =>
    subst hi
    exact evenOffset_add (evenOffset_pcBefore hpc) (evenOffset_signExtend hwf)
  | jumpsReg => exact evenOffset_and_clearBitZero _

/-- No instruction writes the storage behind x0 (R22). -/
theorem zeroSlot_of_execShape {i : Instr} {s t : State} (h : ExecShape i s t) :
    t.regs[0] = s.regs[0] := by
  cases h with
  | writes rd v | jumps rd | jumpsReg rd => exact State.zeroSlot_writeReg s rd _
  | loads rd => exact State.zeroSlot_writeReg (s.portRead _) rd _
  | loadRaises | stores | storeRaises | stays | branches => rfl

/-- The only memory an instruction leaves beside the old one is that of a word write (R54, R177). -/
theorem mem_of_execShape {i : Instr} {s t : State} (h : ExecShape i s t) :
    t.mem = s.mem ∨ ∃ a v, t.mem = (s.mem.write32 s.capacity a v).1 := by
  cases h with
  | stores | storeRaises => exact .inr ⟨_, _, rfl⟩
  | writes | loads | jumps | jumpsReg => exact .inl (by simp)
  | loadRaises | stays | branches => exact .inl rfl

end Sys2Proof.Machine

namespace Sys2Proof.Claims
open Sys2Proof.Machine

/-- Phase 5 keeps the invariant of a Running state. -/
theorem inv_of_execShape {i : Instr} {s t : State} (h : ExecShape i s t) (hwf : i.wf = true)
    (hh : s.halted = false) (hs : s.inv = true) : t.inv = true := by
  rw [State.inv_iff] at hs ⊢
  obtain ⟨hpc, -, hzero, hcanon, hwithin⟩ := hs
  obtain ⟨hhalted, -, hcfg⟩ := halted_instret_cfg_of_execShape h
  refine ⟨evenOffset_pc_of_execShape h hwf hpc, by simp [hhalted, hh],
    (zeroSlot_of_execShape h).trans hzero, ?_⟩
  rw [State.capacity_congr hcfg]
  obtain hmem | ⟨a, v, hmem⟩ := mem_of_execShape h <;> rw [hmem]
  · exact ⟨hcanon, hwithin⟩
  · exact ⟨Memory.wf_write32 hcanon _ a v, Memory.within_write32 hwithin a v⟩

/-- The fetch keeps the invariant (R123). -/
theorem inv_afterFetch {s : State} (hs : s.inv = true) : s.clearPulses.afterFetch.inv = true := by
  rw [State.inv_iff] at hs ⊢
  obtain ⟨hpc, hrest⟩ := hs
  exact ⟨evenOffset_add hpc rfl, hrest⟩

/-- Taking an error keeps the invariant of a state that is not Halted (R28, R132). -/
theorem inv_raiseError {s : State} (hh : s.halted = false) (hs : s.inv = true) (st : StepStatus) :
    (s.raiseError st).inv = true := by
  rw [State.inv_iff] at hs ⊢
  obtain ⟨hpc, -, hrest⟩ := hs
  exact ⟨hpc, by simp [hh], hrest⟩

theorem inv_setHalted {s : State} (he : s.error = false) (hs : s.inv = true) :
    s.setHalted.inv = true := by
  rw [State.inv_iff] at hs ⊢
  obtain ⟨hpc, -, hrest⟩ := hs
  exact ⟨hpc, fun _ => he, hrest⟩

theorem inv_complete {s : State} (hs : s.inv = true) : s.complete.inv = true := by
  rw [State.inv_iff] at hs ⊢
  simpa [State.capacity] using hs

theorem inv_of_step {s t : State} (hs : s.inv = true) (h : step s = .next t) : t.inv = true := by
  cases step_inv h with
  | refuses | idles => exact hs
  | halts he => exact inv_setHalted (s := s.clearPulses) he hs
  | fetchRaises _ hh | illegal _ _ hh =>
    exact inv_raiseError (s := s.clearPulses.afterFetch) hh (inv_afterFetch hs) _
  | runs i u _ hh _ _ hd hx =>
    exact inv_complete (inv_of_execShape (exec_inv hx) (decode_wf hd) hh (inv_afterFetch hs))

theorem inv_of_reaches {s t : State} (hs : s.inv = true) (h : Reaches s t) : t.inv = true := by
  induction h with
  | start => exact hs
  | step _ hstep ih => exact inv_of_step ih hstep

/-- The loader's image is canonical and inside the byte array; reset gives the rest (R68, R243). -/
theorem inv_boot (cfg : Config) (program : List Word) (data : List StaticDatum) :
    (boot cfg program data).inv = true :=
  (State.inv_iff _).mpr
    ⟨by rw [boot, State.resetEvent_pc]; rfl, fun _ => rfl, rfl, loadImage_good cfg program data⟩

/-! ### Which steps set a flag (R28) -/

theorem halted_of_active_step {s t : State} (ha : Active s) (h : step s = .next t) :
    t.halted = false := by
  obtain ⟨-, hh, ht⟩ := (active_iff s).mp ha
  rw [← Bool.not_eq_true]
  intro hhalts
  cases ht.symm.trans (haltTest_of_step_halts h hh hhalts)

/-- A step that does not fetch leaves `error` as it is (R121, R122). -/
theorem error_of_inactive_step {s t : State} (ha : ¬ Active s) (h : step s = .next t) :
    t.error = s.error := by
  rw [active_iff] at ha
  cases step_inv h with
  | refuses | idles | halts => rfl
  | fetchRaises he hh ht => exact absurd ⟨he, hh, ht⟩ ha
  | illegal _ he hh ht => exact absurd ⟨he, hh, ht⟩ ha
  | runs _ _ he hh ht => exact absurd ⟨he, hh, ht⟩ ha

end Sys2Proof.Claims

open Sys2Proof Sys2Proof.Machine Sys2Proof.Claims

/-- Settles O15: the fetch, phase 5, a raise, the halt and the count each keep the invariant. -/
theorem stepKeepsInvariant : Obligations.StepKeepsInvariant := fun _ _ => inv_of_step

/-- Settles O16: every part of the invariant on the reset state. -/
theorem resetHasInvariant : Obligations.ResetHasInvariant :=
  (State.inv_iff _).mpr ⟨rfl, fun _ => rfl, rfl, rfl, rfl⟩

/-- Settles O17: the loader's writes keep memory canonical and inside the byte array. -/
theorem bootHasInvariant : Obligations.BootHasInvariant := inv_boot

/-- Settles O18: the invariant along a run; a step that fetches sets no `halted`, one that does not
sets no `error`. -/
theorem flagsAreNeverBothSet : Obligations.FlagsAreNeverBothSet := by
  refine ⟨fun cfg program data t hreach => ?never, fun s t h hs ht => ?halts,
    fun s t h hs ht => ?errs, fun s t h hflag => ?holds⟩
  case never =>
    obtain ⟨-, hexcl, -⟩ := (State.inv_iff t).mp (inv_of_reaches (inv_boot cfg program data) hreach)
    rintro ⟨hh, he⟩
    cases he.symm.trans (hexcl hh)
  case halts =>
    have hinactive : ¬ Active s := fun ha => by cases ht.symm.trans (halted_of_active_step ha h)
    have hpc : s.haltTest = true := haltTest_of_step_halts h hs ht
    cases he : s.error with
    | true =>
      cases (step_eq_refused he).symm.trans h
      cases hs.symm.trans ht
    | false => exact ⟨rfl, (error_of_inactive_step hinactive h).trans he, hinactive⟩
  case errs =>
    have ha : Active s := by
      by_contra ha
      cases (ht.symm.trans (error_of_inactive_step ha h)).trans hs
    exact ⟨ha, halted_of_active_step ha h⟩
  case holds =>
    by_cases he : s.error = true
    · cases (step_eq_refused he).symm.trans h
      rfl
    · cases (step_eq_idle (Bool.eq_false_iff.mpr he) (hflag.resolve_right he)).symm.trans h
      rfl

end

section
/-! SUPPORT. O3, O4: a word is its fields, so a builder undoes its accessors; the fields the encoder
writes, so the decoder undoes it; and what becomes of the don't-care bits. -/

namespace Sys2Proof

/-! ### A word is determined by its fields, put together from bit 0 upwards -/

/-- Two words have the same low `n` bits. -/
def AgreeBelow (n : Nat) (w v : Word) : Prop := ∀ k < n, w.getLsbD k = v.getLsbD k

section
variable {n m : Nat} {w v : Word}

theorem agreeBelow_zero (w v : Word) : AgreeBelow 0 w v := fun k hk => by omega

/-- One more field that is equal in both words. -/
theorem AgreeBelow.field (h : AgreeBelow n w v) (hf : w.extractLsb' n m = v.extractLsb' n m) :
    AgreeBelow (n + m) w v := by
  intro k hk
  by_cases hkn : k < n
  · exact h k hkn
  · have hbit := congrArg (fun f => f.getLsbD (k - n)) hf
    have hlt : k - n < m := by omega
    simpa [hlt, Nat.add_sub_cancel' (Nat.le_of_not_lt hkn)] using hbit

theorem AgreeBelow.eq (h : AgreeBelow 32 w v) : w = v := BitVec.eq_of_getLsbD_eq h

theorem word_ext_r (ho : opcodeOf w = opcodeOf v) (hd : rdOf w = rdOf v)
    (h3 : funct3Of w = funct3Of v) (h1 : rs1Of w = rs1Of v) (h2 : rs2Of w = rs2Of v)
    (h7 : funct7Of w = funct7Of v) : w = v :=
  (agreeBelow_zero w v).field ho |>.field hd |>.field h3 |>.field h1 |>.field h2 |>.field h7 |>.eq

theorem word_ext_i (ho : opcodeOf w = opcodeOf v) (hd : rdOf w = rdOf v)
    (h3 : funct3Of w = funct3Of v) (h1 : rs1Of w = rs1Of v) (hi : immIBits w = immIBits v) :
    w = v :=
  (agreeBelow_zero w v).field ho |>.field hd |>.field h3 |>.field h1 |>.field hi |>.eq

theorem word_ext_s (ho : opcodeOf w = opcodeOf v) (h3 : funct3Of w = funct3Of v)
    (h1 : rs1Of w = rs1Of v) (h2 : rs2Of w = rs2Of v) (hi : immSBits w = immSBits v) : w = v := by
  obtain ⟨h7, hd⟩ := (append_inj _ _ _ _).mp hi
  exact word_ext_r ho hd h3 h1 h2 h7

theorem word_ext_u (ho : opcodeOf w = opcodeOf v) (hd : rdOf w = rdOf v)
    (hi : imm20Of w = imm20Of v) : w = v :=
  (agreeBelow_zero w v).field ho |>.field hd |>.field hi |>.eq

theorem word_ext_b (ho : opcodeOf w = opcodeOf v) (h3 : funct3Of w = funct3Of v)
    (h1 : rs1Of w = rs1Of v) (h2 : rs2Of w = rs2Of v) (hi : immBBits w = immBBits v) : w = v := by
  obtain ⟨hi, -⟩ := (append_inj _ _ _ _).mp hi
  obtain ⟨hi, hlow⟩ := (append_inj _ _ _ _).mp hi
  obtain ⟨hi, hmid⟩ := (append_inj _ _ _ _).mp hi
  obtain ⟨htop, heleven⟩ := (append_inj _ _ _ _).mp hi
  exact (agreeBelow_zero w v).field ho |>.field heleven |>.field hlow |>.field h3 |>.field h1
    |>.field h2 |>.field hmid |>.field htop |>.eq

theorem word_ext_j (ho : opcodeOf w = opcodeOf v) (hd : rdOf w = rdOf v)
    (hi : immJBits w = immJBits v) : w = v := by
  obtain ⟨hi, -⟩ := (append_inj _ _ _ _).mp hi
  obtain ⟨hi, hlow⟩ := (append_inj _ _ _ _).mp hi
  obtain ⟨hi, heleven⟩ := (append_inj _ _ _ _).mp hi
  obtain ⟨htop, hmid⟩ := (append_inj _ _ _ _).mp hi
  exact (agreeBelow_zero w v).field ho |>.field hd |>.field hmid |>.field heleven |>.field hlow
    |>.field htop |>.eq
end

/-! ### Masking a builder's argument to its own width -/

@[simp] theorem setWidth_arg {n : Nat} (f : BitVec n) (h : n ≤ 32) : (arg f).setWidth n = f := by
  rw [arg, BitVec.setWidth_setWidth_of_le f h, BitVec.setWidth_eq]

theorem setWidth_signExtend_word {n : Nat} (f : BitVec (n + 1)) (h : n < 32) :
    (f.signExtend 32).setWidth (n + 1) = f := by
  apply BitVec.eq_of_getLsbD_eq
  intro k hk
  rw [BitVec.getLsbD_setWidth, decide_eq_true hk, Bool.true_and,
    getLsbD_signExtend_word f (by omega), if_pos (Nat.lt_succ_iff.mp hk)]

theorem setWidth_ofInt {n : Nat} (h : n ≤ 32) (v : Int) :
    (BitVec.ofInt 32 v).setWidth n = BitVec.ofInt n v := by
  have hdvd : (2 : Nat) ^ n ∣ 2 ^ 32 := Nat.pow_dvd_pow 2 h
  apply BitVec.eq_of_toNat_eq
  have hmod : (v % (2 ^ 32 : Nat) % (2 ^ n : Nat)).toNat = (v % (2 ^ 32 : Nat)).toNat % 2 ^ n := by
    rw [Int.toNat_emod (Int.emod_nonneg v (by decide)) (Int.natCast_nonneg _), Int.toNat_natCast]
  rw [BitVec.toNat_setWidth, BitVec.toNat_ofInt, BitVec.toNat_ofInt, ← hmod,
    Int.emod_emod_of_dvd v (Int.natCast_dvd_natCast.mpr hdvd)]

/-- Clearing bit 0 of an even offset changes nothing (R92, R93). -/
theorem and_evenMask_of_even {n : Nat} {off : BitVec n} (h : evenOffset off = true) :
    off &&& (BitVec.allOnes n <<< 1) = off := by
  have hzero : off.getLsbD 0 = false := by simpa [evenOffset] using h
  apply BitVec.eq_of_getLsbD_eq
  intro k hk
  rw [BitVec.getLsbD_and, BitVec.getLsbD_shiftLeft]
  cases k with
  | zero => simp [hzero]
  | succ k => simp [hk, show k < n by omega]

theorem and_mask13_of_even {off : BitVec 13} (h : evenOffset off = true) :
    off &&& 0x1FFE#13 = off :=
  and_evenMask_of_even h

theorem and_mask21_of_even {off : BitVec 21} (h : evenOffset off = true) :
    off &&& 0x1FFFFE#21 = off :=
  and_evenMask_of_even h

theorem evenOffset_ofInt {n : Nat} (hn : n ≠ 0) {v : Int} (h : v % 2 = 0) :
    evenOffset (BitVec.ofInt n v) = true := by
  have hdvd : (2 : Int) ∣ (2 ^ n : Nat) := by exact_mod_cast dvd_pow_self 2 hn
  have hmod : v % (2 ^ n : Nat) % 2 = 0 := by rw [Int.emod_emod_of_dvd v hdvd, h]
  rw [evenOffset_iff, BitVec.toNat_ofInt]
  omega

/-! ### An immediate survives its builder (R109 (a)) -/

section
variable (v : Int) (a b c d : Word)

theorem toInt_immI_packI (hlo : -2048 ≤ v) (hhi : v ≤ 2047) :
    (immI (packI (BitVec.ofInt 32 v) a b c d)).toInt = v := by
  rw [immI_packI, extend12, BitVec.toInt_signExtend_of_le (by decide), setWidth_ofInt (by decide)]
  exact BitVec.toInt_ofInt_eq_self (by decide) hlo (Int.lt_of_le_sub_one hhi)

theorem toInt_immS_packS (hlo : -2048 ≤ v) (hhi : v ≤ 2047) :
    (immS (packS (BitVec.ofInt 32 v) a b c d)).toInt = v := by
  rw [immS, immSBits_packS, extend12, BitVec.toInt_signExtend_of_le (by decide),
    setWidth_ofInt (by decide)]
  exact BitVec.toInt_ofInt_eq_self (by decide) hlo (Int.lt_of_le_sub_one hhi)

theorem toInt_immB_packB (hlo : -4096 ≤ v) (hhi : v ≤ 4094) (heven : v % 2 = 0) :
    (immB (packB (BitVec.ofInt 32 v) a b c d)).toInt = v := by
  rw [immB, immBBits_packB, extend13, BitVec.toInt_signExtend_of_le (by decide),
    setWidth_ofInt (by decide), and_mask13_of_even (evenOffset_ofInt (by decide) heven)]
  exact BitVec.toInt_ofInt_eq_self (by decide) hlo (by omega)

theorem toInt_immJ_packJ (hlo : -1048576 ≤ v) (hhi : v ≤ 1048574) (heven : v % 2 = 0) :
    (immJ (packJ (BitVec.ofInt 32 v) a b)).toInt = v := by
  rw [immJ, immJBits_packJ, extend21, BitVec.toInt_signExtend_of_le (by decide),
    setWidth_ofInt (by decide), and_mask21_of_even (evenOffset_ofInt (by decide) heven)]
  exact BitVec.toInt_ofInt_eq_self (by decide) hlo (by omega)

theorem imm20Of_packU : imm20Of (packU (BitVec.ofInt 32 v) a b) = BitVec.ofInt 20 v := by
  rw [(fields_packU _ _ _).1, setWidth_ofInt (by decide)]
end

/-! ### A builder applied to a word's fields gives the word (R109 (b)) -/

section
variable (w : Word)

theorem packR_fields :
    packR (arg (funct7Of w)) (arg (rs2Of w)) (arg (rs1Of w)) (arg (funct3Of w)) (arg (rdOf w))
      (arg (opcodeOf w)) = w := by
  apply word_ext_r <;> simp [fields_packR]

theorem packI_fields :
    packI (immI w) (arg (rs1Of w)) (arg (funct3Of w)) (arg (rdOf w)) (arg (opcodeOf w)) = w := by
  have himm : (immI w).setWidth 12 = immIBits w := setWidth_signExtend_word _ (by decide)
  apply word_ext_i <;> simp [fields_packI, himm]

theorem packS_fields :
    packS (immS w) (arg (rs2Of w)) (arg (rs1Of w)) (arg (funct3Of w)) (arg (opcodeOf w)) = w := by
  have himm : (immS w).setWidth 12 = immSBits w := setWidth_signExtend_word _ (by decide)
  apply word_ext_s <;> simp [fields_packS, himm]

theorem packU_fields : packU (arg (imm20Of w)) (arg (rdOf w)) (arg (opcodeOf w)) = w := by
  apply word_ext_u <;> simp [fields_packU]

theorem packB_fields :
    packB (immB w) (arg (rs2Of w)) (arg (rs1Of w)) (arg (funct3Of w)) (arg (opcodeOf w)) = w := by
  have himm : (immB w).setWidth 13 = immBBits w := setWidth_signExtend_word _ (by decide)
  have heven := and_mask13_of_even (evenOffset_immBBits w)
  apply word_ext_b <;> simp [fields_packB, himm, heven]

theorem packJ_fields : packJ (immJ w) (arg (rdOf w)) (arg (opcodeOf w)) = w := by
  have himm : (immJ w).setWidth 21 = immJBits w := setWidth_signExtend_word _ (by decide)
  have heven := and_mask21_of_even (evenOffset_immJBits w)
  apply word_ext_j <;> simp [fields_packJ, himm, heven]
end

/-! ### The decoder undoes the encoder -/

/-- The encoder writes the fields that select the instruction's operation (R95). -/
theorem fieldsSelect_encode (i : Instr) : FieldsSelect (encode i) i.op := by
  cases i with
  | add | sub | sll | xor | srl | sra | or | and =>
    simp [FieldsSelect, Instr.op, encode, fields_packR]
  | addi | lw | jalr => simp [FieldsSelect, Instr.op, encode, fields_packI]
  | sw => simp [FieldsSelect, Instr.op, encode]
  | lui | auipc => simp [FieldsSelect, Instr.op, encode]
  | beq | bne | blt | bge => simp [FieldsSelect, Instr.op, encode, fields_packB]
  | jal => simp [FieldsSelect, Instr.op, encode]

/-- The operands of a well-formed instruction stand in the fields of its word. -/
theorem operandsFrom_encode {i : Instr} (h : i.wf = true) : operandsFrom (encode i) i.op = i := by
  cases i with
  | add | sub | sll | xor | srl | sra | or | and =>
    simp [operandsFrom, Instr.op, encode, fields_packR]
  | addi | lw | jalr => simp [operandsFrom, Instr.op, encode, fields_packI]
  | sw => simp [operandsFrom, Instr.op, encode, fields_packS]
  | lui | auipc => simp [operandsFrom, Instr.op, encode, fields_packU]
  | beq | bne | blt | bge =>
    simp [operandsFrom, Instr.op, encode, fields_packB, and_mask13_of_even h]
  | jal => simp [operandsFrom, Instr.op, encode, fields_packJ, and_mask21_of_even h]

theorem decode_encode {i : Instr} (h : i.wf = true) : decode (encode i) = .instr i := by
  rw [decode_of_fields (fieldsSelect_encode i), operandsFrom_encode h]

/-! ### Don't-care bits (R95, R96, R98) -/

theorem getLsbD_canonicalize (o : Op) (w : Word) (k : Nat) :
    (o.canonicalize w).getLsbD k =
      if o.dontCare.getLsbD k then o.row.canonical.getLsbD k else w.getLsbD k := by
  by_cases hk : k < 32
  · simp only [Op.canonicalize, BitVec.getLsbD_or, BitVec.getLsbD_and, BitVec.getLsbD_not, hk]
    cases o.dontCare.getLsbD k <;> simp
  · simp [BitVec.getLsbD_of_ge _ k (Nat.le_of_not_lt hk)]

/-- A field without don't-care bits is kept. -/
theorem extractLsb'_canonicalize_kept {o : Op} {s n : Nat} (h : o.dontCare.extractLsb' s n = 0#n)
    (w : Word) : (o.canonicalize w).extractLsb' s n = w.extractLsb' s n := by
  apply BitVec.eq_of_getLsbD_eq
  intro k hk
  have hbit : o.dontCare.getLsbD (s + k) = false := by
    simpa [hk] using congrArg (fun f => f.getLsbD k) h
  simp [getLsbD_canonicalize, hbit]

/-- A field of don't-care bits alone becomes that of the canonical column. -/
theorem extractLsb'_canonicalize_replaced {o : Op} {s n : Nat}
    (h : o.dontCare.extractLsb' s n = BitVec.allOnes n) (w : Word) :
    (o.canonicalize w).extractLsb' s n = o.row.canonical.extractLsb' s n := by
  apply BitVec.eq_of_getLsbD_eq
  intro k hk
  have hbit : o.dontCare.getLsbD (s + k) = true := by
    simpa [hk] using congrArg (fun f => f.getLsbD k) h
  simp [getLsbD_canonicalize, hbit]

theorem canonicalize_of_noDontCare {o : Op} (h : o.dontCare = 0#32) (w : Word) :
    o.canonicalize w = w := by
  apply BitVec.eq_of_getLsbD_eq
  intro k hk
  simp [getLsbD_canonicalize, h]

section
variable (o : Op) (w : Word)

@[simp] theorem opcodeOf_canonicalize : opcodeOf (o.canonicalize w) = opcodeOf w :=
  extractLsb'_canonicalize_kept (by cases o <;> rfl) w

@[simp] theorem rdOf_canonicalize : rdOf (o.canonicalize w) = rdOf w :=
  extractLsb'_canonicalize_kept (by cases o <;> rfl) w

@[simp] theorem rs1Of_canonicalize : rs1Of (o.canonicalize w) = rs1Of w :=
  extractLsb'_canonicalize_kept (by cases o <;> rfl) w

@[simp] theorem rs2Of_canonicalize : rs2Of (o.canonicalize w) = rs2Of w :=
  extractLsb'_canonicalize_kept (by cases o <;> rfl) w

variable {o}

theorem funct3Of_canonicalize (h : o ∈ [Op.sll, Op.xor, Op.or, Op.and]) :
    funct3Of (o.canonicalize w) = funct3Of w := by
  simp only [List.mem_cons, List.not_mem_nil, or_false] at h
  obtain rfl | rfl | rfl | rfl := h <;> exact extractLsb'_canonicalize_kept rfl w

theorem funct7Of_canonicalize (h : o ∈ [Op.sll, Op.xor, Op.or, Op.and]) :
    funct7Of (o.canonicalize w) = 0#7 := by
  simp only [List.mem_cons, List.not_mem_nil, or_false] at h
  obtain rfl | rfl | rfl | rfl := h <;> exact extractLsb'_canonicalize_replaced rfl w

theorem funct3Of_canonicalize_sw : funct3Of (Op.sw.canonicalize w) = 2#3 :=
  extractLsb'_canonicalize_replaced rfl w

/-- SW has its don't-care bits between its immediate's two pieces (R98). -/
theorem immSBits_canonicalize_sw : immSBits (Op.sw.canonicalize w) = immSBits w :=
  (append_inj _ _ _ _).mpr
    ⟨extractLsb'_canonicalize_kept rfl w, extractLsb'_canonicalize_kept rfl w⟩
end

/-- The decoder looks at no don't-care bit to choose the operation (R94). -/
theorem fieldsSelect_canonicalize {w : Word} {o : Op} (h : FieldsSelect w o) :
    FieldsSelect (o.canonicalize w) o := by
  cases o with
  | sll | xor | or | and => exact ⟨(funct3Of_canonicalize w (by decide)).trans h.1, by simp [h.2]⟩
  | sw => exact (opcodeOf_canonicalize .sw w).trans h
  | add | sub | srl | sra | addi | lw | lui | auipc | beq | bne | blt | bge | jal | jalr =>
    rwa [canonicalize_of_noDontCare rfl]

/-- No operand holds a don't-care bit. -/
theorem operandsFrom_canonicalize (w : Word) (o : Op) :
    operandsFrom (o.canonicalize w) o = operandsFrom w o := by
  cases o with
  | sll | xor | or | and => simp [operandsFrom]
  | sw => simp [operandsFrom, immSBits_canonicalize_sw]
  | add | sub | srl | sra | addi | lw | lui | auipc | beq | bne | blt | bge | jal | jalr =>
    rw [canonicalize_of_noDontCare rfl]

theorem decode_canonicalize {w : Word} {o : Op} (h : FieldsSelect w o) :
    decode (o.canonicalize w) = decode w := by
  rw [decode_of_fields (fieldsSelect_canonicalize h), decode_of_fields h,
    operandsFrom_canonicalize]

/-- Encoding the operands of a word gives its canonical form: the two have equal fields. -/
theorem encode_operandsFrom {w : Word} {o : Op} (h : FieldsSelect w o) :
    encode (operandsFrom w o) = o.canonicalize w := by
  cases o with
  | sll | xor | or | and =>
    obtain ⟨h3, ho⟩ := h
    apply word_ext_r <;>
      simp [encode, operandsFrom, fields_packR, funct3Of_canonicalize, funct7Of_canonicalize, h3,
        ho]
  | sw =>
    have ho : opcodeOf w = 0x23#7 := h
    apply word_ext_s <;>
      simp [encode, operandsFrom, fields_packS, funct3Of_canonicalize_sw,
        immSBits_canonicalize_sw, ho]
  | add | sub | srl | sra =>
    obtain ⟨h7, h3, ho⟩ := h
    rw [canonicalize_of_noDontCare rfl]
    apply word_ext_r <;> simp [encode, operandsFrom, fields_packR, h7, h3, ho]
  | addi | lw | jalr =>
    obtain ⟨h3, ho⟩ := h
    rw [canonicalize_of_noDontCare rfl]
    apply word_ext_i <;> simp [encode, operandsFrom, fields_packI, h3, ho]
  | lui | auipc =>
    rw [canonicalize_of_noDontCare rfl]
    rw [FieldsSelect] at h
    apply word_ext_u <;> simp [encode, operandsFrom, fields_packU, h]
  | beq | bne | blt | bge =>
    obtain ⟨h3, ho⟩ := h
    rw [canonicalize_of_noDontCare rfl]
    have heven := and_mask13_of_even (evenOffset_immBBits w)
    apply word_ext_b <;> simp [encode, operandsFrom, fields_packB, heven, h3, ho]
  | jal =>
    rw [canonicalize_of_noDontCare rfl]
    rw [FieldsSelect] at h
    have heven := and_mask21_of_even (evenOffset_immJBits w)
    apply word_ext_j <;> simp [encode, operandsFrom, fields_packJ, heven, h]

theorem canonicalize_encode (i : Instr) : i.op.canonicalize (encode i) = encode i := by
  cases i with
  | sll | xor | or | and | sw =>
    rw [← encode_operandsFrom (fieldsSelect_encode _), operandsFrom_encode rfl]
  | add | sub | srl | sra | addi | lw | lui | auipc | beq | bne | blt | bge | jal | jalr =>
    exact canonicalize_of_noDontCare rfl _

end Sys2Proof

open Sys2Proof Sys2Proof.Machine Sys2Proof.Claims

/-- Settles O4: the fields of a built word give the operands back, and a word is determined by the
fields of any format. -/
theorem codecRoundTrips : Obligations.CodecRoundTrips := by
  refine ⟨fun i => decode_encode, fun v a b c d hlo hhi => ?twelveBits, toInt_immB_packB,
    toInt_immJ_packJ, imm20Of_packU, fun w => ?fields⟩
  case twelveBits =>
    exact ⟨toInt_immI_packI v a b c d hlo hhi, toInt_immS_packS v a b c d hlo hhi⟩
  case fields =>
    exact ⟨packR_fields w, packI_fields w, packS_fields w, packU_fields w, packB_fields w,
      packJ_fields w⟩

/-- Settles O3: the encoder's fields select the row, and a canonical word differs from the word in
no field the decoder reads. -/
theorem encoderWritesCanonicalWords : Obligations.EncoderWritesCanonicalWords := by
  refine ⟨fun i => ⟨(mask_iff_fieldsSelect _ _).mpr (fieldsSelect_encode i), canonicalize_encode i⟩,
    fun w o hw => decode_canonicalize ((mask_iff_fieldsSelect w o).mp hw), fun w i hd => ?encodes⟩
  case encodes =>
    obtain ⟨hfields, hi⟩ := decode_inv hd
    calc encode i = encode (operandsFrom w i.op) := congrArg encode hi
      _ = i.op.canonicalize w := encode_operandsFrom hfields

end

section
/-! SUPPORT. O22 to O24, O26, O28, O29, O32, O33: what ends a step, what a failed step leaves, and
what a step can change. -/

namespace Sys2Proof.Claims
open Sys2Proof.Machine

/-! ### Raises (R132, R211, R212) -/

/-- The one raise of phase 5 leaves registers, memory and `pc`, and has warned. -/
theorem raisedFrom_of_execShape {i : Instr} {s t : State} (h : ExecShape i s t)
    (hs : s.error = false) (ht : t.error = true) : RaisedFrom s t := by
  cases h with
  | loadRaises rd rs1 imm _ he =>
    obtain ⟨hout, -⟩ := (State.escalates_iff s _).mp he
    exact raisedFrom_raiseExecuteError ⟨rfl, rfl, rfl, rfl⟩ rfl (fun _ => rfl) (fun _ => rfl)
      (by simp [hout])
  | storeRaises rs1 rs2 imm _ he =>
    obtain ⟨hout, -⟩ := (State.escalates_iff s _).mp he
    have hnofit : ¬ Fits s (s.effAddr rs1 imm) := by
      rwa [not_fits_iff_loadWord_oob, ← write32_oob_eq_loadWord_oob]
    exact raisedFrom_raiseExecuteError ⟨rfl, rfl, rfl, rfl⟩ rfl (fun _ => rfl)
      (sameMem_portWrite_of_not_fits hnofit _) (by simp [hout])
  | writes | loads | stores | stays | branches | jumps | jumpsReg => simp [hs] at ht

/-- A step that fetches and sets `error` leaves the rest as R132 says. -/
theorem failedFrom_of_active_step {s t : State} (h : step s = .next t) (ha : Active s)
    (ht : t.error = true) : FailedFrom s t := by
  obtain ⟨hre, hrh, hrt⟩ := (active_iff s).mp ha
  cases step_inv h with
  | refuses he => cases hre.symm.trans he
  | idles _ hh => cases hrh.symm.trans hh
  | halts _ _ hpc => cases hrt.symm.trans hpc
  | fetchRaises | illegal =>
    exact ⟨rfl, hrh, rfl, fun _ => rfl, fun _ => rfl, rfl, rfl⟩
  | runs i u _ _ _ _ _ hx =>
    have hu : u.error = true := (State.complete_error u).symm.trans ht
    obtain ⟨-, hhalted, hpc, hregs, hmem, hcount, hcfg, -⟩ :=
      raisedFrom_of_execShape (exec_inv hx) hre hu
    rw [State.complete_of_error u hu]
    exact ⟨hu, hhalted.trans hrh, hpc, hregs, hmem, hcount, hcfg⟩

/-- A failure status is reported by a step that fetches and sets `error`, and by no other (R133). -/
theorem error_of_failureStatus {s t : State} (h : step s = .next t)
    (hst : t.out.stepStatus = .decodeFail ∨ t.out.stepStatus = .executeFail) :
    Active s ∧ t.error = true := by
  rw [active_iff]
  cases step_inv h with
  | refuses | idles | halts => obtain hst | hst := hst <;> cases hst
  | fetchRaises he hh ht => exact ⟨⟨he, hh, ht⟩, rfl⟩
  | illegal _ he hh ht => exact ⟨⟨he, hh, ht⟩, rfl⟩
  | runs i u he hh ht =>
    refine ⟨⟨he, hh, ht⟩, ?_⟩
    rw [State.complete_error, ← Bool.not_eq_false]
    intro hu
    rw [State.complete_of_ok u hu] at hst
    obtain hst | hst := hst <;> cases hst

/-- ExecuteError comes from an access that is out of bounds under `escalate` (R212). -/
theorem escalated_of_executeFail {s t : State} (h : step s = .next t)
    (hst : t.out.stepStatus = .executeFail) :
    s.cfg.boundsPolicy = .escalate ∧
      (¬ Fits s s.pc ∨ ∃ i, decode (fetched s) = .instr i ∧ AccessFails s i) := by
  obtain ⟨ha, herr⟩ := error_of_failureStatus h (.inr hst)
  rw [fetched_eq_loadWord]
  cases step_inv h with
  | refuses | idles | halts | illegal => cases hst
  | fetchRaises _ _ _ hf =>
    obtain ⟨hout, hpolicy⟩ := (escalates_loadWord_iff s s.pc).mp hf
    exact ⟨hpolicy, .inl hout⟩
  | runs i u he _ _ _ hd hx =>
    rw [State.complete_error] at herr
    obtain ⟨-, hfails, hpolicy⟩ := raised_of_execShape (exec_inv hx) he herr
    exact ⟨hpolicy, .inr ⟨i, hd, hfails⟩⟩

/-! ### The fetch that overruns memory (R53, R57) -/

theorem decode_zero : decode 0#32 = .illegal .opcode := by decide

theorem fetched_of_not_fits {s : State} (h : ¬ Fits s s.pc) : fetched s = 0#32 :=
  if_pos (Nat.lt_of_not_le h)

theorem goesOn_of_not_escalates {s : State} {a : Word}
    (h : s.escalates (s.loadWord a).2 = false) : s.cfg.boundsPolicy = .warnNoop ∨ Fits s a := by
  cases hpolicy : s.cfg.boundsPolicy with
  | warnNoop => exact .inl rfl
  | escalate =>
    refine .inr (Classical.not_not.mp fun hout => ?_)
    cases h.symm.trans ((escalates_loadWord_iff s a).mpr ⟨hout, hpolicy⟩)

/-- Under either policy a fetch that overruns ends the step in an error (D22). -/
theorem statuses_of_overrun {s t : State} (h : step s = .next t) (ha : Active s)
    (hout : ¬ Fits s s.pc) : t.error = true ∧
      (s.cfg.boundsPolicy = .warnNoop → t.out.stepStatus = .decodeFail) ∧
      (s.cfg.boundsPolicy = .escalate → t.out.stepStatus = .executeFail) := by
  obtain ⟨hre, hrh, hrt⟩ := (active_iff s).mp ha
  have hzero : (s.loadWord s.pc).1 = 0#32 := by rw [← fetched_eq_loadWord, fetched_of_not_fits hout]
  cases step_inv h with
  | refuses he => cases hre.symm.trans he
  | idles _ hh => cases hrh.symm.trans hh
  | halts _ _ hpc => cases hrt.symm.trans hpc
  | fetchRaises _ _ _ hf =>
    obtain ⟨-, hpolicy⟩ := (escalates_loadWord_iff s s.pc).mp hf
    exact ⟨rfl, fun hwarn => (by cases hpolicy.symm.trans hwarn), fun _ => rfl⟩
  | illegal _ _ _ _ hf =>
    have hwarn := (goesOn_of_not_escalates hf).resolve_right hout
    exact ⟨rfl, fun _ => rfl, fun hpolicy => by cases hpolicy.symm.trans hwarn⟩
  | runs i _ _ _ _ _ hd =>
    rw [hzero, decode_zero] at hd
    cases hd

/-! ### The status of every step (R133, R219) -/

theorem expectedStatus_of_step {s t : State} (h : step s = .next t) :
    expectedStatus s t.out.stepStatus.code := by
  rw [expectedStatus, fetched_eq_loadWord, active_iff]
  cases step_inv h with
  | refuses he => exact .inl ⟨he, rfl⟩
  | idles he hh => exact .inr <| .inl ⟨he, hh, rfl⟩
  | halts he hh ht =>
    refine .inr <| .inr <| .inl ⟨he, hh, fun ⟨_, _, hf⟩ => ?_, rfl⟩
    cases ht.symm.trans hf
  | fetchRaises he hh ht hf =>
    obtain ⟨hout, hpolicy⟩ := (escalates_loadWord_iff s s.pc).mp hf
    exact .inr <| .inr <| .inr <| .inl ⟨⟨he, hh, ht⟩, hpolicy, hout, rfl⟩
  | illegal why he hh ht hf hd =>
    exact .inr <| .inr <| .inr <| .inr <| .inl
      ⟨⟨he, hh, ht⟩, goesOn_of_not_escalates hf, ⟨why, hd⟩, rfl⟩
  | runs i u he hh ht hf hd hx =>
    refine .inr <| .inr <| .inr <| .inr <| .inr
      ⟨⟨he, hh, ht⟩, goesOn_of_not_escalates hf, i, hd, ?_⟩
    cases hu : u.error with
    | true =>
      obtain ⟨hst, hfails, hpolicy⟩ := raised_of_execShape (exec_inv hx) he hu
      rw [State.complete_of_error u hu, hst]
      exact .inl ⟨hpolicy, hfails, rfl⟩
    | false =>
      rw [State.complete_of_ok u hu]
      refine .inr ⟨?_, rfl⟩
      cases hpolicy : s.cfg.boundsPolicy with
      | warnNoop => exact .inl rfl
      | escalate =>
        refine .inr fun hfails => ?_
        cases hu.symm.trans (error_of_accessFails hx hfails hpolicy)

/-! ### What a step can change (R57, R128, R129) -/

/-- Phase 5 puts the data access of its instruction on the port, and nothing else. -/
theorem memPort_of_exec {i : Instr} {s t : State} (h : exec i s = .next t) :
    t.out.memPort = s.out.memPort ++ dataAccesses s (.instr i) := by
  cases i with
  | lw rd rs1 imm =>
    obtain ⟨u, hu, hport, -⟩ := exec_lw_port rd rs1 imm s
    cases hu.symm.trans h
    exact hport
  | sw rs1 rs2 imm =>
    change _ = _ ++ [writeAccess s _ _]
    rw [writeAccess_eq_write32]
    cases he : s.escalates
        (s.mem.write32 s.capacity (s.effAddr rs1 imm).toNat (s.readReg rs2)).2 with
    | true => cases (execSw_raises he).symm.trans h; rfl
    | false => cases (execSw_stores he).symm.trans h; rfl
  | add | sub | sll | xor | srl | sra | or | and | addi | lui | auipc | beq | bne | blt | bge | jal
  | jalr =>
    obtain ⟨-, -, hport, -⟩ := onlyRegsAndPc_of_execShape (exec_inv h) rfl
    exact hport.trans (List.append_nil _).symm

/-- Phase 5 changes memory only for SW, and there only the four bytes at its address (R177). -/
theorem sameMem_or_store_of_execShape {i : Instr} {s t : State} (h : ExecShape i s t) :
    SameMem s t ∨ ∃ rs1 rs2 imm, i = .sw rs1 rs2 imm ∧
      SameMemOutside s t (s.effAddr rs1 imm).toNat := by
  cases h with
  | stores rs1 rs2 imm hi | storeRaises rs1 rs2 imm hi =>
    exact .inr ⟨rs1, rs2, imm, hi, sameMemOutside_portWrite s _ _⟩
  | writes | loads | jumps | jumpsReg => exact .inl fun _ => by simp
  | loadRaises | stays | branches => exact .inl fun _ => rfl

/-- Writing nothing is a write to x0 (R22). -/
theorem SameRegs.wrote_zero {s t : State} (h : SameRegs s t) : Wrote s t 0#5 0#32 := fun r => by
  rw [if_neg fun hr => hr.2 rfl, h r]

theorem cfg_of_step {s t : State} (h : step s = .next t) : t.cfg = s.cfg := by
  cases step_inv h with
  | refuses | idles | halts | fetchRaises | illegal => rfl
  | runs i u _ _ _ _ _ hx =>
    obtain ⟨-, -, hcfg⟩ := halted_instret_cfg_of_execShape (exec_inv hx)
    exact (State.complete_cfg u).trans hcfg

theorem memPort_of_active_step {s t : State} (h : step s = .next t) (ha : Active s) :
    t.out.memPort = readAccess s s.pc :: dataAccesses s (decode (fetched s)) := by
  obtain ⟨hre, hrh, hrt⟩ := (active_iff s).mp ha
  rw [readAccess_eq_loadWord]
  cases step_inv h with
  | refuses he => cases hre.symm.trans he
  | idles _ hh => cases hrh.symm.trans hh
  | halts _ _ hpc => cases hrt.symm.trans hpc
  | fetchRaises _ _ _ hf =>
    obtain ⟨hout, -⟩ := (escalates_loadWord_iff s s.pc).mp hf
    rw [fetched_of_not_fits hout, decode_zero]
    rfl
  | illegal why _ _ _ _ hd =>
    rw [fetched_eq_loadWord, hd]
    rfl
  | runs i u _ _ _ _ hd hx =>
    rw [fetched_eq_loadWord, hd, State.complete_memPort]
    exact memPort_of_exec hx

/-- A step writes at most one register (R128). -/
theorem wrote_of_step {s t : State} (h : step s = .next t) : ∃ rd v, Wrote s t rd v := by
  cases step_inv h with
  | refuses | idles | halts | fetchRaises | illegal =>
    exact ⟨_, _, SameRegs.wrote_zero fun _ => rfl⟩
  | runs i u _ _ _ _ _ hx =>
    obtain hsame | ⟨rd, v, -, hw⟩ := registers_of_execShape (exec_inv hx)
    · exact ⟨_, _, SameRegs.wrote_zero fun r => (State.readReg_complete u r).trans (hsame r)⟩
    · exact ⟨rd, v, fun r => (State.readReg_complete u r).trans (hw r)⟩

/-- A step changes memory only by the store it decoded (R129). -/
theorem sameMem_or_store_of_step {s t : State} (h : step s = .next t) :
    SameMem s t ∨ ∃ rs1 rs2 imm, decode (fetched s) = .instr (.sw rs1 rs2 imm) ∧
      SameMemOutside s t (s.effAddr rs1 imm).toNat := by
  rw [fetched_eq_loadWord]
  cases step_inv h with
  | refuses | idles | halts | fetchRaises | illegal => exact .inl fun _ => rfl
  | runs i u _ _ _ _ hd hx =>
    obtain hsame | ⟨rs1, rs2, imm, rfl, hout⟩ := sameMem_or_store_of_execShape (exec_inv hx)
    · exact .inl fun a => (congrArg (Memory.get · a) (State.complete_mem u)).trans (hsame a)
    · exact .inr ⟨rs1, rs2, imm, hd, fun a ha =>
        (congrArg (Memory.get · a) (State.complete_mem u)).trans (hout a ha)⟩

/-- A step that does not fetch sets `halted`, or changes nothing but the outputs (R121, R122). -/
theorem inactive_step_inv {s t : State} (h : step s = .next t) (ha : ¬ Active s) :
    ∃ b st, t = { s with halted := b, out := (s.clearPulses.withStatus st).out } := by
  rw [active_iff] at ha
  cases step_inv h with
  | refuses => exact ⟨s.halted, .refused, rfl⟩
  | idles => exact ⟨s.halted, .halt, rfl⟩
  | halts => exact ⟨true, .halt, rfl⟩
  | fetchRaises he hh ht => exact absurd ⟨he, hh, ht⟩ ha
  | illegal _ he hh ht => exact absurd ⟨he, hh, ht⟩ ha
  | runs _ _ he hh ht => exact absurd ⟨he, hh, ht⟩ ha

end Sys2Proof.Claims

open Sys2Proof Sys2Proof.Machine Sys2Proof.Claims

/-- Settles O22: every shape of a step is a next state. -/
theorem everyStepAnswersANextState : Obligations.EveryStepAnswersANextState := fun s => by
  obtain ⟨t, ht, -⟩ := step_shape s
  exact ⟨t, ht⟩

/-- Settles O23: phase 5 starts in the state after the fetch, and phase 6 counts. -/
theorem stepRunsTheDecodedInstruction : Obligations.StepRunsTheDecodedInstruction := by
  intro s w i hf hd
  obtain ⟨u, hx, -⟩ := exec_shape i s.clearPulses.afterFetch
  refine ⟨decode_wf hd, s.clearPulses.afterFetch, u, fun _ => rfl, rfl, ⟨rfl, rfl, rfl, rfl⟩,
    fun _ => rfl, ?port, ?warn, hx, ?counts⟩
  case port =>
    change [(⟨.read, s.pc, (s.loadWord s.pc).1, (s.loadWord s.pc).2⟩ : MemAccess)] = _
    rw [hf.loadWord]
  case warn => exact congrArg Prod.snd hf.loadWord
  case counts =>
    rw [step_of_fetches_instr hf hd, hx]
    rfl

/-- Settles O24: the guard of phase 1 ends the step, `error` first. -/
theorem guardHoldsEverything : Obligations.GuardHoldsEverything := by
  intro s hflag
  by_cases he : s.error = true
  · exact ⟨_, step_eq_refused he, rfl, rfl, rfl, (if_pos he).symm⟩
  · exact ⟨_, step_eq_idle (Bool.eq_false_iff.mpr he) (hflag.resolve_left he), rfl, rfl, rfl,
      (if_neg he).symm⟩

/-- Settles O26: the fetch raises under `escalate`, and under `warn_noop` it hands the decoder the
illegal word 0. -/
theorem fetchOverrunErrs : Obligations.FetchOverrunErrs := by
  intro s ha hout
  obtain ⟨t, h, -⟩ := step_shape s
  obtain ⟨herr, hstatus⟩ := statuses_of_overrun h ha hout
  exact ⟨t, h, failedFrom_of_active_step h ha herr, (boundsWarn_of_step h).mpr ⟨ha, .inl hout⟩,
    hstatus⟩

/-- Settles O29: a failure status is that of a step that fetched and set `error`. -/
theorem failedStepChangesOnlyPcAndError : Obligations.FailedStepChangesOnlyPcAndError := by
  intro s t h hst
  obtain ⟨ha, herr⟩ := error_of_failureStatus h hst
  exact failedFrom_of_active_step h ha herr

/-- Settles O28: an access out of bounds warns, and under `escalate` a step that warns fails. -/
theorem executeErrorIsAnEscalatedAccess : Obligations.ExecuteErrorIsAnEscalatedAccess := by
  intro s t h
  have hescalated (hst : t.out.stepStatus = .executeFail) :
      Active s ∧ s.cfg.boundsPolicy = .escalate ∧
        (¬ Fits s s.pc ∨ ∃ i, decode (fetched s) = .instr i ∧ AccessFails s i) :=
    ⟨(error_of_failureStatus h (.inr hst)).1, escalated_of_executeFail h hst⟩
  refine ⟨⟨hescalated, fun ⟨ha, hpolicy, hout⟩ => ?fails⟩, fun hst => ⟨?failed, ?warns⟩⟩
  case fails => exact executeFail_of_escalate h hpolicy ((boundsWarn_of_step h).mpr ⟨ha, hout⟩)
  case failed => exact failedStepChangesOnlyPcAndError s t h (.inr hst)
  case warns =>
    obtain ⟨ha, -, hout⟩ := hescalated hst
    exact (boundsWarn_of_step h).mpr ⟨ha, hout⟩

/-- Settles O33: one disjunct for each phase that can end a step. -/
theorem statusCodeOfEveryStep : Obligations.StatusCodeOfEveryStep :=
  fun _ _ => expectedStatus_of_step

/-- Settles O32: the port, the register, the memory and the counter of a step that fetches; one that
does not only halts. -/
theorem stepChangesAtMostThis : Obligations.StepChangesAtMostThis := by
  refine ⟨fun s t ha h => ⟨memPort_of_active_step h ha, wrote_of_step h, sameMem_or_store_of_step h,
    ?counts, halted_of_active_step ha h, cfg_of_step h⟩, fun s t ha h => ?inactive⟩
  case counts =>
    obtain ⟨-, hcount, -⟩ | ⟨-, hcount⟩ := step_counts_or_not h
    · exact .inr hcount
    · exact .inl hcount
  case inactive =>
    obtain ⟨b, st, rfl⟩ := inactive_step_inv h ha
    exact ⟨rfl, fun _ => rfl, fun _ => rfl, rfl, rfl, rfl, rfl⟩

end

section
/-! SUPPORT. O35, O36, O39: what a step and an instruction do not depend on. The counter and the
outputs held before a step; the registers an instruction does not read. -/

namespace Sys2Proof.Machine

/-! ### One equation for each phase that can end a step -/

section
variable {s : State} (he : s.error = false) (hh : s.halted = false) (ht : s.haltTest = false)
include he hh ht

theorem step_eq_fetchRaises (hf : s.escalates (s.loadWord s.pc).2 = true) :
    step s = .next s.clearPulses.afterFetch.raiseExecuteError := by
  rw [step_eq_fetch he hh ht]
  exact fetchAndRun_raises (s := s.clearPulses) hf

theorem step_eq_decode (hf : s.escalates (s.loadWord s.pc).2 = false) :
    step s = decodeAndRun (s.loadWord s.pc).1 s.clearPulses.afterFetch := by
  rw [step_eq_fetch he hh ht]
  exact fetchAndRun_decodes (s := s.clearPulses) hf

theorem step_eq_illegal (hf : s.escalates (s.loadWord s.pc).2 = false) {why : Illegal}
    (hd : decode (s.loadWord s.pc).1 = .illegal why) :
    step s = .next s.clearPulses.afterFetch.raiseDecodeError := by
  rw [step_eq_decode he hh ht hf, decodeAndRun, hd]

theorem step_eq_run (hf : s.escalates (s.loadWord s.pc).2 = false) {i : Instr}
    (hd : decode (s.loadWord s.pc).1 = .instr i) :
    step s = finish (exec i s.clearPulses.afterFetch) := by
  rw [step_eq_decode he hh ht hf, decodeAndRun, hd]
end

/-! ### The counter and the status before a step (R31, R226) -/

/-- The state with another counter and another status output. -/
def State.relabel (s : State) (n : Nat) (st : StepStatus) : State :=
  { s with instret := n, out := { s.out with stepStatus := st } }

theorem State.relabel_writeReg (s : State) (n : Nat) (st : StepStatus) (i : RegIdx) (v : Word) :
    (s.relabel n st).writeReg i v = (s.writeReg i v).relabel n st := by
  by_cases hi : i = 0#5
  · subst hi
    rfl
  · rw [State.writeReg_of_ne _ hi, State.writeReg_of_ne _ hi]
    rfl

theorem execBranch_relabel {c : Cond} {rs1 rs2 : RegIdx} {off : BitVec 13} {s t : State}
    (h : execBranch c rs1 rs2 off s = .next t) (n : Nat) (st : StepStatus) :
    execBranch c rs1 rs2 off (s.relabel n st) = .next (t.relabel n st) := by
  cases hc : c.holds (s.readReg rs1) (s.readReg rs2) with
  | true =>
    cases (execBranch_taken hc off).symm.trans h
    exact execBranch_taken (s := s.relabel n st) hc off
  | false =>
    cases (execBranch_notTaken hc off).symm.trans h
    exact execBranch_notTaken (s := s.relabel n st) hc off

/-- An instruction carries counter and status along; only a raise replaces the status. -/
theorem exec_relabel {i : Instr} {s t : State} (he : s.error = false) (h : exec i s = .next t)
    (n : Nat) (st : StepStatus) :
    exec i (s.relabel n st) = .next (t.relabel n (if t.error then t.out.stepStatus else st)) := by
  cases i with
  | add | sub | sll | xor | srl | sra | or | and | addi | lui | auipc =>
    cases h
    rw [State.writeReg_error, he]
    exact congrArg Host.Outcome.next (State.relabel_writeReg s n st _ _)
  | lw rd rs1 imm =>
    cases hx : s.escalates (s.loadWord (s.effAddr rs1 imm)).2 with
    | true =>
      cases (execLw_raises hx).symm.trans h
      exact execLw_raises (s := s.relabel n st) hx
    | false =>
      cases (execLw_loads hx).symm.trans h
      rw [State.writeReg_error, State.portRead_error, he]
      exact (execLw_loads (s := s.relabel n st) hx).trans
        (congrArg Host.Outcome.next (State.relabel_writeReg (s.portRead _) n st rd _))
  | sw rs1 rs2 imm =>
    cases hx : s.escalates
        (s.mem.write32 s.capacity (s.effAddr rs1 imm).toNat (s.readReg rs2)).2 with
    | true =>
      cases (execSw_raises hx).symm.trans h
      exact execSw_raises (s := s.relabel n st) hx
    | false =>
      cases (execSw_stores hx).symm.trans h
      rw [State.portWrite_error, he]
      exact execSw_stores (s := s.relabel n st) hx
  | beq | bne | blt | bge =>
    have hok : t.error = false := by
      obtain ⟨⟨-, herr, -⟩, -⟩ := Claims.onlyRegsAndPc_of_execShape (exec_inv h) rfl
      exact herr.trans he
    rw [hok]
    exact execBranch_relabel h n st
  | jal rd | jalr rd =>
    cases h
    rw [State.setPc_error, State.writeReg_error, he]
    exact congrArg (fun u => Host.Outcome.next (State.setPc u _))
      (State.relabel_writeReg s n st rd s.linkValue)

/-- A step started with another counter and other outputs ends in the same state, the counter having
risen by as much. -/
theorem step_rerun {s t : State} (h : step s = .next t) :
    ∃ d, t.instret = s.instret + d ∧ ∀ (n : Nat) (o : Outputs),
      step { s with instret := n, out := o } = .next { t with instret := n + d } := by
  cases step_inv h with
  | refuses he =>
    exact ⟨0, rfl, fun n o => step_eq_refused (s := { s with instret := n, out := o }) he⟩
  | idles he hh =>
    exact ⟨0, rfl, fun n o => step_eq_idle (s := { s with instret := n, out := o }) he hh⟩
  | halts he hh ht =>
    exact ⟨0, rfl, fun n o => step_eq_halt (s := { s with instret := n, out := o }) he hh ht⟩
  | fetchRaises he hh ht hf =>
    exact ⟨0, rfl, fun n o =>
      step_eq_fetchRaises (s := { s with instret := n, out := o }) he hh ht hf⟩
  | illegal why he hh ht hf hd =>
    exact ⟨0, rfl, fun n o =>
      step_eq_illegal (s := { s with instret := n, out := o }) he hh ht hf hd⟩
  | runs i u he hh ht hf hd hx =>
    have hrun (n : Nat) (o : Outputs) : step { s with instret := n, out := o } =
        .next (u.relabel n (if u.error then u.out.stepStatus else o.stepStatus)).complete := by
      rw [step_eq_run (s := { s with instret := n, out := o }) he hh ht hf hd]
      exact congrArg finish (exec_relabel (s := s.clearPulses.afterFetch) he hx n o.stepStatus)
    obtain ⟨-, hcount, -⟩ := Claims.halted_instret_cfg_of_execShape (exec_inv hx)
    obtain hu | hu := u.error.eq_false_or_eq_true
    · rw [State.complete_of_error u hu]
      refine ⟨0, hcount, fun n o => (hrun n o).trans ?_⟩
      rw [if_pos hu, State.complete_of_error (u.relabel n _) hu]
      rfl
    · rw [State.complete_of_ok u hu]
      refine ⟨1, congrArg (· + 1) hcount, fun n o => (hrun n o).trans ?_⟩
      rw [State.complete_of_ok (u.relabel n _) hu]
      rfl

/-! ### A register that is not read (R21, section 7) -/

/-- The states agree in all but the register `r`; of the outputs, in the memory port. -/
structure AgreeExcept (r : RegIdx) (s u : State) : Prop where
  cfg : u.cfg = s.cfg
  pc : u.pc = s.pc
  halted : u.halted = s.halted
  error : u.error = s.error
  instret : u.instret = s.instret
  mem : u.mem = s.mem
  memPort : u.out.memPort = s.out.memPort
  regs : ∀ q, q ≠ r → u.readReg q = s.readReg q

section
variable {r : RegIdx} {s u : State}

theorem agreeExcept_writeReg (s : State) (r : RegIdx) (v : Word) :
    AgreeExcept r s (s.writeReg r v) := by
  constructor
  case regs => exact fun q hq => State.readReg_writeReg_other s hq v
  all_goals simp

theorem AgreeExcept.writeReg (h : AgreeExcept r s u) (rd : RegIdx) (v : Word) :
    AgreeExcept r (s.writeReg rd v) (u.writeReg rd v) := by
  constructor
  case regs =>
    intro q hq
    rw [State.readReg_writeReg, State.readReg_writeReg, h.regs q hq]
  all_goals simp [h.cfg, h.pc, h.halted, h.error, h.instret, h.mem, h.memPort]

theorem AgreeExcept.setPc (h : AgreeExcept r s u) (target : Word) :
    AgreeExcept r (s.setPc target) (u.setPc target) :=
  { h with pc := rfl }

theorem AgreeExcept.raiseExecuteError (h : AgreeExcept r s u) :
    AgreeExcept r s.raiseExecuteError u.raiseExecuteError :=
  { h with error := rfl }

theorem AgreeExcept.portRead (h : AgreeExcept r s u) (a : Word) :
    AgreeExcept r (s.portRead a) (u.portRead a) :=
  { h with
    memPort := by
      rw [State.portRead_memPort, State.portRead_memPort, h.memPort,
        State.loadWord_congr h.cfg h.mem] }

theorem AgreeExcept.portWrite (h : AgreeExcept r s u) (a v : Word) :
    AgreeExcept r (s.portWrite a v) (u.portWrite a v) :=
  { h with
    mem := by rw [State.portWrite_mem, State.portWrite_mem, h.mem, State.capacity_congr h.cfg]
    memPort := by
      rw [State.portWrite_memPort, State.portWrite_memPort, h.memPort, h.mem,
        State.capacity_congr h.cfg] }

theorem AgreeExcept.effAddr (h : AgreeExcept r s u) {rs1 : RegIdx} (h1 : rs1 ≠ r)
    (imm : BitVec 12) : u.effAddr rs1 imm = s.effAddr rs1 imm := by
  rw [State.effAddr, State.effAddr, h.regs rs1 h1, State.dataBase, State.dataBase,
    State.dataOffset_congr h.cfg]

theorem AgreeExcept.pcBefore (h : AgreeExcept r s u) : u.pcBefore = s.pcBefore := by
  rw [State.pcBefore, State.pcBefore, h.pc]

theorem AgreeExcept.linkValue (h : AgreeExcept r s u) : u.linkValue = s.linkValue := by
  rw [State.linkValue, State.linkValue, h.pcBefore]
end

/-- What is claimed of an instruction run in two states that agree in all but `r`: so do the next
states, and `r` too is equal if the instruction writes it. -/
def SameEffect (i : Instr) (r : RegIdx) (t : State) (o : Host.Outcome State Fault Refusal) : Prop :=
  ∃ u, o = .next u ∧ AgreeExcept r t u ∧
    (dest? i = some r → t.error = false → u.readReg r = t.readReg r)

section
variable {i : Instr} {r : RegIdx} {s u t : State}

/-- An instruction with no destination. -/
theorem AgreeExcept.sameEffect (h : AgreeExcept r t u) (hd : dest? i = none) :
    SameEffect i r t (.next u) :=
  ⟨u, rfl, h, fun hr => by cases hd.symm.trans hr⟩

/-- Writing one value back to the same register in both states. -/
theorem AgreeExcept.sameEffect_writeReg (h : AgreeExcept r s u) {rd : RegIdx}
    (hd : dest? i = some rd) (v : Word) :
    SameEffect i r (s.writeReg rd v) (.next (u.writeReg rd v)) := by
  refine ⟨_, rfl, h.writeReg rd v, fun hr _ => ?_⟩
  obtain rfl : rd = r := Option.some.inj (hd.symm.trans hr)
  by_cases h0 : rd = 0#5
  · rw [h0, State.readReg_zero, State.readReg_zero]
  · rw [State.readReg_writeReg_same u h0, State.readReg_writeReg_same s h0]

theorem SameEffect.setPc {o : State} (h : SameEffect i r t (.next o)) (target : Word) :
    SameEffect i r (t.setPc target) (.next (o.setPc target)) := by
  obtain ⟨u, hu, hagree, hr⟩ := h
  cases hu
  exact ⟨_, rfl, hagree.setPc target, hr⟩

theorem AgreeExcept.sameEffect_branch (h : AgreeExcept r s u) {c : Cond} {rs1 rs2 : RegIdx}
    {off : BitVec 13} (h1 : rs1 ≠ r) (h2 : rs2 ≠ r) (hd : dest? i = none)
    (ht : execBranch c rs1 rs2 off s = .next t) :
    SameEffect i r t (execBranch c rs1 rs2 off u) := by
  have hcond : c.holds (u.readReg rs1) (u.readReg rs2) =
      c.holds (s.readReg rs1) (s.readReg rs2) := by
    rw [h.regs rs1 h1, h.regs rs2 h2]
  cases hc : c.holds (s.readReg rs1) (s.readReg rs2) with
  | true =>
    cases (execBranch_taken hc off).symm.trans ht
    rw [execBranch_taken (hcond.trans hc), State.branchTarget, State.branchTarget, h.pcBefore]
    exact (h.setPc _).sameEffect hd
  | false =>
    cases (execBranch_notTaken hc off).symm.trans ht
    rw [execBranch_notTaken (hcond.trans hc)]
    exact h.sameEffect hd

theorem AgreeExcept.sameEffect_lw (h : AgreeExcept r s u) {rd rs1 : RegIdx} {imm : BitVec 12}
    (h1 : rs1 ≠ r) (ht : execLw rd rs1 imm s = .next t) :
    SameEffect (.lw rd rs1 imm) r t (execLw rd rs1 imm u) := by
  have hload : u.loadWord (u.effAddr rs1 imm) = s.loadWord (s.effAddr rs1 imm) := by
    rw [h.effAddr h1, State.loadWord_congr h.cfg h.mem]
  have hesc : u.escalates (u.loadWord (u.effAddr rs1 imm)).2 =
      s.escalates (s.loadWord (s.effAddr rs1 imm)).2 := by
    rw [hload, State.escalates_congr h.cfg]
  cases hx : s.escalates (s.loadWord (s.effAddr rs1 imm)).2 with
  | true =>
    cases (execLw_raises hx).symm.trans ht
    rw [execLw_raises (hesc.trans hx), h.effAddr h1]
    exact ⟨_, rfl, (h.portRead _).raiseExecuteError, fun _ herr => by cases herr⟩
  | false =>
    cases (execLw_loads hx).symm.trans ht
    rw [execLw_loads (hesc.trans hx), hload, h.effAddr h1]
    exact (h.portRead _).sameEffect_writeReg rfl _

theorem AgreeExcept.sameEffect_sw (h : AgreeExcept r s u) {rs1 rs2 : RegIdx} {imm : BitVec 12}
    (h1 : rs1 ≠ r) (h2 : rs2 ≠ r) (ht : execSw rs1 rs2 imm s = .next t) :
    SameEffect (.sw rs1 rs2 imm) r t (execSw rs1 rs2 imm u) := by
  have hesc : u.escalates
        (u.mem.write32 u.capacity (u.effAddr rs1 imm).toNat (u.readReg rs2)).2 =
      s.escalates (s.mem.write32 s.capacity (s.effAddr rs1 imm).toNat (s.readReg rs2)).2 := by
    rw [h.effAddr h1, h.mem, h.regs rs2 h2, State.capacity_congr h.cfg, State.escalates_congr h.cfg]
  cases hx : s.escalates
      (s.mem.write32 s.capacity (s.effAddr rs1 imm).toNat (s.readReg rs2)).2 with
  | true =>
    cases (execSw_raises hx).symm.trans ht
    rw [execSw_raises (hesc.trans hx), h.effAddr h1, h.regs rs2 h2]
    exact (h.portWrite _ _).raiseExecuteError.sameEffect rfl
  | false =>
    cases (execSw_stores hx).symm.trans ht
    rw [execSw_stores (hesc.trans hx), h.effAddr h1, h.regs rs2 h2]
    exact (h.portWrite _ _).sameEffect rfl

/-- An instruction does the same in two states that agree in all but a register it does not read. -/
theorem AgreeExcept.sameEffect_exec (h : AgreeExcept r s u) (hr : r ∉ sources i)
    (ht : exec i s = .next t) : SameEffect i r t (exec i u) := by
  have hread (q : RegIdx) (hq : q ∈ sources i) : q ≠ r := fun hqr => hr (hqr ▸ hq)
  cases i with
  | add rd rs1 rs2 | sub rd rs1 rs2 | sll rd rs1 rs2 | xor rd rs1 rs2 | srl rd rs1 rs2
  | sra rd rs1 rs2 | or rd rs1 rs2 | and rd rs1 rs2 =>
    cases ht
    rw [← h.regs rs1 (hread rs1 (by simp [sources])), ← h.regs rs2 (hread rs2 (by simp [sources]))]
    exact h.sameEffect_writeReg rfl _
  | addi rd rs1 imm =>
    cases ht
    rw [← h.regs rs1 (hread rs1 (by simp [sources]))]
    exact h.sameEffect_writeReg rfl _
  | lw rd rs1 imm => exact h.sameEffect_lw (hread rs1 (by simp [sources])) ht
  | sw rs1 rs2 imm =>
    exact h.sameEffect_sw (hread rs1 (by simp [sources])) (hread rs2 (by simp [sources])) ht
  | lui rd imm20 =>
    cases ht
    exact h.sameEffect_writeReg rfl _
  | auipc rd imm20 =>
    cases ht
    rw [← h.pcBefore]
    exact h.sameEffect_writeReg rfl _
  | beq rs1 rs2 off | bne rs1 rs2 off | blt rs1 rs2 off | bge rs1 rs2 off =>
    exact h.sameEffect_branch (hread rs1 (by simp [sources])) (hread rs2 (by simp [sources])) rfl ht
  | jal rd off =>
    cases ht
    rw [← h.linkValue, State.jalTarget, ← h.pcBefore]
    exact (h.sameEffect_writeReg rfl _).setPc _
  | jalr rd rs1 imm =>
    cases ht
    rw [← h.linkValue, State.jalrTarget, ← h.regs rs1 (hread rs1 (by simp [sources]))]
    exact (h.sameEffect_writeReg rfl _).setPc _
end

end Sys2Proof.Machine

open Sys2Proof Sys2Proof.Machine Sys2Proof.Claims

/-- Settles O36: a step rerun with another counter. -/
theorem counterIsNeverRead : Obligations.CounterIsNeverRead := by
  intro s t n h
  obtain ⟨d, hd, hrerun⟩ := step_rerun h
  rw [hd, Nat.add_sub_cancel_left]
  exact hrerun n s.out

/-- Settles O35: a step rerun with other outputs and the same counter. -/
theorem outputsAreNeverRead : Obligations.OutputsAreNeverRead := by
  intro s o
  obtain ⟨t, h, -⟩ := step_shape s
  obtain ⟨d, hd, hrerun⟩ := step_rerun h
  calc step { s with out := o } = .next { t with instret := s.instret + d } := hrerun s.instret o
    _ = .next t := by rw [← hd]
    _ = step s := h.symm

/-- Settles O39: the register's change is a difference in that register alone, and phase 5 keeps the
agreement in all else. -/
theorem unreadRegistersDoNotMatter : Obligations.UnreadRegistersDoNotMatter := by
  intro i s r v hr
  obtain ⟨t, ht, -⟩ := exec_shape i s
  obtain ⟨u, hu, hagree, hdest⟩ := (agreeExcept_writeReg s r v).sameEffect_exec hr ht
  exact ⟨t, u, ht, hu, hagree.pc, fun a => congrArg (Memory.get · a) hagree.mem,
    ⟨hagree.halted, hagree.error, hagree.instret, hagree.cfg⟩, hagree.memPort, hagree.regs, hdest⟩

end

section
/-! SUPPORT. O38: the table of section 7, column by column, from the fields of an instruction's own
word. O42: the ALU's select, which the column of the ALU result uses. -/

namespace Sys2Proof

/-! ### The immediates of a word the encoder wrote -/

theorem immI_packI_arg (imm : BitVec 12) (rs1 f3 rd op : Word) :
    immI (packI (arg imm) rs1 f3 rd op) = extend12 imm := by
  rw [immI_packI, setWidth_arg imm (by decide)]

theorem immU_packU_arg (imm20 : BitVec 20) (rd op : Word) :
    immU (packU (arg imm20) rd op) = shiftUpper imm20 := by
  rw [immU, (fields_packU _ _ _).1, setWidth_arg imm20 (by decide)]

theorem immB_packB_arg {off : BitVec 13} (h : evenOffset off = true) (rs2 rs1 f3 op : Word) :
    immB (packB (arg off) rs2 rs1 f3 op) = extend13 off := by
  rw [immB, immBBits_packB, setWidth_arg off (by decide), and_mask13_of_even h]

theorem immJ_packJ_arg {off : BitVec 21} (h : evenOffset off = true) (rd op : Word) :
    immJ (packJ (arg off) rd op) = extend21 off := by
  rw [immJ, immJBits_packJ, setWidth_arg off (by decide), and_mask21_of_even h]

end Sys2Proof

namespace Sys2Proof.Claims
open Sys2Proof.Machine

/-! ### The ALU's select (R151, D18) -/

theorem aluSelect_code (op : AluOp) : aluSelect op.code = some op := by
  cases op <;> rfl

theorem aluBlock_code (op : AluOp) (a b : Word) : aluBlock op.code a b = (alu op a b, false) := by
  rw [aluBlock, aluSelect_code]

theorem aluSelect_unrecognised : ∀ code : BitVec 4,
    code ∈ [0b0010#4, 0b0011#4, 0b1001#4, 0b1010#4, 0b1011#4, 0b1100#4, 0b1110#4, 0b1111#4] →
    aluSelect code = none := by decide

/-- Bit 30 is bit 5 of funct7. -/
theorem selectOf_eq (w : Word) : selectOf w = (funct7Of w).extractLsb' 5 1 ++ funct3Of w := by
  refine congrArg (· ++ funct3Of w) (BitVec.eq_of_getLsbD_eq fun k hk => ?_)
  obtain rfl : k = 0 := by omega
  simp [funct7Of]

theorem selectOf_encode_instr (op : AluOp) (rd rs1 rs2 : RegIdx) :
    selectOf (encode (op.instr rd rs1 rs2)) = op.code := by
  cases op <;> simp [selectOf_eq, AluOp.instr, encode, fields_packR, AluOp.code]

/-! ### The columns of the table -/

theorem sources_eq_readPorts (i : Instr) : sources i = readPorts i := by
  cases i with
  | add | sub | sll | xor | srl | sra | or | and =>
    simp [sources, readPorts, Instr.op, Machine.control, encode, fields_packR]
  | addi | lw | jalr => simp [sources, readPorts, Instr.op, Machine.control, encode, fields_packI]
  | sw => simp [sources, readPorts, Instr.op, Machine.control, encode, fields_packS]
  | beq | bne | blt | bge =>
    simp [sources, readPorts, Instr.op, Machine.control, encode, fields_packB]
  | lui | auipc | jal => rfl

theorem writeback_none_iff (i : Instr) :
    (control i.op).writeback = .none ↔ dest? i = none := by
  cases i with
  | sw | beq | bne | blt | bge => exact iff_of_true rfl rfl
  | add | sub | sll | xor | srl | sra | or | and | addi | lw | lui | auipc | jal | jalr =>
    exact iff_of_false nofun nofun

theorem rdOf_encode_of_dest {i : Instr} {rd : RegIdx} (h : dest? i = some rd) :
    rd = rdOf (encode i) := by
  cases i with
  | add | sub | sll | xor | srl | sra | or | and => cases h; simp [encode, fields_packR]
  | addi | lw | jalr => cases h; simp [encode, fields_packI]
  | lui | auipc => cases h; simp [encode, fields_packU]
  | jal => cases h; simp [encode, fields_packJ]
  | sw | beq | bne | blt | bge => cases h

/-- An instruction without a destination writes no register. -/
theorem sameRegs_of_dest_none {i : Instr} {s t : State} (h : exec i s = .next t)
    (hd : dest? i = none) : SameRegs s t := by
  obtain hsame | ⟨rd, v, hrd, -⟩ := registers_of_execShape (exec_inv h)
  · exact hsame
  · cases hd.symm.trans hrd

theorem accessFails_lw_iff_not_fits (s : State) (rd rs1 : RegIdx) (imm : BitVec 12) :
    AccessFails s (.lw rd rs1 imm) ↔ ¬ Fits s (s.effAddr rs1 imm) := by
  rw [accessFails_lw_iff, not_fits_iff_loadWord_oob]

theorem writebackValue_instr (op : AluOp) (s : State) (p : Word) (rd rs1 rs2 : RegIdx) :
    writebackValue s p (op.instr rd rs1 rs2) = alu op (s.readReg rs1) (s.readReg rs2) := by
  have hvalue : writebackValue s p (op.instr rd rs1 rs2) =
      (aluBlock (selectOf (encode (op.instr rd rs1 rs2)))
        (s.readReg (rs1Of (encode (op.instr rd rs1 rs2))))
        (s.readReg (rs2Of (encode (op.instr rd rs1 rs2))))).1 := by
    cases op <;> rfl
  rw [hvalue, selectOf_encode_instr, aluBlock_code]
  cases op <;> simp [AluOp.instr, encode, fields_packR]

theorem wrote_instr {op : AluOp} {rd rs1 rs2 : RegIdx} {s t : State} (p : Word)
    (h : exec (op.instr rd rs1 rs2) s = .next t) :
    Wrote s t rd (writebackValue s p (op.instr rd rs1 rs2)) := by
  cases (op.exec_instr rd rs1 rs2 s).symm.trans h
  rw [writebackValue_instr]
  exact wrote_writeReg s rd _

/-- The column "writeback source": what x[rd] holds after an instruction whose access, if it makes
one, goes on. -/
theorem wrote_writebackValue {i : Instr} {rd : RegIdx} {p : Word} {s t : State}
    (hp : s.pc = p + 4#32) (h : exec i s = .next t) (hd : dest? i = some rd)
    (hon : s.cfg.boundsPolicy = .warnNoop ∨ ¬ AccessFails s i) :
    Wrote s t rd (writebackValue s p i) := by
  cases i with
  | add => cases hd; exact wrote_instr (op := .add) p h
  | sub => cases hd; exact wrote_instr (op := .sub) p h
  | sll => cases hd; exact wrote_instr (op := .sll) p h
  | xor => cases hd; exact wrote_instr (op := .xor) p h
  | srl => cases hd; exact wrote_instr (op := .srl) p h
  | sra => cases hd; exact wrote_instr (op := .sra) p h
  | or => cases hd; exact wrote_instr (op := .or) p h
  | and => cases hd; exact wrote_instr (op := .and) p h
  | addi rd rs1 imm =>
    cases hd
    cases h
    have hvalue : writebackValue s p (.addi rd rs1 imm) = s.readReg rs1 + extend12 imm := by
      simp [writebackValue, Instr.op, Machine.control, encode, fields_packI, immI_packI_arg]
    rw [hvalue]
    exact wrote_writeReg s rd _
  | lw rd rs1 imm =>
    cases hd
    have hvalue :
        writebackValue s p (.lw rd rs1 imm) = (readAccess s (s.effAddr rs1 imm)).data := by
      simp [writebackValue, Instr.op, Machine.control, encode, fields_packI]
    obtain ⟨-, -, hloads, -⟩ := loadWordFromTheDataRegion
    rw [accessFails_lw_iff_not_fits, Classical.not_not, or_comm] at hon
    obtain ⟨u, hu, hw, -⟩ := hloads rd rs1 imm s hon
    cases hu.symm.trans h
    rwa [hvalue]
  | lui rd imm20 =>
    cases hd
    cases h
    have hvalue : writebackValue s p (.lui rd imm20) = shiftUpper imm20 := immU_packU_arg imm20 _ _
    rw [hvalue]
    exact wrote_writeReg s rd _
  | auipc rd imm20 =>
    cases hd
    cases h
    have hvalue : writebackValue s p (.auipc rd imm20) = s.pcBefore + shiftUpper imm20 := by
      rw [pcBefore_of_pc hp]
      exact congrArg (p + ·) (immU_packU_arg imm20 _ _)
    rw [hvalue]
    exact wrote_writeReg s rd _
  | jal rd off =>
    cases hd
    cases h
    exact wrote_link hp rd _
  | jalr rd rs1 imm =>
    cases hd
    cases h
    exact wrote_link hp rd _
  | sw | beq | bne | blt | bge => cases hd

/-- A raised load writes no register (R176). -/
theorem sameRegs_of_escalated {i : Instr} {rd : RegIdx} {s t : State} (h : exec i s = .next t)
    (hd : dest? i = some rd) (hpolicy : s.cfg.boundsPolicy = .escalate) (hfails : AccessFails s i) :
    SameRegs s t := by
  cases i with
  | lw rd rs1 imm =>
    obtain ⟨-, -, -, hraises⟩ := loadWordFromTheDataRegion
    obtain ⟨u, hu, -, -, -, hregs, -⟩ :=
      hraises rd rs1 imm s ((accessFails_lw_iff_not_fits s rd rs1 imm).mp hfails) hpolicy
    cases hu.symm.trans h
    exact hregs
  | sw => cases hd
  | add | sub | sll | xor | srl | sra | or | and | addi | lui | auipc | beq | bne | blt | bge | jal
  | jalr =>
    obtain ⟨_, ha, -⟩ := hfails
    cases ha

/-- The column "memory", a read: LW alone. -/
theorem memoryRead_column {i : Instr} {s t : State} (h : exec i s = .next t)
    (hm : (control i.op).memory = .read) : SameMem s t ∧
      dataAddr? s i = some (s.effAddr (rs1Of (encode i)) (immIBits (encode i))) ∧
      ∀ a, dataAddr? s i = some a → t.out.memPort = s.out.memPort ++ [readAccess s a] := by
  cases i with
  | lw rd rs1 imm =>
    refine ⟨?mem, by simp [dataAddr?, encode, fields_packI], fun a ha => ?port⟩
    case mem =>
      obtain hsame | ⟨_, _, _, hi, -⟩ := sameMem_or_store_of_execShape (exec_inv h)
      · exact hsame
      · cases hi
    case port =>
      cases ha
      exact memPort_of_exec h
  | add | sub | sll | xor | srl | sra | or | and | addi | sw | lui | auipc | beq | bne | blt | bge
  | jal | jalr => cases hm

/-- The column "memory", a write: SW alone. -/
theorem memoryWrite_column {i : Instr} {s t : State} (h : exec i s = .next t)
    (hm : (control i.op).memory = .write) :
    storeAddr? s i = some (s.effAddr (rs1Of (encode i)) (immSBits (encode i))) ∧
      ∀ a, storeAddr? s i = some a → SameMemOutside s t a.toNat ∧
        t.out.memPort = s.out.memPort ++ [writeAccess s a (s.readReg (rs2Of (encode i)))] := by
  cases i with
  | sw rs1 rs2 imm =>
    refine ⟨by simp [storeAddr?, encode, fields_packS], fun a ha => ?_⟩
    cases ha
    refine ⟨?mem, ?port⟩
    case mem =>
      obtain hsame | ⟨_, _, _, hi, hout⟩ := sameMem_or_store_of_execShape (exec_inv h)
      · exact fun b _ => hsame b
      · cases hi
        exact hout
    case port =>
      have hrs2 : rs2Of (encode (.sw rs1 rs2 imm)) = rs2 := by simp [encode, fields_packS]
      rw [hrs2]
      exact memPort_of_exec h
  | add | sub | sll | xor | srl | sra | or | and | addi | lw | lui | auipc | beq | bne | blt | bge
  | jal | jalr => cases hm

/-- The comparison that a branch's funct3 names is its own (R191 to R194). -/
theorem chosenPc_branch {i : Instr} {c : Cond} {rs1 rs2 : RegIdx} {off : BitVec 13} {f3 : Word}
    (hi : encode i = packB (arg off) (arg rs2) (arg rs1) f3 0x63)
    (hsrc : (control i.op).pcSource = .branch) (heven : evenOffset off = true)
    (hc : ∀ a b, branchHolds (f3.setWidth 3) a b = c.holds a b) (s : State) (p : Word) :
    chosenPc s p i =
      if c.holds (s.readReg rs1) (s.readReg rs2) then p + extend13 off else p + 4#32 := by
  simp only [chosenPc, hsrc, hi, fields_packB, immB_packB_arg heven, hc,
    setWidth_arg rs1 (by decide), setWidth_arg rs2 (by decide)]

/-- The column "pc source": where a well-formed instruction leaves `pc` (rows 5 to 8 of R26). -/
theorem pc_eq_chosenPc {i : Instr} {p : Word} {s t : State} (hp : s.pc = p + 4#32)
    (h : exec i s = .next t) (hwf : i.wf = true) : t.pc = chosenPc s p i := by
  cases i with
  | add | sub | sll | xor | srl | sra | or | and | addi | lw | sw | lui | auipc =>
    exact (pc_of_sequential (exec_inv h) rfl).trans hp
  | beq => exact (execBranch_pc hp h).trans (chosenPc_branch rfl rfl hwf (fun _ _ => rfl) s p).symm
  | bne => exact (execBranch_pc hp h).trans (chosenPc_branch rfl rfl hwf (fun _ _ => rfl) s p).symm
  | blt => exact (execBranch_pc hp h).trans (chosenPc_branch rfl rfl hwf (fun _ _ => rfl) s p).symm
  | bge => exact (execBranch_pc hp h).trans (chosenPc_branch rfl rfl hwf (fun _ _ => rfl) s p).symm
  | jal rd off =>
    cases h
    have hchosen : chosenPc s p (.jal rd off) = p + extend21 off :=
      congrArg (p + ·) (immJ_packJ_arg hwf _ _)
    rw [hchosen]
    exact jalTarget_of_pc hp off
  | jalr rd rs1 imm =>
    cases h
    have hchosen : chosenPc s p (.jalr rd rs1 imm) = s.jalrTarget rs1 imm := by
      simp [chosenPc, Instr.op, Machine.control, encode, fields_packI, immI_packI_arg,
        State.jalrTarget]
    exact hchosen.symm

end Sys2Proof.Claims

open Sys2Proof Sys2Proof.Machine Sys2Proof.Claims

/-- Settles O42: each code selects its operation, and the eight others none. -/
theorem aluSelectCodes : Obligations.AluSelectCodes := by
  refine ⟨⟨rfl, rfl, rfl, rfl, rfl, rfl, rfl, rfl⟩, aluBlock_code, fun code a b hcode => ?_⟩
  rw [aluBlock, aluSelect_unrecognised code hcode]
  rfl

/-- Settles O38: one lemma for each column of the table. -/
theorem controlSignalsDescribeExecution : Obligations.ControlSignalsDescribeExecution := by
  intro i p s t hp h
  have hshape := exec_inv h
  refine ⟨sources_eq_readPorts i, writeback_none_iff i,
    fun hw => sameRegs_of_dest_none h ((writeback_none_iff i).mp hw),
    fun rd hd => ⟨rdOf_encode_of_dest hd, wrote_writebackValue hp h hd, sameRegs_of_escalated h hd⟩,
    fun hm => ?memoryNone, memoryRead_column h, memoryWrite_column h, pc_eq_chosenPc hp h,
    pc_of_sequential hshape, halted_instret_cfg_of_execShape hshape⟩
  case memoryNone =>
    obtain ⟨⟨-, herr, -⟩, hmem, hout⟩ := onlyRegsAndPc_of_execShape hshape hm
    exact ⟨hmem, hout, herr⟩

end

section
/-! SUPPORT. O21, O40: a word in memory where the next step fetches is what that step runs. -/

namespace Sys2Proof.Claims
open Sys2Proof.Machine

/-! ### A placed word (assumption 27) -/

/-- Where R5's ranges allow it, the covering configuration lets a step fetch at `pc`. -/
theorem coverFetch_covers (c : Config) {pc : Nat} (h : pc / 4 + 1 < 2 ^ 30) :
    pc < 4 * (coverFetch c pc).instructionCount.val ∧
      pc + 4 ≤ (coverFetch c pc).memCapacity.val := by
  rw [coverFetch, dif_pos h]
  dsimp only
  omega

theorem coverFetch_boundsPolicy (c : Config) (pc : Nat) :
    (coverFetch c pc).boundsPolicy = c.boundsPolicy := by
  unfold coverFetch
  split <;> rfl

theorem fetchSlot_covered (pc : Word) : (fetchSlot pc).toNat / 4 + 1 < 2 ^ 30 := by
  unfold fetchSlot
  split
  · assumption
  · decide

theorem fetches_placeWord {s : State} (hm : s.mem.wf = true) (w : Word) :
    Fetches (s.placeWord w) w := by
  obtain ⟨hcount, hcap⟩ := coverFetch_covers s.cfg (fetchSlot_covered s.pc)
  exact ⟨⟨rfl, rfl, hcount, Nat.lt_of_lt_of_le (Nat.lt_add_of_pos_right (by decide)) hcap⟩, hcap,
    (wordAt_of_holds (holds_setBytes hm _ w)).symm⟩

theorem withFetchWord_toNat (s : State) (w : Word) :
    s.withFetchWord 32 w.toNat = s.placeWord w := by
  rw [State.withFetchWord, tableWord_of_lt w.isLt, BitVec.ofNat_toNat, BitVec.setWidth_eq]

/-! ### A word stored at the next address (R66, R245) -/

/-- The step that stores at the next instruction's address leaves a state that fetches the stored
word there. -/
theorem fetches_of_store_to_next {s : State} {w : Word} {rs1 rs2 : RegIdx} {imm : BitVec 12}
    (hm : s.mem.wf = true) (hf : Fetches s w) (hd : decode w = .instr (.sw rs1 rs2 imm))
    (haddr : s.effAddr rs1 imm = s.pc + 4#32) (hfits : Fits s (s.pc + 4#32))
    (hend : s.pc.toNat + 4 < 4 * s.cfg.instructionCount.val) :
    ∃ t, step s = .next t ∧ SameRegs s t ∧ t.pc = s.pc + 4#32 ∧ Fetches t (s.readReg rs2) := by
  obtain ⟨he, hh, -⟩ := hf.1
  have hnext : (s.pc + 4#32).toNat = s.pc.toNat + 4 := by
    have hcount := s.cfg.instructionCount.isLt
    rw [BitVec.toNat_add, BitVec.toNat_ofNat]
    exact Nat.mod_eq_of_lt (by omega)
  have hstore : exec (.sw rs1 rs2 imm) s.clearPulses.afterFetch =
      .next (s.clearPulses.afterFetch.portWrite (s.pc + 4#32) (s.readReg rs2)) := by
    rw [← haddr] at hfits ⊢
    exact exec_sw_of_fits (s := s.clearPulses.afterFetch) hfits rs2
  have hstep : step s =
      .next (s.clearPulses.afterFetch.portWrite (s.pc + 4#32) (s.readReg rs2)).complete := by
    rw [step_of_fetches_instr hf hd, hstore]
    rfl
  rw [State.complete_of_ok _ (show (s.clearPulses.afterFetch.portWrite _ _).error = false from he)]
    at hstep
  refine ⟨_, hstep, fun _ => rfl, rfl, ⟨he, hh, hnext ▸ hend, ?_⟩, hfits, ?_⟩
  · exact Nat.lt_of_lt_of_le (Nat.lt_add_of_pos_right (by decide)) hfits
  · exact (wordAt_of_holds (holds_write32 hm hfits (s.readReg rs2))).symm

end Sys2Proof.Claims

open Sys2Proof Sys2Proof.Machine Sys2Proof.Claims

/-- Settles O40: the configuration covers the slot, and the slot's bytes are the word's. -/
theorem placedWordRunsNext : Obligations.PlacedWordRunsNext := by
  intro s w i hm hd
  rw [withFetchWord_toNat]
  refine ⟨(s.placeWord w).clearPulses.afterFetch,
    step_of_fetches_instr (fetches_placeWord hm w) hd, fun _ => rfl, rfl,
    coverFetch_boundsPolicy _ _, fun hpc => ?_⟩
  have hslot : fetchSlot s.pc = s.pc := if_pos (by omega)
  exact congrArg (· + 4#32) hslot

/-- Settles O21: the bytes the store leaves are the word the next step fetches. -/
theorem nextFetchSeesAStoreToIt : Obligations.NextFetchSeesAStoreToIt := by
  intro s t w rs1 rs2 imm i hm hf hd haddr hfits hend hdi h
  obtain ⟨u, hu, hregs, hpc, hfetch⟩ := fetches_of_store_to_next hm hf hd haddr hfits hend
  cases hu.symm.trans h
  refine ⟨t.clearPulses.afterFetch, hregs, ?_, step_of_fetches_instr hfetch hdi⟩
  rw [State.afterFetch_pc, State.clearPulses_pc, hpc, BitVec.add_assoc]
  rfl

end

section
/-! SUPPORT. O44, O45, O47, O50, O51, O53, O54, O57: the remaining instructions and their assembler
forms. -/

namespace Sys2Proof.Machine

/-! ### Upper immediates and targets in the assembler (R111, R112, D17, D21) -/

theorem upper20_of_range {v : Int} (hlo : -524288 ≤ v) (hhi : v ≤ 524287) :
    upper20 v = .ok (BitVec.ofInt 20 v) :=
  if_pos ⟨hlo, hhi⟩

theorem formU_eq (make : RegIdx → BitVec 20 → Instr) {a n : String} {rd : RegIdx} {v : Int}
    (ha : reg? a.toList = some rd) (hn : number? n.toList = some v) :
    formU make [a, n] = Except.map (make rd) (upper20 v) := by
  rw [formU, reg_of_reg? ha, number_of_number? hn]
  rfl

theorem target_of_targetIs {tab : SymbolTable} {here : Word} {t : String} {v : Int}
    (h : Claims.TargetIs tab here t v) : target tab here t = .ok v := by
  obtain hnum | ⟨hnum, e, hfind, rfl⟩ := h
  · rw [target, hnum]
  · rw [target, hnum, hfind]

theorem offset13_of_even {v : Int} (heven : v % 2 = 0) (hlo : -4096 ≤ v) (hhi : v ≤ 4094) :
    offset13 v = .ok (BitVec.ofInt 13 v) := by
  rw [offset13, if_pos ⟨hlo, hhi⟩, and_mask13_of_even (evenOffset_ofInt (by decide) heven)]

theorem offset21_of_even {v : Int} (heven : v % 2 = 0) (hlo : -1048576 ≤ v) (hhi : v ≤ 1048574) :
    offset21 v = .ok (BitVec.ofInt 21 v) := by
  rw [offset21, if_pos ⟨hlo, hhi⟩, and_mask21_of_even (evenOffset_ofInt (by decide) heven)]

theorem formB_eq {tab : SymbolTable} {here : Word} (make : RegIdx → RegIdx → BitVec 13 → Instr)
    {a b t : String} {rs1 rs2 : RegIdx} {v : Int} (ha : reg? a.toList = some rs1)
    (hb : reg? b.toList = some rs2) (ht : Claims.TargetIs tab here t v) :
    formB tab here make [a, b, t] = Except.map (make rs1 rs2) (offset13 v) := by
  rw [formB, reg_of_reg? ha, reg_of_reg? hb, target_of_targetIs ht]
  rfl

theorem formJal_eq {tab : SymbolTable} {here : Word} {a t : String} {rd : RegIdx} {v : Int}
    (ha : reg? a.toList = some rd) (ht : Claims.TargetIs tab here t v) :
    formJal tab here [a, t] = Except.map (.jal rd) (offset21 v) := by
  rw [formJal, reg_of_reg? ha, target_of_targetIs ht]
  rfl

/-! ### The constant of LUI and ADDI -/

/-- LUI writes back its shifted field and does nothing else (R185). -/
theorem exec_lui (rd : RegIdx) (imm20 : BitVec 20) (s : State) :
    exec (.lui rd imm20) s = .next (s.writeReg rd (shiftUpper imm20)) :=
  rfl

/-- A sign-extended 12-bit immediate as a number modulo 2^32. -/
theorem toNat_extend12 (f : BitVec 12) :
    (extend12 f).toNat = f.toNat + if 2048 ≤ f.toNat then 2 ^ 32 - 2 ^ 12 else 0 := by
  have hf := f.isLt
  rw [extend12, BitVec.toNat_signExtend, BitVec.msb_eq_decide, BitVec.toNat_setWidth,
    Nat.mod_eq_of_lt (by omega)]
  simp

/-- Adding 0x800 before the shift makes up for the sign of the low 12 bits. -/
theorem shiftUpper_add_extend12 (K : Word) :
    shiftUpper (((K + 0x800#32) >>> 12).setWidth 20) + extend12 (K.setWidth 12) = K := by
  have hK := K.isLt
  apply BitVec.eq_of_toNat_eq
  rw [BitVec.toNat_add, toNat_shiftUpper, toNat_extend12, BitVec.toNat_setWidth,
    BitVec.toNat_setWidth, BitVec.toNat_ushiftRight, BitVec.toNat_add, Nat.shiftRight_eq_div_pow,
    BitVec.toNat_ofNat]
  split <;> omega

end Sys2Proof.Machine

namespace Sys2Proof.Claims
open Sys2Proof.Machine

/-- The effective address on numbers, modulo 2^32 (R175, D4). -/
theorem effAddr_eq_ofInt (rs1 : RegIdx) (imm : BitVec 12) (s : State) :
    s.effAddr rs1 imm =
      BitVec.ofInt 32 (4 * s.cfg.instructionCount.val + (s.readReg rs1).toInt + imm.toInt) := by
  have hbase : s.dataBase = BitVec.ofInt 32 (4 * s.cfg.instructionCount.val) := by
    rw [State.dataBase, State.dataOffset, ← BitVec.ofInt_natCast]
    push_cast
    rfl
  rw [BitVec.ofInt_add, BitVec.ofInt_add, ← hbase, BitVec.ofInt_toInt]
  rfl

/-- A mnemonic that the assembler hands to `formU` has the operands of R111. -/
theorem textU_of_assemble {name : String} {mk : RegIdx → BitVec 20 → Instr}
    (h : ∀ tab here rands line label,
      assemble tab here ⟨name, rands, line, label⟩ = formU mk rands) : TextU name mk :=
  fun tab here _ _ line label rd _ ha hn hlo hhi => encodeRecord_of_assemble <|
    ((h tab here _ line label).trans (formU_eq mk ha hn)).trans
      (congrArg (Except.map (mk rd)) (upper20_of_range hlo hhi))

/-- A branch that is taken or not changes nothing but `pc` (R190). -/
theorem execBranch_frame {c : Cond} {rs1 rs2 : RegIdx} {off : BitVec 13} {s t : State}
    (h : execBranch c rs1 rs2 off s = .next t) : SameRegs s t ∧ OnlyRegsAndPc s t := by
  cases hc : c.holds (s.readReg rs1) (s.readReg rs2) with
  | true =>
    cases (execBranch_taken hc off).symm.trans h
    exact ⟨fun _ => rfl, ⟨rfl, rfl, rfl, rfl⟩, fun _ => rfl, rfl, rfl, rfl⟩
  | false =>
    cases (execBranch_notTaken hc off).symm.trans h
    exact ⟨fun _ => rfl, ⟨rfl, rfl, rfl, rfl⟩, fun _ => rfl, rfl, rfl, rfl⟩

/-- What R190 says of a branch, from its row of R95, its assembler form and its comparison. -/
theorem branchClaim_of {mk : RegIdx → RegIdx → BitVec 13 → Instr} {name : String} {bits : Word}
    {c : Cond} {cond : Word → Word → Prop}
    (hdecode : ∀ w : Word, w &&& 0x0000707F#32 = bits →
      decode w = .instr (mk (rs1Of w) (rs2Of w) (immBBits w)))
    (htext : ∀ tab here rands line label,
      assemble tab here ⟨name, rands, line, label⟩ = formB tab here mk rands)
    (hexec : ∀ rs1 rs2 off s, exec (mk rs1 rs2 off) s = execBranch c rs1 rs2 off s)
    (hcond : ∀ a b, c.holds a b = true ↔ cond a b) : BranchClaim mk name bits cond := by
  refine ⟨hdecode, ?text, fun rs1 rs2 off p s hp => ?runs⟩
  case text =>
    intro tab here a b t line label rs1 rs2 v ha hb ht heven hlo hhi
    refine encodeRecord_of_assemble ?_
    rw [htext, formB_eq mk ha hb ht, offset13_of_even heven hlo hhi]
    rfl
  case runs =>
    rw [hexec, ← hcond]
    refine ⟨_, rfl, fun htaken => ?_, fun hnot => ?_, execBranch_frame rfl⟩
    · rw [execBranch_pc hp rfl, if_pos htaken]
    · rw [execBranch_pc hp rfl, if_neg hnot]

end Sys2Proof.Claims

open Sys2Proof Sys2Proof.Machine Sys2Proof.Claims

/-- Settles O44: what holds of every register-register instruction, for XOR, OR and AND. -/
theorem xorOrAnd : Obligations.XorOrAnd :=
  ⟨aluClaim_instr .xor, aluClaim_instr .or, aluClaim_instr .and⟩

/-- Settles O45: what holds of every register-register instruction, for the shifts. -/
theorem shiftsSllSrlSra : Obligations.ShiftsSllSrlSra :=
  ⟨aluClaim_instr .sll, aluClaim_instr .srl, aluClaim_instr .sra⟩

/-- Settles O47: the three summands as numbers modulo 2^32. -/
theorem effectiveAddressIsDataRelative : Obligations.EffectiveAddressIsDataRelative :=
  fun rs1 imm s => ⟨effAddr_eq_ofInt rs1 imm s, fun _ => ⟨rfl, rfl⟩⟩

/-- Settles O50: LUI is one writeback of the shifted field. -/
theorem luiLoadsTheUpperImmediate : Obligations.LuiLoadsTheUpperImmediate := by
  refine ⟨fun w hw => decode_of_mask (o := .lui) hw, textU_of_assemble fun _ _ _ _ _ => rfl,
    fun rd imm20 s => ⟨_, exec_lui rd imm20 s, ?writes, State.writeReg_pc s rd _,
      onlyRegsAndPc_writeReg s rd _⟩⟩
  case writes =>
    rw [eq_ofNat_of_toNat_eq (toNat_shiftUpper imm20)]
    exact wrote_writeReg s rd _

/-- Settles O51: two writebacks to one register, whose values sum to the constant. -/
theorem luiThenAddiBuildsAnyConstant : Obligations.LuiThenAddiBuildsAnyConstant := by
  intro rd K s hrd
  refine ⟨_, _, exec_lui rd _ s, exec_addi rd rd _ _, ?value, fun q hq => ?others⟩
  case value =>
    rw [State.readReg_writeReg_same _ hrd, State.readReg_writeReg_same s hrd]
    exact shiftUpper_add_extend12 K
  case others => rw [State.readReg_writeReg_other _ hq, State.readReg_writeReg_other s hq]

/-- Settles O53: what holds of every branch, for the two comparisons for equality. -/
theorem beqAndBneCompareForEquality : Obligations.BeqAndBneCompareForEquality :=
  ⟨branchClaim_of (c := .eq) (fun _ hw => decode_of_mask (o := .beq) hw) (fun _ _ _ _ _ => rfl)
      (fun _ _ _ _ => rfl) fun _ _ => decide_eq_true_iff,
    branchClaim_of (c := .ne) (fun _ hw => decode_of_mask (o := .bne) hw) (fun _ _ _ _ _ => rfl)
      (fun _ _ _ _ => rfl) fun _ _ => decide_eq_true_iff⟩

/-- Settles O54: what holds of every branch, for the two signed comparisons. -/
theorem bltAndBgeCompareSigned : Obligations.BltAndBgeCompareSigned :=
  ⟨branchClaim_of (c := .lt) (fun _ hw => decode_of_mask (o := .blt) hw) (fun _ _ _ _ _ => rfl)
      (fun _ _ _ _ => rfl) fun _ _ => decide_eq_true_iff,
    branchClaim_of (c := .ge) (fun _ hw => decode_of_mask (o := .bge) hw) (fun _ _ _ _ _ => rfl)
      (fun _ _ _ _ => rfl) fun _ _ => decide_eq_true_iff⟩

/-- Settles O57: each mnemonic's operand form. -/
theorem generalKnowledgeForms : Obligations.GeneralKnowledgeForms := by
  refine ⟨textMem_of_assemble fun _ _ _ _ _ => rfl, textMem_of_assemble fun _ _ _ _ _ => rfl,
    textU_of_assemble fun _ _ _ _ _ => rfl,
    fun tab here a t line label rd v ha ht heven hlo hhi => ?_⟩
  exact encodeRecord_of_assemble ((formJal_eq ha ht).trans
    (congrArg (Except.map (Instr.jal rd)) (offset21_of_even heven hlo hhi)))

end

section
/-! SUPPORT. O9 to O11: the operand forms of the textual encoder, what each fails on, and what each
answers. -/

namespace Sys2Proof.Machine

/-! ### Sequencing in the encoder -/

/-- The encoder fails, for whatever reason. -/
def Fails (e : Except EncodeError Instr) : Prop := ∃ why, e = .error why

theorem fails_error (why : EncodeError) : Fails (.error why) := ⟨why, rfl⟩

theorem fails_bind_of_error {α : Type} {x : Except EncodeError α} {why : EncodeError}
    (h : x = .error why) (f : α → Except EncodeError Instr) : Fails (x >>= f) := by
  rw [h]
  exact fails_error why

theorem fails_bind {α : Type} (x : Except EncodeError α) {f : α → Except EncodeError Instr}
    (h : ∀ v, Fails (f v)) : Fails (x >>= f) := by
  cases x with
  | error why => exact fails_error why
  | ok v => exact h v

/-- Whatever instruction the encoder answers is well-formed. -/
def AnswersWf (e : Except EncodeError Instr) : Prop := ∀ i, e = .ok i → i.wf = true

theorem answersWf_error (why : EncodeError) : AnswersWf (.error why) := nofun

theorem answersWf_pure {i : Instr} (h : i.wf = true) : AnswersWf (pure i) := fun j hj => by
  cases hj
  exact h

theorem answersWf_bind {α : Type} {x : Except EncodeError α} {f : α → Except EncodeError Instr}
    (h : ∀ v, x = .ok v → AnswersWf (f v)) : AnswersWf (x >>= f) := by
  cases x with
  | error why => exact answersWf_error why
  | ok v => exact h v rfl

theorem encodeRecord_of_fails {tab : SymbolTable} {here : Word} {r : Record}
    (h : Fails (assemble tab here r)) : encodeRecord tab here r = (0#32, true) := by
  obtain ⟨why, h⟩ := h
  rw [encodeRecord, h]
  rfl

/-- A record whose last step is a range check succeeds exactly when the check does. -/
theorem encodeRecord_succeeds_iff {α : Type} {tab : SymbolTable} {here : Word} {r : Record}
    {p : Prop} [Decidable p] {v : α} {f : α → Instr}
    (h : assemble tab here r = Except.map f (if p then .ok v else .error .range)) :
    (encodeRecord tab here r).2 = false ↔ p := by
  rw [encodeRecord, h]
  split_ifs with hp
  · exact iff_of_true rfl hp
  · exact iff_of_false (by rintro ⟨⟩) hp

theorem reg_of_reg?_none {a : String} (h : reg? a.toList = none) : reg a = .error .register := by
  rw [reg, h]

theorem memOperand_of_reg?_none {m : String} {off breg : List Char}
    (hm : memOperand? m.toList = some (off, breg)) (hb : reg? breg = none) :
    memOperand m = .error .register := by
  simp only [memOperand, hm, hb]

/-! ### The form of each mnemonic (R111) -/

/-- The operand form that each mnemonic is handed to. -/
inductive AssembleForm (tab : SymbolTable) (here : Word) :
    String → (List String → Except EncodeError Instr) → Prop where
  | unknown {m : String} (hm : m ∉ Claims.mnemonics) :
      AssembleForm tab here m fun _ => .error .mnemonic
  | alu {m : String} (op : AluOp) (hm : m = op.mnemonic) : AssembleForm tab here m (formR op.instr)
  | addi : AssembleForm tab here "addi" formAddi
  | li : AssembleForm tab here "li" formLi
  | mem {m : String} {make : RegIdx → RegIdx → BitVec 12 → Instr} (hm : m ∈ ["lw", "sw", "jalr"])
      (hwf : ∀ r b imm, (make r b imm).wf = true) : AssembleForm tab here m (formMem make)
  | upper {m : String} {make : RegIdx → BitVec 20 → Instr} (hm : m ∈ ["lui", "auipc"])
      (hwf : ∀ r imm, (make r imm).wf = true) : AssembleForm tab here m (formU make)
  | branch {m : String} {make : RegIdx → RegIdx → BitVec 13 → Instr}
      (hm : m ∈ ["beq", "bne", "blt", "bge"])
      (hwf : ∀ a b off, (make a b off).wf = evenOffset off) :
      AssembleForm tab here m (formB tab here make)
  | jal : AssembleForm tab here "jal" (formJal tab here)

theorem assemble_of_unknown {r : Record} (hm : r.mnemonic ∉ Claims.mnemonics) (tab : SymbolTable)
    (here : Word) : assemble tab here r = .error .mnemonic := by
  simp only [Claims.mnemonics, List.cons_append, List.nil_append, List.mem_cons, List.not_mem_nil,
    or_false, not_or] at hm
  simp [assemble, hm]

/-- The assembler looks at the mnemonic, and then at the operands through its form alone. -/
theorem assemble_form (tab : SymbolTable) (here : Word) (m : String) (rands : List String)
    (line : Int) (label : Option String) :
    ∃ form, AssembleForm tab here m form ∧
      assemble tab here ⟨m, rands, line, label⟩ = form rands := by
  by_cases hm : m ∈ Claims.mnemonics
  · simp only [Claims.mnemonics, List.cons_append, List.nil_append, List.mem_cons,
      List.not_mem_nil, or_false] at hm
    obtain rfl | rfl | rfl | rfl | rfl | rfl | rfl | rfl | rfl | rfl | rfl | rfl | rfl | rfl | rfl
      | rfl | rfl | rfl | rfl | rfl := hm
    · exact ⟨_, .alu .add rfl, rfl⟩
    · exact ⟨_, .alu .sub rfl, rfl⟩
    · exact ⟨_, .alu .sll rfl, rfl⟩
    · exact ⟨_, .alu .xor rfl, rfl⟩
    · exact ⟨_, .alu .srl rfl, rfl⟩
    · exact ⟨_, .alu .sra rfl, rfl⟩
    · exact ⟨_, .alu .or rfl, rfl⟩
    · exact ⟨_, .alu .and rfl, rfl⟩
    · exact ⟨_, .addi, rfl⟩
    · exact ⟨_, .li, rfl⟩
    · exact ⟨_, .mem (by decide) fun _ _ _ => rfl, rfl⟩
    · exact ⟨_, .mem (make := fun rs2 rs1 imm => .sw rs1 rs2 imm) (by decide) fun _ _ _ => rfl, rfl⟩
    · exact ⟨_, .mem (by decide) fun _ _ _ => rfl, rfl⟩
    · exact ⟨_, .upper (by decide) fun _ _ => rfl, rfl⟩
    · exact ⟨_, .upper (by decide) fun _ _ => rfl, rfl⟩
    · exact ⟨_, .branch (by decide) fun _ _ _ => rfl, rfl⟩
    · exact ⟨_, .branch (by decide) fun _ _ _ => rfl, rfl⟩
    · exact ⟨_, .branch (by decide) fun _ _ _ => rfl, rfl⟩
    · exact ⟨_, .branch (by decide) fun _ _ _ => rfl, rfl⟩
    · exact ⟨_, .jal, rfl⟩
  · exact ⟨_, .unknown hm, assemble_of_unknown hm tab here⟩

/-- The mnemonics whose second operand is a memory operand. -/
theorem assemble_mem {m : String} (hm : m ∈ ["lw", "sw", "jalr"]) :
    ∃ make, ∀ tab here rands line label,
      assemble tab here ⟨m, rands, line, label⟩ = formMem make rands := by
  simp only [List.mem_cons, List.not_mem_nil, or_false] at hm
  obtain rfl | rfl | rfl := hm
  · exact ⟨.lw, fun _ _ _ _ _ => rfl⟩
  · exact ⟨fun rs2 rs1 imm => .sw rs1 rs2 imm, fun _ _ _ _ _ => rfl⟩
  · exact ⟨.jalr, fun _ _ _ _ _ => rfl⟩

/-! ### What each form answers -/

/-- A target loses its bit 0 (D17). -/
theorem evenOffset_of_offset13 {v : Int} {off : BitVec 13} (h : offset13 v = .ok off) :
    evenOffset off = true := by
  unfold offset13 at h
  split at h <;> cases h
  simp [evenOffset]

theorem evenOffset_of_offset21 {v : Int} {off : BitVec 21} (h : offset21 v = .ok off) :
    evenOffset off = true := by
  unfold offset21 at h
  split at h <;> cases h
  simp [evenOffset]

theorem AluOp.wf_instr (op : AluOp) (rd rs1 rs2 : RegIdx) : (op.instr rd rs1 rs2).wf = true := by
  cases op <;> rfl

/-- The assembler answers well-formed instructions only: its offsets are even. -/
theorem answersWf_assemble (tab : SymbolTable) (here : Word) (r : Record) :
    AnswersWf (assemble tab here r) := by
  obtain ⟨m, rands, line, label⟩ := r
  obtain ⟨form, hform, heq⟩ := assemble_form tab here m rands line label
  rw [heq]
  cases hform with
  | unknown => exact answersWf_error _
  | alu op _ =>
    match rands with
    | [_, _, _] =>
      exact answersWf_bind fun rd _ => answersWf_bind fun rs1 _ => answersWf_bind fun rs2 _ =>
        answersWf_pure (op.wf_instr rd rs1 rs2)
    | [] | [_] | [_, _] | _ :: _ :: _ :: _ :: _ => exact answersWf_error _
  | addi =>
    match rands with
    | [_, _, _] =>
      exact answersWf_bind fun _ _ => answersWf_bind fun _ _ => answersWf_bind fun _ _ =>
        answersWf_bind fun _ _ => answersWf_pure rfl
    | [] | [_] | [_, _] | _ :: _ :: _ :: _ :: _ => exact answersWf_error _
  | branch _ hwf =>
    match rands with
    | [_, _, _] =>
      exact answersWf_bind fun a _ => answersWf_bind fun b _ => answersWf_bind fun _ _ =>
        answersWf_bind fun off hoff =>
          answersWf_pure ((hwf a b off).trans (evenOffset_of_offset13 hoff))
    | [] | [_] | [_, _] | _ :: _ :: _ :: _ :: _ => exact answersWf_error _
  | li =>
    match rands with
    | [_, _] =>
      exact answersWf_bind fun _ _ => answersWf_bind fun _ _ => answersWf_bind fun _ _ =>
        answersWf_pure rfl
    | [] | [_] | _ :: _ :: _ :: _ => exact answersWf_error _
  | mem _ hwf =>
    match rands with
    | [_, _] =>
      exact answersWf_bind fun r _ => answersWf_bind fun m _ => answersWf_pure (hwf r m.2 m.1)
    | [] | [_] | _ :: _ :: _ :: _ => exact answersWf_error _
  | upper _ hwf =>
    match rands with
    | [_, _] =>
      exact answersWf_bind fun rd _ => answersWf_bind fun _ _ => answersWf_bind fun imm _ =>
        answersWf_pure (hwf rd imm)
    | [] | [_] | _ :: _ :: _ :: _ => exact answersWf_error _
  | jal =>
    match rands with
    | [_, _] =>
      exact answersWf_bind fun _ _ => answersWf_bind fun _ _ => answersWf_bind fun _ hoff =>
        answersWf_pure (evenOffset_of_offset21 hoff)
    | [] | [_] | _ :: _ :: _ :: _ => exact answersWf_error _

/-! ### What each form fails on (R112) -/

section
variable {tab : SymbolTable} {here : Word} {rands : List String}

theorem operandsNeeded_le (m : String) : Claims.operandsNeeded m ≤ 3 := by
  unfold Claims.operandsNeeded
  split <;> decide

/-- The mnemonics with a memory operand or an upper immediate need two operands (R111). -/
theorem operandsNeeded_eq_two : ∀ m ∈ ["lw", "sw", "jalr"] ++ ["lui", "auipc"],
    Claims.operandsNeeded m = 2 := by decide

/-- Too few operands fail under every mnemonic. -/
theorem fails_of_count {r : Record} (h : r.operands.length < Claims.operandsNeeded r.mnemonic) :
    Fails (assemble tab here r) := by
  obtain ⟨m, rands, line, label⟩ := r
  obtain ⟨form, hform, heq⟩ := assemble_form tab here m rands line label
  rw [heq]
  cases hform with
  | unknown => exact fails_error _
  | alu | addi | branch =>
    have hcount : rands.length < 3 := Nat.lt_of_lt_of_le h (operandsNeeded_le _)
    match rands, hcount with
    | [], _ | [_], _ | [_, _], _ => exact fails_error _
  | li | jal =>
    have hcount : rands.length < 2 := h
    match rands, hcount with
    | [], _ | [_], _ => exact fails_error _
  | mem hm =>
    have hcount : rands.length < 2 := operandsNeeded_eq_two m (List.mem_append_left _ hm) ▸ h
    match rands, hcount with
    | [], _ | [_], _ => exact fails_error _
  | upper hm =>
    have hcount : rands.length < 2 := operandsNeeded_eq_two m (List.mem_append_right _ hm) ▸ h
    match rands, hcount with
    | [], _ | [_], _ => exact fails_error _

/-- A first operand that is no register fails under every mnemonic, whatever follows it. -/
theorem fails_of_first {m a : String} {line : Int} {label : Option String}
    (ha : reg? a.toList = none) : Fails (assemble tab here ⟨m, a :: rands, line, label⟩) := by
  have hreg := reg_of_reg?_none ha
  obtain ⟨form, hform, heq⟩ := assemble_form tab here m (a :: rands) line label
  rw [heq]
  cases hform with
  | unknown => exact fails_error _
  | alu | addi | branch =>
    match rands with
    | [_, _] => exact fails_bind_of_error hreg _
    | [] | [_] | _ :: _ :: _ :: _ => exact fails_error _
  | li | mem | upper | jal =>
    match rands with
    | [_] => exact fails_bind_of_error hreg _
    | [] | _ :: _ :: _ => exact fails_error _

/-- Of three operands the second is a register too, or there is one too many (assumption 18). -/
theorem fails_of_second {m a b c : String} {line : Int} {label : Option String}
    (hb : reg? b.toList = none) : Fails (assemble tab here ⟨m, [a, b, c], line, label⟩) := by
  have hreg := reg_of_reg?_none hb
  obtain ⟨form, hform, heq⟩ := assemble_form tab here m [a, b, c] line label
  rw [heq]
  cases hform with
  | unknown | li | mem | upper | jal => exact fails_error _
  | alu | addi | branch => exact fails_bind _ fun _ => fails_bind_of_error hreg _

theorem formR_of_third (make : RegIdx → RegIdx → RegIdx → Instr) {a b c : String}
    (hc : reg? c.toList = none) : Fails (formR make [a, b, c]) :=
  fails_bind _ fun _ => fails_bind _ fun _ => fails_bind_of_error (reg_of_reg?_none hc) _

theorem formMem_of_base (make : RegIdx → RegIdx → BitVec 12 → Instr) {a m : String}
    {off breg : List Char} (hm : memOperand? m.toList = some (off, breg)) (hb : reg? breg = none) :
    Fails (formMem make [a, m]) :=
  fails_bind _ fun _ => fails_bind_of_error (memOperand_of_reg?_none hm hb) _
end

/-! ### With resolving operands the range check decides (R112) -/

section
variable {a b c : String} {rd rs1 : RegIdx} {v : Int}

theorem formAddi_eq (ha : reg? a.toList = some rd) (hb : reg? b.toList = some rs1)
    (hc : number? c.toList = some v) :
    formAddi [a, b, c] = Except.map (.addi rd rs1) (imm12 v) := by
  rw [formAddi, reg_of_reg? ha, reg_of_reg? hb, number_of_number? hc]
  rfl

theorem formLi_eq (ha : reg? a.toList = some rd) (hc : number? c.toList = some v) :
    formLi [a, c] = Except.map (.addi rd 0) (imm12 v) := by
  rw [formLi, reg_of_reg? ha, number_of_number? hc]
  rfl

theorem formMem_eq (make : RegIdx → RegIdx → BitVec 12 → Instr) {off breg : List Char}
    (ha : reg? a.toList = some rd) (hm : memOperand? b.toList = some (off, breg))
    (hv : number? off = some v) (hb : reg? breg = some rs1) :
    formMem make [a, b] = Except.map (make rd rs1) (imm12 v) := by
  have hop : memOperand b = (imm12 v).map fun i => (i, rs1) := by
    simp only [memOperand, hm, hb, hv]
  rw [formMem, reg_of_reg? ha, hop]
  cases imm12 v <;> rfl

/-- The load-immediate idiom, failures included (R113, R171). -/
theorem formAddi_of_zero {z : String} (hz : reg? z.toList = some 0#5) :
    formAddi [a, z, c] = formLi [a, c] := by
  rw [formAddi, reg_of_reg? hz, formLi]
  cases reg a <;> rfl
end

end Sys2Proof.Machine

open Sys2Proof Sys2Proof.Machine Sys2Proof.Claims

/-- Settles O9: the assembler answers well-formed instructions, which the decoder gives back. -/
theorem encodedRecordsDecode : Obligations.EncodedRecordsDecode := by
  intro tab here r w failed h
  cases ha : assemble tab here r with
  | error why =>
    rw [encodeRecord_of_fails ⟨why, ha⟩] at h
    cases h
    exact ⟨nofun, fun _ => ⟨rfl, decode_zero⟩⟩
  | ok i =>
    rw [encodeRecord_of_assemble ha] at h
    cases h
    have hwf : i.wf = true := answersWf_assemble tab here r i ha
    exact ⟨fun _ => ⟨i, decode_encode hwf, hwf, rfl⟩, nofun⟩

/-- Settles O10: the failures by the operand forms, and the range check that is the last step of a
form whose operands resolve. -/
theorem encoderFailuresAreThoseListed : Obligations.EncoderFailuresAreThoseListed := by
  refine ⟨fun tab here r hm => encodeRecord_of_fails ⟨_, assemble_of_unknown hm tab here⟩,
    fun tab here r h => encodeRecord_of_fails (fails_of_count h),
    fun tab here m a rest line label ha => encodeRecord_of_fails (fails_of_first ha),
    fun tab here m a b c line label hb => encodeRecord_of_fails (fails_of_second hb),
    fun tab here m a b c line label hm hc => encodeRecord_of_fails ?third,
    fun tab here m a b line label off breg hm hb hr => encodeRecord_of_fails ?base,
    fun tab here a b c line label rd rs1 v ha hb hc => ⟨?addi, ?li, ?upper⟩,
    fun tab here a m line label r base off breg v ha hm hv hb => ?mem,
    fun tab here a b t line label r q v ha hb ht => ⟨?branch, ?jal⟩⟩
  case third =>
    simp only [List.mem_cons, List.not_mem_nil, or_false] at hm
    obtain rfl | rfl | rfl | rfl | rfl | rfl | rfl | rfl := hm <;> exact formR_of_third _ hc
  case base =>
    obtain ⟨make, hform⟩ := assemble_mem hm
    rw [hform]
    exact formMem_of_base make hb hr
  case addi => exact encodeRecord_succeeds_iff (formAddi_eq ha hb hc)
  case li => exact encodeRecord_succeeds_iff (formLi_eq ha hc)
  case upper =>
    intro m hm
    obtain rfl | rfl := List.mem_pair.mp hm <;> exact encodeRecord_succeeds_iff (formU_eq _ ha hc)
  case mem =>
    intro n hn
    obtain ⟨make, hform⟩ := assemble_mem hn
    exact encodeRecord_succeeds_iff ((hform ..).trans (formMem_eq make ha hm hv hb))
  case branch =>
    intro n hn
    simp only [List.mem_cons, List.not_mem_nil, or_false] at hn
    obtain rfl | rfl | rfl | rfl := hn <;> exact encodeRecord_succeeds_iff (formB_eq _ ha hb ht)
  case jal => exact encodeRecord_succeeds_iff (formJal_eq ha ht)

/-- Settles O11: the two forms agree once `x0` resolves; the other names are no mnemonics. -/
theorem loadImmediateIsAddiFromZero : Obligations.LoadImmediateIsAddiFromZero := by
  refine ⟨fun tab here a z n line label hz => ?li, fun tab here ops line label m hm => ?rejected⟩
  case li =>
    have hforms : assemble tab here ⟨"addi", [a, z, n], line, label⟩ =
        assemble tab here ⟨"li", [a, n], line, label⟩ := formAddi_of_zero hz
    rw [encodeRecord, encodeRecord, hforms]
  case rejected =>
    have hunknown : ∀ m ∈ ["nop", "mv", "j", "ret", "call"], m ∉ mnemonics := by decide
    exact encodeRecord_of_fails ⟨_, assemble_of_unknown (hunknown m hm) tab here⟩

end

section
/-! SUPPORT. O58, O59: the run loop. Its fuel is always enough, and its last state tells how it
ended. -/

namespace Sys2Proof.Claims
open Sys2Proof.Machine

/-! ### The loop's condition and its result (R135, R136) -/

theorem mayStep_iff (s : State) :
    s.mayStep = true ↔ s.halted = false ∧ s.error = false ∧ s.instret < s.cfg.stepCeiling := by
  simp [State.mayStep, State.running, and_assoc]

theorem stepFailed_iff (s : State) :
    s.stepFailed = true ↔ s.out.stepStatus = .decodeFail ∨ s.out.stepStatus = .executeFail := by
  simp [State.stepFailed]

theorem runFuel_stopped {s : State} (h : ¬ s.mayStep = true) (fuel : Nat) :
    runFuel fuel s = .next (s, s.runResult) := by
  cases fuel with
  | zero => rfl
  | succ fuel => rw [runFuel, if_neg h]

theorem runFuel_step {s t : State} (h : s.mayStep = true) (hstep : step s = .next t) (fuel : Nat) :
    runFuel (fuel + 1) s = if t.stepFailed then .next (t, .failed) else runFuel fuel t := by
  rw [runFuel, if_pos h, hstep]

theorem run_stopped {s : State} (h : ¬ s.mayStep = true) : run s = .next (s, s.runResult) :=
  runFuel_stopped h _

/-- A step that may be taken and does not fail counts, or the loop ends after it (R127). -/
theorem counts_of_mayStep {s t : State} (h : s.mayStep = true) (hstep : step s = .next t)
    (hok : ¬ t.stepFailed = true) : t.instret = s.instret + 1 ∨ ¬ t.mayStep = true := by
  obtain ⟨hh, he, -⟩ := (mayStep_iff s).mp h
  cases step_inv hstep with
  | refuses herr => cases he.symm.trans herr
  | idles _ hhalt => cases hh.symm.trans hhalt
  | halts => exact .inr nofun
  | fetchRaises | illegal => exact absurd rfl hok
  | runs i u _ _ _ _ _ hx =>
    obtain ⟨-, hcount, -⟩ | ⟨hst, -⟩ := step_counts_or_not hstep
    · exact .inl hcount
    · have hu : u.error = true := by
        rw [← Bool.not_eq_false]
        exact fun hu => hst (by rw [State.complete_of_ok u hu]; rfl)
      exact .inr fun hmay => by
        obtain ⟨-, herr, -⟩ := (mayStep_iff _).mp hmay
        cases herr.symm.trans ((State.complete_error u).trans hu)

/-- The loop with the condition and the step of one iteration written out. -/
theorem run_step {s t : State} (h : s.mayStep = true) (hstep : step s = .next t) :
    run s = if t.stepFailed then .next (t, .failed) else run t := by
  obtain ⟨-, -, hlt⟩ := (mayStep_iff s).mp h
  rw [run, State.runBound, runFuel_step h hstep]
  by_cases hfail : t.stepFailed = true
  · rw [if_pos hfail, if_pos hfail]
  · rw [if_neg hfail, if_neg hfail]
    obtain hcount | hstop := counts_of_mayStep h hstep hfail
    · rw [run, State.runBound, cfg_of_step hstep, hcount]
      congr 1
      omega
    · rw [runFuel_stopped hstop, run_stopped hstop]

/-! ### How a run ends -/

/-- The result names the flags of the final state; at the ceiling the counter stands there. -/
structure RunEnds (s t : State) (r : RunResult) : Prop where
  reached : Reaches s t
  failed : r = .failed ↔ t.error = true
  halted : r = .halted ↔ t.error = false ∧ t.halted = true
  ceiling : r = .ceiling ↔ t.error = false ∧ t.halted = false
  atCeiling : r = .ceiling → s.instret ≤ s.cfg.stepCeiling → t.instret = s.cfg.stepCeiling

theorem reaches_of_step {s t u : State} (hstep : step s = .next t) (h : Reaches t u) :
    Reaches s u := by
  induction h with
  | start => exact .step .start hstep
  | step _ hlast ih => exact .step ih hlast

theorem runEnds_of_stopped {s : State} (h : ¬ s.mayStep = true) : RunEnds s s s.runResult := by
  rw [mayStep_iff] at h
  rw [State.runResult]
  cases he : s.error with
  | true => exact ⟨.start, by simp [he], by simp [he], by simp [he], nofun⟩
  | false =>
    cases hh : s.halted with
    | true => exact ⟨.start, by simp [he], by simp [he, hh], by simp [hh], nofun⟩
    | false =>
      refine ⟨.start, by simp [he], by simp [hh], by simp [he, hh], fun _ hle => ?_⟩
      exact Nat.le_antisymm hle (Nat.le_of_not_lt fun hlt => h ⟨hh, he, hlt⟩)

theorem runEnds_of_failed {s t : State} (hstep : step s = .next t) (hfail : t.stepFailed = true) :
    RunEnds s t .failed := by
  obtain ⟨-, herr⟩ := error_of_failureStatus hstep ((stepFailed_iff t).mp hfail)
  exact ⟨.step .start hstep, by simp [herr], by simp [herr], by simp [herr], nofun⟩

theorem RunEnds.of_step {s t u : State} {r : RunResult} (hstep : step s = .next t)
    (hle : t.instret ≤ t.cfg.stepCeiling) (h : RunEnds t u r) : RunEnds s u r :=
  { h with
    reached := reaches_of_step hstep h.reached
    atCeiling := fun hr _ => cfg_of_step hstep ▸ h.atCeiling hr hle }

/-- Every run ends: an iteration counts towards the ceiling, or it is the last. -/
theorem runEnds (s : State) : ∃ t r, run s = .next (t, r) ∧ RunEnds s t r := by
  by_cases h : s.mayStep = true
  · obtain ⟨-, -, hlt⟩ := (mayStep_iff s).mp h
    obtain ⟨t, hstep, -⟩ := step_shape s
    by_cases hfail : t.stepFailed = true
    · exact ⟨t, .failed, by rw [run_step h hstep, if_pos hfail], runEnds_of_failed hstep hfail⟩
    · have hle : t.instret ≤ t.cfg.stepCeiling := by
        rw [cfg_of_step hstep]
        obtain ⟨-, hcount, -⟩ | ⟨-, hcount⟩ := step_counts_or_not hstep <;> omega
      have hends : ∃ u r, run t = .next (u, r) ∧ RunEnds t u r := by
        obtain hcount | hstop := counts_of_mayStep h hstep hfail
        · exact runEnds t
        · exact ⟨t, _, run_stopped hstop, runEnds_of_stopped hstop⟩
      obtain ⟨u, r, hrun, hend⟩ := hends
      exact ⟨u, r, by rw [run_step h hstep, if_neg hfail, hrun], hend.of_step hstep hle⟩
  · exact ⟨s, _, run_stopped h, runEnds_of_stopped h⟩
termination_by s.cfg.stepCeiling - s.instret
decreasing_by
  rw [cfg_of_step hstep, hcount]
  omega

end Sys2Proof.Claims

open Sys2Proof Sys2Proof.Machine Sys2Proof.Claims

/-- Settles O58: the fuel left after an iteration is the new state's own, or is not needed. -/
theorem runIsTheLoop : Obligations.RunIsTheLoop := by
  intro s
  obtain ⟨t, hstep, -⟩ := step_shape s
  by_cases h : s.mayStep = true
  · rw [run_step h hstep, if_pos ((mayStep_iff s).mp h), hstep]
    simp only [stepFailed_iff]
  · rw [run_stopped h, if_neg fun hcond => h ((mayStep_iff s).mpr hcond)]
    rfl

/-- Settles O59: induction on the instructions left to the ceiling. -/
theorem runEndsInOneOfThreeWays : Obligations.RunEndsInOneOfThreeWays := by
  refine ⟨fun s => ?ends, fun s he hh hcount => ?atCeiling, rfl, rfl, rfl⟩
  case ends =>
    obtain ⟨t, r, hrun, hend⟩ := runEnds s
    exact ⟨t, r, hrun, hend.reached, hend.failed, hend.halted, hend.ceiling, hend.atCeiling⟩
  case atCeiling =>
    have hstop : ¬ s.mayStep = true := fun h => by
      obtain ⟨-, -, hlt⟩ := (mayStep_iff s).mp h
      omega
    rw [run_stopped hstop, State.runResult, he, hh]
    rfl

end

section
/-! SUPPORT. O60: what the loader's writes leave at each byte of the image. -/

namespace Sys2Proof.Claims
open Sys2Proof.Machine

/-! ### Bytes that a load does not touch -/

/-- A word write changes only the bytes it covers (R54). -/
theorem get_write32_of_not_covers {cap addr a : Nat} (h : ¬ Covers cap addr a) (m : Memory)
    (v : Word) : (m.write32 cap addr v).1.get a = m.get a := by
  cases hb : inBounds cap addr with
  | false => rw [Memory.write32_outOfBounds hb]
  | true =>
    have hfits : addr + 4 ≤ cap := by simpa [inBounds] using hb
    refine Memory.get_write32_outside m cap addr v ?_
    rw [Covers] at h
    omega

theorem get_loadProgram_of_not_covers {cap a : Nat} : ∀ (ws : List Word) (m : Memory) (addr : Nat),
    (∀ i < ws.length, ¬ Covers cap (addr + 4 * i) a) →
      (loadProgram cap m addr ws).get a = m.get a
  | [], _, _, _ => rfl
  | w :: ws, m, addr, h => by
    have hhead : ¬ Covers cap addr a := h 0 (Nat.succ_pos _)
    have htail : ∀ i < ws.length, ¬ Covers cap (addr + 4 + 4 * i) a := fun i hi => by
      have hnext := h (i + 1) (Nat.succ_lt_succ hi)
      rwa [Nat.mul_add, Nat.mul_one, Nat.add_comm (4 * i) 4, ← Nat.add_assoc] at hnext
    rw [loadProgram, get_loadProgram_of_not_covers ws _ (addr + 4) htail,
      get_write32_of_not_covers hhead]

theorem get_loadData_of_not_covers {cap base a : Nat} : ∀ (ds : List StaticDatum) (m : Memory),
    (∀ d ∈ ds, ¬ Covers cap (base + d.offset.toNat) a) → (loadData cap base m ds).get a = m.get a
  | [], _, _ => rfl
  | d :: ds, m, h => by
    obtain ⟨hhead, htail⟩ := List.forall_mem_cons.mp h
    rw [loadData, get_loadData_of_not_covers ds _ htail, get_write32_of_not_covers hhead]

/-! ### Words that a load leaves -/

/-- A word stays where its bytes are unchanged. -/
theorem Holds.congr {m n : Memory} {addr : Nat} {v : Word} (h : Holds m addr v)
    (hsame : ∀ a, addr ≤ a → a < addr + 4 → n.get a = m.get a) : Holds n addr v := fun k hk => by
  rw [hsame (addr + k) (by omega) (by omega), h k hk]

/-- A program word that fits is in memory after the program is loaded: later words lie above it. -/
theorem holds_loadProgram {cap : Nat} : ∀ (ws : List Word) {m : Memory} (addr i : Nat)
    (hi : i < ws.length), m.wf = true → addr + 4 * i + 4 ≤ cap →
      Holds (loadProgram cap m addr ws) (addr + 4 * i) ws[i]
  | w :: ws, m, addr, 0, _, hm, hfits => by
    have hhead : Holds (m.write32 cap addr w).1 addr w := holds_write32 hm hfits w
    refine hhead.congr fun a hle hlt => get_loadProgram_of_not_covers ws _ (addr + 4) fun i _ => ?_
    rw [Covers]
    omega
  | w :: ws, m, addr, i + 1, hi, hm, hfits => by
    have haddr : addr + 4 * (i + 1) = addr + 4 + 4 * i := by omega
    rw [haddr] at hfits ⊢
    exact holds_loadProgram ws (addr + 4) i (Nat.lt_of_succ_lt_succ hi)
      (Memory.wf_write32 hm cap addr w) hfits

theorem loadData_append (cap base : Nat) (post : List StaticDatum) :
    ∀ (pre : List StaticDatum) (m : Memory),
      loadData cap base m (pre ++ post) = loadData cap base (loadData cap base m pre) post
  | [], _ => rfl
  | _ :: pre, _ => loadData_append cap base post pre _

/-- A static entry that fits and that no later one overlaps is in memory after the load. -/
theorem holds_loadData {cap base : Nat} {pre post : List StaticDatum} {d : StaticDatum} {m : Memory}
    (hm : m.wf = true ∧ m.within cap = true) (hfits : base + d.offset.toNat + 4 ≤ cap)
    (hlater : ∀ e ∈ post, ∀ a, Covers cap (base + d.offset.toNat) a →
      ¬ Covers cap (base + e.offset.toNat) a) :
    Holds (loadData cap base m (pre ++ d :: post)) (base + d.offset.toNat) d.value := by
  rw [loadData_append, loadData]
  obtain ⟨hwf, -⟩ := loadData_good (base := base) pre hm
  refine (holds_write32 hwf hfits d.value).congr fun a hle hlt => ?_
  exact get_loadData_of_not_covers post _ fun e he => hlater e he a ⟨hle, hlt, hfits⟩

end Sys2Proof.Claims

open Sys2Proof Sys2Proof.Machine Sys2Proof.Claims

/-- Settles O60: a word is written once and no later write covers its bytes; an uncovered byte is
written by none. -/
theorem loaderImageContents : Obligations.LoaderImageContents := by
  intro cfg program data
  have hmem : (boot cfg program data).mem = loadImage cfg program data := rfl
  have hprogram := loadProgram_good (cap := cfg.memCapacity.val) program (m := []) 0 ⟨rfl, rfl⟩
  rw [hmem, loadImage]
  refine ⟨fun i hi hfits hdata => ?word, fun pre post d hsplit hfits hlater => ?entry,
    fun a hwords hdata => ?uncovered⟩
  case word =>
    have hword := holds_loadProgram (cap := cfg.memCapacity.val) program (m := []) 0 i hi rfl
      (by omega)
    rw [Nat.zero_add] at hword
    exact hword.congr fun a hle hlt => get_loadData_of_not_covers data _ fun d hd =>
      hdata d hd a ⟨hle, hlt, hfits⟩
  case entry =>
    rw [hsplit]
    exact holds_loadData hprogram hfits hlater
  case uncovered =>
    rw [get_loadData_of_not_covers data _ hdata,
      get_loadProgram_of_not_covers program _ 0 fun i hi => by rw [Nat.zero_add]; exact hwords i hi]
    rfl

end

section
/-! SUPPORT. O1, O12, O13: words of the spec's vectors; the reset event and the tick. -/

namespace Sys2Proof.Claims
open Sys2Proof.Machine

/-- A step clears no flag and does not lower the counter (R222). -/
theorem flags_kept_of_step {s t : State} (h : step s = .next t) :
    (s.halted = true → t.halted = true) ∧ (s.error = true → t.error = true) ∧
      s.instret ≤ t.instret := by
  refine ⟨fun hh => ?_, fun he => ?_, ?_⟩
  · cases step_inv h with
    | refuses | idles => exact hh
    | halts => rfl
    | fetchRaises _ hrun | illegal _ _ hrun => cases hh.symm.trans hrun
    | runs _ _ _ hrun => cases hh.symm.trans hrun
  · have ha : ¬ Active s := fun ⟨hrun, _⟩ => by cases he.symm.trans hrun
    exact (error_of_inactive_step ha h).trans he
  · obtain ⟨-, hcount, -⟩ | ⟨-, hcount⟩ := step_counts_or_not h <;> omega

end Sys2Proof.Claims

open Sys2Proof Sys2Proof.Machine Sys2Proof.Claims

/-- Settles O1: the decoder evaluated on each word. -/
theorem specWordsDecode : Obligations.SpecWordsDecode := by
  unfold Obligations.SpecWordsDecode
  decide

/-- Settles O12: the reset event's own laws; the reset state is what it leaves of itself. -/
theorem resetValues : Obligations.ResetValues :=
  ⟨State.readReg_resetEvent State.reset, rfl, rfl, rfl, rfl, fun _ => rfl,
    fun s => ⟨State.readReg_resetEvent s, rfl, rfl, rfl, rfl, fun _ => rfl⟩⟩

/-- Settles O13: a tick is the reset event, a step or nothing but the end of the pulses. -/
theorem onlyResetClearsFlags : Obligations.OnlyResetClearsFlags := by
  intro rst stepEn s t h
  cases rst with
  | true =>
    cases h
    exact ⟨rfl, fun _ => ⟨fun _ => rfl, rfl, rfl, rfl, rfl, fun _ => rfl⟩, nofun⟩
  | false =>
    cases stepEn with
    | true => exact ⟨cfg_of_step h, nofun, fun _ => flags_kept_of_step h⟩
    | false =>
      cases h
      exact ⟨rfl, nofun, fun _ => ⟨id, id, Nat.le_refl _⟩⟩

end
